-- ==== Sys2Proof/Word.lean ====
section
/-! DEFINITION. The word types of `i2c_master_ctrl` (spec 10_state.md, 20_memory.md, 30_encoding.md). Every value is an
unsigned integer of a stated width and wraps modulo `2 ^ width` (R9), which is what `BitVec` gives. -/

namespace Sys2Proof

/-- 8 bits: one byte of BUFMEM, one PORT transfer (R57). -/
abbrev Byte := BitVec 8

/-- 32 bits: one HOSTREG access (R56, R57). A field of `ADDR_W`, `LEN_W` or `TIMEOUT_W` bits (R7) is held in one, in its low bits:
the register that holds it has 32 (R21). -/
abbrev Word := BitVec 32

/-- 7 bits: a target address on the bus, ADDR[6:0] (R25). -/
abbrev BusAddr := BitVec 7

end Sys2Proof
end

