-- ==== Sys2Proof/Config.lean ====
section
/-! DEFINITION. What an implementation fixes (R7, R75, R77) and the values the spec leaves free.

* `Params`: the parameters of R7, R52 and R77. They stand in `State.cfg`, which no step writes, so a statement over every state is
  a statement over every configuration.
* `Config.hardware`: the values R7, R75 and R77 give for this hardware.
* `Config.ctl...`, `Config.prescCode`: these values as the opcode table has them bit for bit, which is what the decoder reads
  (DESIGN CHOICE, assumption 13).
* the `opaque` constants: the open parameters and the free draws. Nothing can evaluate them, so no proof can lean on a value. -/

namespace Sys2Proof

/-- A run of BUFMEM addresses that hold real memory: `base`, `base + 1`, … `base + size - 1`. -/
structure Region where
  base : Nat
  size : Nat
deriving DecidableEq, Repr

/-- The configuration parameters (R7, R77, and the table "Named open parameters" of 92_eei_decisions.md). -/
structure Params where
  /-- `CORE_CLOCK_HZ`, the clock of the divisor formula (R7, R111). -/
  coreClockHz    : Word
  /-- `SUPPORTED_FREQS`, six entries (R7). -/
  supportedFreqs : List Word
  /-- `PRESCALER`, the prescaler ratio (R7, R111). -/
  prescaler      : Word
  /-- `PRESC_CODE`, what is written to PSR to select the ratio (R7, R151). -/
  prescCode      : Byte
  /-- `DIV_W`, the width of the divisor register (R7, R111). -/
  divW           : Nat
  /-- `TIMEOUT_W`, the width of TIMEOUT (R7, R28). -/
  timeoutW       : Nat
  /-- `TIMEOUT_COUNT_DEFAULT`, the reset value of TIMEOUT (R7, R28). -/
  timeoutDefault : Word
  /-- `ADDR_W`, the width of a buffer address (R7, R26). -/
  addrW          : Nat
  /-- `LEN_W`, the width of a length (R7, R27). -/
  lenW           : Nat
  /-- `SC_START` (R77). -/
  scStart        : Byte
  /-- `SC_SLA_W_ACK` (R77). -/
  scSlaWAck      : Byte
  /-- `SC_SLA_R_ACK` (R77). -/
  scSlaRAck      : Byte
  /-- `SC_DATA_TX_ACK` (R77). -/
  scDataTxAck    : Byte
  /-- `SC_DATA_RX_ACK` (R77). -/
  scDataRxAck    : Byte
  /-- `SC_DATA_RX_NACK` (R77). -/
  scDataRxNack   : Byte
  /-- `STATUS_MASK` (R77). -/
  statusMask     : Byte
  /-- `CTL_START` (R7, R75). -/
  ctlStart       : Byte
  /-- `CTL_CONT` (R7, R75). -/
  ctlCont        : Byte
  /-- `CTL_CONT_ACK` (R7, R75). -/
  ctlContAck     : Byte
  /-- `CTL_STOP` (R7, R75). -/
  ctlStop        : Byte
  /-- `BUFMEM_VALID` (R52), written as the regions in which it holds. -/
  bufmemRegions  : List Region
deriving DecidableEq, Repr

/-- `BUFMEM_VALID(addr)` (R52); an address has `ADDR_W` bits (R50). -/
def Params.bufmemValid (p : Params) (a : Word) : Bool :=
  decide (a.toNat < 2 ^ p.addrW) && p.bufmemRegions.any fun r => decide (r.base ≤ a.toNat) && decide (a.toNat < r.base + r.size)

namespace Config

/-- `PRESC_CODE` of this hardware, what is written to PSR to select ratio 1: 0 (R7, R151). -/
def prescCode : Byte := 0x00

/-- `CTL_START`: TWINT, TWSTA, TWEN (R75). -/
def ctlStart : Byte := 0xA4

/-- `CTL_CONT`: TWINT, TWEN (R75). -/
def ctlCont : Byte := 0x84

/-- `CTL_CONT_ACK`: TWINT, TWEA, TWEN (R75). -/
def ctlContAck : Byte := 0xC4

/-- `CTL_STOP`: TWINT, TWSTO, TWEN (R75). -/
def ctlStop : Byte := 0x94

/-- BUFMEM_VALID of the platform: OPEN (R52, U11), so an opaque list of regions. DESIGN CHOICE, assumption 3. -/
opaque bufmemRegions : List Region

/-- What HOST's read of a BUFMEM address without memory returns, at the `n`-th free choice of a value: the spec gives no value
there, and no access faults (R52, R68, R174). DESIGN CHOICE, assumption 5. -/
opaque openByte : Nat → Byte

/-- HOSTREG_BASE: OPEN (R51, U10). No rule of the block reads it: the block sees offsets only. DEDUCED,
assumption 19. -/
opaque hostregBase : Nat

/-- The open number behind `timeoutCountDefault`. -/
opaque timeoutDefaultSeed : Nat

/-- `TIMEOUT_COUNT_DEFAULT`: OPEN, but `1 ≤ value ≤ 2 ^ 32 - 1` (R7, D23), every such value possible.
DESIGN CHOICE, assumption 2. -/
def timeoutCountDefault : Word :=
  BitVec.ofNat 32 (timeoutDefaultSeed % 4294967295 + 1)

/-- The byte PERIPH returns at its `n`-th free draw (R160, U1): any 8-bit value, under no rule. DESIGN CHOICE,
assumption 7. -/
opaque periphDraw : Nat → Byte

/-- The `n`-th free choice of which of the racing values an access sees (R62, U3). DEDUCED, assumption 8. -/
opaque raceDraw : Nat → Nat

/-- What a BUFMEM byte that nothing in the model has written holds. The spec gives BUFMEM no reset contents
(R192). DESIGN CHOICE, assumption 1. -/
opaque bufmemInit : Nat → Byte

/-- The parameters of this hardware (R7, R77), with BUFMEM_VALID left open. -/
def hardware : Params where
  coreClockHz    := 16000000
  supportedFreqs := [100000, 400000, 1000000, 1700000, 3400000, 5000000]
  prescaler      := 1
  prescCode      := prescCode
  divW           := 8
  timeoutW       := 32
  timeoutDefault := timeoutCountDefault
  addrW          := 16
  lenW           := 16
  scStart        := 0x08
  scSlaWAck      := 0x18
  scSlaRAck      := 0x40
  scDataTxAck    := 0x28
  scDataRxAck    := 0x50
  scDataRxNack   := 0x58
  statusMask     := 0xF8
  ctlStart       := ctlStart
  ctlCont        := ctlCont
  ctlContAck     := ctlContAck
  ctlStop        := ctlStop
  bufmemRegions  := bufmemRegions

end Config

end Sys2Proof
end

