-- ==== Sys2Proof/Syntax.lean ====
section
/-! DEFINITION. The instruction set as data: one constructor per row of spec/opcode_table.json (34 rows, three formats: R70 to
R74), and the code words of the three formats. -/

namespace Sys2Proof

/-- The instructions. `v` is the 32-bit data `D` of a HOST write. `sel` is OFF[4:2] and `we` is WE of an ill-formed access.
`hi` is CMD[31:3], which is ignored. `val` of a port read is the byte PERIPH answers. -/
inductive Instr
  -- format host_access (R71)
  | rdCmd
  | wrCmd (v : Word)
  | rdStatus
  | wrStatus (v : Word)
  | rdFreq
  | wrFreq (v : Word)
  | rdAddr
  | wrAddr (v : Word)
  | rdBuf
  | wrBuf (v : Word)
  | rdLen
  | wrLen (v : Word)
  | rdTimeout
  | wrTimeout (v : Word)
  | rdRsvd1C
  | wrRsvd1C (v : Word)
  | illformedOff1 (we : Bool) (sel : BitVec 3) (v : Word)
  | illformedOff2 (we : Bool) (sel : BitVec 3) (v : Word)
  | illformedOff3 (we : Bool) (sel : BitVec 3) (v : Word)
  -- format cmd (R72, R73)
  | init (hi : BitVec 29)
  | send (hi : BitVec 29)
  | recv (hi : BitVec 29)
  | reservedCmd0 (hi : BitVec 29)
  | reservedCmd4to7 (low : BitVec 2) (hi : BitVec 29)
  -- format port_event (R74)
  | pwDiv (d : Byte)
  | pwPresc
  | pwData (b : Byte)
  | pwCtlStart
  | pwCtlCont
  | pwCtlContAck
  | pwCtlStop
  | prFlag (val : Byte)
  | prStatus (val : Byte)
  | prData (val : Byte)
deriving DecidableEq, Repr

/-- A code word of one of the three instruction formats (R70). `hostAccess` is the 6-bit descriptor `HA` with the 32-bit data `D`
beside it, which only a write carries (R71). -/
inductive CodeWord
  | hostAccess (ha : BitVec 6) (d : Word)
  | cmd (w : Word)
  | portEvent (pe : BitVec 12)
deriving DecidableEq, Repr

/-- The instructions of the format `host_access` (R71). -/
def Instr.isHostAccess : Instr → Bool
  | .rdCmd | .wrCmd _ | .rdStatus | .wrStatus _ | .rdFreq | .wrFreq _ | .rdAddr | .wrAddr _ | .rdBuf | .wrBuf _ => true
  | .rdLen | .wrLen _ | .rdTimeout | .wrTimeout _ | .rdRsvd1C | .wrRsvd1C _ => true
  | .illformedOff1 _ _ _ | .illformedOff2 _ _ _ | .illformedOff3 _ _ _ => true
  | _ => false

/-- The port operations that read PORT, and so take an answer of PERIPH (R157 to R159). -/
def Instr.isPortRead : Instr → Bool
  | .prFlag _ | .prStatus _ | .prData _ => true
  | _ => false

end Sys2Proof
end

