-- ==== Sys2Proof/WellFormed.lean ====
section
/-! DEFINITION. Well-formed instructions and well-formed configurations, as Bool checks.

The operands of `Instr` are bit vectors of the width the encoding gives them, so the one thing left to check of an instruction is
that a READ carries no data word (R71: "and, for a write, 32-bit data"). A configuration is checked as R7 says. -/

namespace Sys2Proof

/-- Only a write carries data (R71). -/
def dataFits (we : Bool) (v : Word) : Bool := we || v == 0

/-- An instruction is well formed. -/
def Instr.wf : Instr → Bool
  | .illformedOff1 we _ v => dataFits we v
  | .illformedOff2 we _ v => dataFits we v
  | .illformedOff3 we _ v => dataFits we v
  | .rdCmd | .wrCmd _ | .rdStatus | .wrStatus _ | .rdFreq | .wrFreq _ | .rdAddr | .wrAddr _ | .rdBuf | .wrBuf _ => true
  | .rdLen | .wrLen _ | .rdTimeout | .wrTimeout _ | .rdRsvd1C | .wrRsvd1C _ => true
  | .init _ | .send _ | .recv _ | .reservedCmd0 _ | .reservedCmd4to7 _ _ => true
  | .pwDiv _ | .pwPresc | .pwData _ | .pwCtlStart | .pwCtlCont | .pwCtlContAck | .pwCtlStop => true
  | .prFlag _ | .prStatus _ | .prData _ => true

/-- A code word is in the form the encoder writes: the data word beside a HOST read is 0 (R71). -/
def CodeWord.wf : CodeWord → Bool
  | .hostAccess ha d => dataFits (ha.getLsbD 5) d
  | .cmd _ => true
  | .portEvent _ => true

/-- No entry twice. -/
def distinct : List Word → Bool
  | [] => true
  | x :: xs => !xs.contains x && distinct xs

/-- Well-formedness of a configuration (R7; `CORE_CLOCK_HZ` nonzero: 92_eei_decisions.md, "Named open parameters").
`CORE_CLOCK_HZ < 2 ^ 32` holds by the type. A ratio of 0, and a field wider than the 32-bit register that holds it (R21), are
refused too (DESIGN CHOICE, assumption 17). -/
def Params.wf (p : Params) : Bool :=
  p.supportedFreqs.length == 6 && !p.supportedFreqs.contains 0 && distinct p.supportedFreqs && p.coreClockHz != 0
    && p.prescaler != 0 && decide (p.divW ≤ 32) && decide (p.timeoutW ≤ 32) && decide (p.addrW ≤ 32) && decide (p.lenW ≤ 32)

end Sys2Proof
end

