-- ==== Sys2Proof/Decode.lean ====
section
/-! DEFINITION. The decoder, total on every code word and rejecting by name, and after it the encoder, both written from the
encoding tables of 30_encoding.md (R71 to R75) and the rows of spec/opcode_table.json. -/

namespace Sys2Proof

/-- Why a code word is no instruction. Only `port_event` words can be rejected: every `HA` and every `cmd` word is a form. -/
inductive DecodeError
  /-- REG is 4 to 7, which are never produced (R74, R82). -/
  | noSuchPortRegister
  /-- A read of DIVR, which BLOCK never makes (R74). -/
  | divisorIsNeverRead
  /-- A write of PSR with a value other than PRESC_CODE (R151). -/
  | notThePrescalerCode
  /-- A write of CR with a value other than the four control words (R74, R75). -/
  | notAControlWord
deriving DecidableEq, Repr

/-- A word-aligned HOST access: the register that OFF[4:2] selects (R21, R71), read or written. -/
def decodeRegister (we : Bool) (sel : BitVec 3) (v : Word) : Instr :=
  if sel = 0 then (if we then .wrCmd v else .rdCmd)
  else if sel = 1 then (if we then .wrStatus v else .rdStatus)
  else if sel = 2 then (if we then .wrFreq v else .rdFreq)
  else if sel = 3 then (if we then .wrAddr v else .rdAddr)
  else if sel = 4 then (if we then .wrBuf v else .rdBuf)
  else if sel = 5 then (if we then .wrLen v else .rdLen)
  else if sel = 6 then (if we then .wrTimeout v else .rdTimeout)
  else (if we then .wrRsvd1C v else .rdRsvd1C)

/-- A HOST access by WE, OFF[4:2] and OFF[1:0] (R71): OFF[1:0] ≠ 0 is the ill-formed form (R108). -/
def decodeAccess (we : Bool) (sel : BitVec 3) (low : BitVec 2) (v : Word) : Instr :=
  if low = 0 then decodeRegister we sel v
  else if low = 1 then .illformedOff1 we sel v
  else if low = 2 then .illformedOff2 we sel v
  else .illformedOff3 we sel v

/-- A HOST access `HA`, `D` (R71): `HA[5]` is WE and `HA[4:0]` is OFF. A read has no data, so what stands beside it is dropped
(DESIGN CHOICE, assumption 20). -/
def decodeHostAccess (ha : BitVec 6) (d : Word) : Instr :=
  let we := ha.getLsbD 5
  decodeAccess we (ha.extractLsb' 2 3) (ha.extractLsb' 0 2) (if we then d else 0)

/-- A CMD word: only CMD[2:0] is matched (R72, R73). -/
def decodeCmd (w : Word) : Instr :=
  let op := w.extractLsb' 0 3
  let hi := w.extractLsb' 3 29
  if op = 1 then .init hi
  else if op = 2 then .send hi
  else if op = 3 then .recv hi
  else if op = 0 then .reservedCmd0 hi
  else .reservedCmd4to7 (op.extractLsb' 0 2) hi

/-- A port event `PE` (R74). -/
def decodePortEvent (pe : BitVec 12) : Except DecodeError Instr :=
  let reg := pe.extractLsb' 8 3
  let val := pe.extractLsb' 0 8
  if pe.getLsbD 11 then
    if reg = 0 then .ok (.pwDiv val)
    else if reg = 1 then
      if val = Config.prescCode then .ok .pwPresc else .error .notThePrescalerCode
    else if reg = 2 then .ok (.pwData val)
    else if reg = 3 then
      if val = Config.ctlStart then .ok .pwCtlStart
      else if val = Config.ctlCont then .ok .pwCtlCont
      else if val = Config.ctlContAck then .ok .pwCtlContAck
      else if val = Config.ctlStop then .ok .pwCtlStop
      else .error .notAControlWord
    else .error .noSuchPortRegister
  else
    if reg = 0 then .error .divisorIsNeverRead
    else if reg = 1 then .ok (.prStatus val)
    else if reg = 2 then .ok (.prData val)
    else if reg = 3 then .ok (.prFlag val)
    else .error .noSuchPortRegister

/-- The decoder. -/
def decode : CodeWord → Except DecodeError Instr
  | .hostAccess ha d => .ok (decodeHostAccess ha d)
  | .cmd w => .ok (decodeCmd w)
  | .portEvent pe => decodePortEvent pe

/-- `HA` of an access to the register at offset `4 * sel + low` (R71). -/
def haOf (we : Bool) (sel : BitVec 3) (low : BitVec 2) : BitVec 6 :=
  BitVec.ofBool we ++ sel ++ low

/-- `PE` of a PORT access (R74): W, REG, VAL. -/
def portWord (write : Bool) (reg : BitVec 3) (val : Byte) : BitVec 12 :=
  BitVec.ofBool write ++ reg ++ val

/-- A CMD word from OP and the ignored bits (R72). -/
def cmdWord (op : BitVec 3) (hi : BitVec 29) : Word := hi ++ op

/-- The encoder: the code word of an instruction, each `HA` and `PE` pattern as spec/opcode_table.json gives it. -/
def encode : Instr → CodeWord
  | .rdCmd       => .hostAccess 0x00 0
  | .wrCmd v     => .hostAccess 0x20 v
  | .rdStatus    => .hostAccess 0x04 0
  | .wrStatus v  => .hostAccess 0x24 v
  | .rdFreq      => .hostAccess 0x08 0
  | .wrFreq v    => .hostAccess 0x28 v
  | .rdAddr      => .hostAccess 0x0C 0
  | .wrAddr v    => .hostAccess 0x2C v
  | .rdBuf       => .hostAccess 0x10 0
  | .wrBuf v     => .hostAccess 0x30 v
  | .rdLen       => .hostAccess 0x14 0
  | .wrLen v     => .hostAccess 0x34 v
  | .rdTimeout   => .hostAccess 0x18 0
  | .wrTimeout v => .hostAccess 0x38 v
  | .rdRsvd1C    => .hostAccess 0x1C 0
  | .wrRsvd1C v  => .hostAccess 0x3C v
  | .illformedOff1 we sel v => .hostAccess (haOf we sel 1) v
  | .illformedOff2 we sel v => .hostAccess (haOf we sel 2) v
  | .illformedOff3 we sel v => .hostAccess (haOf we sel 3) v
  | .init hi => .cmd (cmdWord 1 hi)
  | .send hi => .cmd (cmdWord 2 hi)
  | .recv hi => .cmd (cmdWord 3 hi)
  | .reservedCmd0 hi => .cmd (cmdWord 0 hi)
  | .reservedCmd4to7 low hi => .cmd (cmdWord (1#1 ++ low) hi)
  | .pwDiv d      => .portEvent (portWord true 0 d)
  | .pwPresc      => .portEvent 0x900
  | .pwData b     => .portEvent (portWord true 2 b)
  | .pwCtlStart   => .portEvent 0xBA4
  | .pwCtlCont    => .portEvent 0xB84
  | .pwCtlContAck => .portEvent 0xBC4
  | .pwCtlStop    => .portEvent 0xB94
  | .prFlag val   => .portEvent (portWord false 3 val)
  | .prStatus val => .portEvent (portWord false 1 val)
  | .prData val   => .portEvent (portWord false 2 val)

/-- A word as spec/opcode_table.json numbers it, as a code word. The table's number does not name its format, and the width does
not always tell it (DESIGN CHOICE, assumption 6): 12 bits stand in 16, a `cmd` word has 32, an access with its data has 40 (`HA` in the first
byte, `D` in the four after it, little-endian, R54). In 8 bits stand both `HA` (6 bits) and the low end of a `cmd` word; there a
number that no `HA` can have is a `cmd` word, and so are the numbers 1, 2 and 3 of INIT, SEND and RECV. Every other number is
an `HA`. -/
def CodeWord.ofTable (nbits w : Nat) : Option CodeWord :=
  if nbits = 8 then
    if 64 ≤ w || (1 ≤ w && w ≤ 3) then some (.cmd (BitVec.ofNat 32 w))
    else some (.hostAccess (BitVec.ofNat 6 w) 0)
  else if nbits = 16 then
    if w < 4096 then some (.portEvent (BitVec.ofNat 12 w)) else none
  else if nbits = 32 then some (.cmd (BitVec.ofNat 32 w))
  else if nbits = 40 then
    if w % 256 < 64 then some (.hostAccess (BitVec.ofNat 6 (w % 256)) (BitVec.ofNat 32 (w / 256))) else none
  else none

/-- The instruction the decoder reads from a word numbered as the opcode table numbers it. -/
def decodeTableWord (nbits w : Nat) : Option Instr :=
  match CodeWord.ofTable nbits w with
  | some c =>
    match decode c with
    | .ok i => some i
    | .error _ => none
  | none => none

end Sys2Proof
end

