-- ==== Sys2Proof/Machine/State.lean ====
section
/-! DEFINITION. The state of the machine: everything 10_state.md gives BLOCK (R20 to R39), BUFMEM (R52), and what the agents HOST
and PERIPH still owe the run as input (R3), with the observations of R15. All of it is plain data. -/

namespace Sys2Proof.Machine

/-- BUFMEM: the bytes written so far, as (address, byte) pairs with strictly rising addresses (R50, R52). -/
abbrev Memory := List Host.Cell

/-- The result codes (R34, R170). -/
inductive ResultCode
  | ok | notInitialized | timeout | invalidBuffer
deriving DecidableEq, Repr

/-- The per-transaction states (R33, R120). -/
inductive TxState
  | idle | started | addressSent | dataByte | stopped
deriving DecidableEq, Repr

/-- The command in progress, `op` (R36). -/
inductive Op
  | none | init | send | recv
deriving DecidableEq, Repr

/-- The phases that wait (R13, R140). `last` says whether a DATA phase is that of byte N-1. -/
inductive Phase
  | start
  | address
  | data (last : Bool)
deriving DecidableEq, Repr

/-- `seq`, the position in the pseudocode of the command in progress (R36, R38). A byte carried by a position is a local variable
of the pseudocode that is live there (`d` of R110, `b` of R147, `d` of R148; DESIGN CHOICE, assumption 23). -/
inductive Seq
  /-- The idle point. -/
  | idle
  /-- R110: the membership test of INIT. -/
  | initCheck
  /-- R110: before event 1, `PortWrite(DIVR, d)`. -/
  | initDiv (d : Byte)
  /-- R110: before event 2, `PortWrite(PSR, PRESC_CODE)`. -/
  | initPresc
  /-- R110: before `reg[STATUS].INIT <- 1`. -/
  | initFlag
  /-- R110: before `complete(OK)`. -/
  | initDone
  /-- R123: the prechecks. -/
  | precheck
  /-- R124: before `dir <- dirv ; err <- none ; state <- Idle`. -/
  | txnBegin
  /-- R144: before `PortWrite(CR, CTL_START)`. -/
  | startCtl
  /-- R145: before `PortWrite(DR, sla)`. -/
  | addrData
  /-- R145: before `PortWrite(CR, CTL_CONT)`. -/
  | addrCtl
  /-- R140: the loop test of step (a) of the phase's wait. -/
  | flag (p : Phase)
  /-- R140: the loop test of step (b) of the phase's wait. -/
  | status (p : Phase)
  /-- R124: the phase succeeded; before the caller's `state <- S`. -/
  | phaseOk (p : Phase)
  /-- R124: the test of `for idx in 0 .. N-1`. -/
  | dataHead
  /-- R147: before `b <- MemRead(ea(idx), 1)`. -/
  | txRead
  /-- R147: before `PortWrite(DR, b)`. -/
  | txPut (b : Byte)
  /-- R147: before `PortWrite(CR, CTL_CONT)`. -/
  | txCtl
  /-- R148: before the control word of `RxByte(idx, last)`. -/
  | rxCtl (last : Bool)
  /-- R148: before `d <- PortRead(DR)`. -/
  | rxRead
  /-- R148: before `MemWrite(ea(idx), 1, d)`. -/
  | rxStore (d : Byte)
  /-- R149: before `PortWrite(CR, CTL_STOP)`, the label `STOP:` of R124. -/
  | stopCtl
  /-- R124: before `state <- Stopped`. -/
  | stopped
  /-- R124: before the `complete` of the transaction. -/
  | finish
deriving DecidableEq, Repr

/-- The four PORT registers (R50, R74). -/
inductive PortReg
  | divr | psr | dr | cr
deriving DecidableEq, Repr

/-- The events BLOCK performs (R15), each with the value moved. -/
inductive Event
  | portWrite (r : PortReg) (v : Byte)
  | portRead (r : PortReg) (v : Byte)
  | memRead (a : Word) (v : Byte)
  | memWrite (a : Word) (v : Byte)
deriving DecidableEq, Repr

/-- One HOST access to HOSTREG: its width in bits (R56), its descriptor `HA` and the data `D` of a write (R71). -/
structure HostAccess where
  width : Nat
  ha    : BitVec 6
  d     : Word
deriving DecidableEq, Repr

/-- What moves next, an input of the run: HOST's accesses, the reset input, and when BLOCK gets a turn among them (R3, R202;
DESIGN CHOICE, assumption 9). -/
inductive Turn
  /-- BLOCK takes a step, if it has one. -/
  | block
  /-- HOST accesses HOSTREG (R71). -/
  | access (a : HostAccess)
  /-- `POLL reg, mask, value`: HOST reads the register at the offset until `(v & mask) = value` (R84). -/
  | poll (off : BitVec 5) (mask value : Word)
  /-- HOST reads a byte of BUFMEM (R50, R202). -/
  | bufRead (a : Word)
  /-- HOST writes a byte of BUFMEM (R50, R202). -/
  | bufWrite (a : Word) (b : Byte)
  /-- The reset input (R191, R202). -/
  | reset
deriving DecidableEq, Repr

/-- Why the machine stops. -/
inductive Fault
  /-- BLOCK is stuck at a `MemRead` or `MemWrite` outside BUFMEM_VALID (R52, U2), and no turn of HOST is left that could follow.
  Raised by step. Safe: the spec gives BLOCK no further step. DESIGN CHOICE, assumption 4. -/
  | bufmemStuck (a : Word)
deriving DecidableEq, Repr

/-- Why a state or an instruction has no meaning in this model. -/
inductive Refusal
  /-- An instruction without a meaning yet. Raised by an arm of exec; no arm raises it now. Safe. -/
  | notModelled (mnemonic : String)
  /-- The configuration breaks R7, which says that the model refuses it. Raised by step. Safe. -/
  | badConfiguration
  /-- A code word that is no form of this hardware (R82). Raised by a HOST turn of step, where no word is one: every `HA` is a form.
  Safe. -/
  | noSuchForm (e : DecodeError)
deriving DecidableEq, Repr

/-- The state of the machine. -/
structure State where
  /-- The configuration (R7). Read-only: no step writes it (DESIGN CHOICE, assumption 17). -/
  cfg         : Params
  /-- FREQ (R24). -/
  freq        : Word
  /-- ADDR[6:0] (R25); ADDR[31:7] has no storage. -/
  addr        : BusAddr
  /-- BUF[ADDR_W-1:0] (R26), 16 bits on this hardware; the bits above have no storage: a write keeps none of them. -/
  buf         : Word
  /-- LEN[LEN_W-1:0] (R27), 16 bits on this hardware; the bits above have no storage: a write keeps none of them. -/
  len         : Word
  /-- TIMEOUT[TIMEOUT_W-1:0], `timeout_count` (R28, R31), all 32 bits on this hardware. -/
  timeout     : Word
  /-- STATUS.BUSY (R32). -/
  busy        : Bool
  /-- STATUS.INIT, `initialized` (R30). -/
  initialized : Bool
  /-- STATUS.DONE (R35). -/
  done        : Bool
  /-- STATUS.RESULT (R34). -/
  result      : ResultCode
  /-- STATUS.STATE (R33). -/
  txState     : TxState
  /-- `op` (R36). -/
  op          : Op
  /-- `dir` (R36): false is 0 (SEND), true is 1 (RECV). -/
  dir         : Bool
  /-- `idx` (R36), `LEN_W` bits: never above LEN in a transaction. -/
  idx         : Word
  /-- `cnt` (R36, R37). -/
  cnt         : Word
  /-- `err` (R36): the first error of the transaction, or none. -/
  err         : Option ResultCode
  /-- `seq` (R36, R38). -/
  seq         : Seq
  /-- BUFMEM (R50, R52). -/
  mem         : Memory
  /-- Bytes that a HOST write displaced while BUSY = 1: the other value of the race (R62). -/
  hostRaced   : List Host.Cell
  /-- Bytes that a BLOCK write displaced while BUSY = 1: the other value of the race (R62). -/
  blockRaced  : List Host.Cell
  /-- The trace (R15), oldest event first. -/
  trace       : List Event
  /-- `ret`, what the last HOST read of HOSTREG returned (R15 part 2, 40_host_interface.md). -/
  ret         : Word
  /-- What the last HOST read of BUFMEM returned (R62). -/
  retByte     : Byte
  /-- Turns still to come (input). -/
  inbox       : List Turn
  /-- Answers of PERIPH still to come (input, R160). When they run out, answers are free draws. -/
  answers     : List Byte
  /-- How many free answers of PERIPH have been drawn: the index of the next one. -/
  draws       : Nat
  /-- How many free choices have been made at HOST's and BLOCK's accesses to BUFMEM: the index of the next one. -/
  raceDraws   : Nat
deriving DecidableEq, Repr

/-- The machine right after reset (R190), with BUFMEM and the inputs empty. The model's own fields start at values it chose
(DESIGN CHOICE, assumption 15). -/
def State.reset : State where
  cfg         := Config.hardware
  freq        := 0
  addr        := 0
  buf         := 0
  len         := 0
  timeout     := Config.timeoutCountDefault
  busy        := false
  initialized := false
  done        := false
  result      := .ok
  txState     := .idle
  op          := .none
  dir         := false
  idx         := 0
  cnt         := 0
  err         := none
  seq         := .idle
  mem         := []
  hostRaced   := []
  blockRaced  := []
  trace       := []
  ret         := 0
  retByte     := 0
  inbox       := []
  answers     := []
  draws       := 0
  raceDraws   := 0

/-- The three outcomes of a step of this machine. -/
abbrev Result := Host.Outcome State Fault Refusal

end Sys2Proof.Machine
end

