-- ==== Sys2Proof/Machine/Operands.lean ====
section
/-! DEFINITION. Operand assembly (R78, R79), the buffer address (R58), the divisor function (R111), the register offsets (R21) and
the address_matcher's code table (R146). -/

namespace Sys2Proof.Machine

/-- The low `w` bits of a word, zero-extended: what a field of `w` bits keeps of a word written to its register (R26 to R28). -/
def keepBits (w : Nat) (v : Word) : Word := BitVec.ofNat 32 (v.toNat % 2 ^ w)

/-- The divisor function of INIT (R111): 32-bit unsigned division, 32-bit wrap, division by `2 * PRESCALER`, low `DIV_W` bits. The
port moves 8 bits (R57), so of a wider divisor the low 8 are written (DESIGN CHOICE, assumption 13). -/
def divisor (p : Params) (f : Word) : Byte :=
  let q   := p.coreClockHz / f
  let t   := q - 16
  let d32 := t.toNat / (2 * p.prescaler.toNat)
  BitVec.ofNat 8 (d32 % 2 ^ p.divW)

/-- The address byte: the 7-bit address, then the direction bit in bit 0 (R78). -/
def slaByte (a : BusAddr) (dir : Bool) : Byte := a ++ BitVec.ofBool dir

/-- `ea(i) = (BUF + i) mod 2 ^ ADDR_W` (R55, R58, R128). -/
def State.ea (s : State) (i : Word) : Word := keepBits s.cfg.addrW (s.buf + i)

/-- `idx = N - 1` (R124, R148). -/
def State.isLast (s : State) : Bool := s.idx == s.len - 1

/-- `expected(phase, dir, last)`, the address_matcher's code table (R146). -/
def expected (p : Params) : Phase → (dir : Bool) → Byte
  | .start, _ => p.scStart
  | .address, false => p.scSlaWAck
  | .address, true => p.scSlaRAck
  | .data _, false => p.scDataTxAck
  | .data false, true => p.scDataRxAck
  | .data true, true => p.scDataRxNack

/-- A status sample matches an expected code: `(s & STATUS_MASK) = e` (R77, R146). -/
def matchesCode (p : Params) (sample e : Byte) : Bool := sample &&& p.statusMask == e

/-- The completion flag of a CR sample: bit 7 (R76, R141). So 0x84 is a set flag, as in program P4 of 95_test_vectors.md; the example of
R157 calls it clear, against that rule's own `v[7]` (DEDUCED, assumption 25). -/
def completionFlag (v : Byte) : Bool := v.getLsbD 7

/-- `REG` of a port event (R74). -/
def PortReg.code : PortReg → BitVec 3
  | .divr => 0
  | .psr => 1
  | .dr => 2
  | .cr => 3

/-- The event word of a PORT access (R74); a BUFMEM access has none. -/
def Event.portWord : Event → Option (BitVec 12)
  | .portWrite r v => some (Sys2Proof.portWord true r.code v)
  | .portRead r v => some (Sys2Proof.portWord false r.code v)
  | .memRead _ _ => none
  | .memWrite _ _ => none

end Sys2Proof.Machine
end

