-- ==== Sys2Proof/Machine/Flags.lean ====
section
/-! DEFINITION. STATUS: the codes of its fields (R33, R34), the word HOST reads (R23, R93), and the writes of its flags (R39). -/

namespace Sys2Proof.Machine

/-- The code of RESULT (R34, R170). -/
def ResultCode.code : ResultCode → BitVec 2
  | .ok => 0
  | .notInitialized => 1
  | .timeout => 2
  | .invalidBuffer => 3

/-- The code of STATE (R33). -/
def TxState.code : TxState → BitVec 3
  | .idle => 0
  | .started => 1
  | .addressSent => 2
  | .dataByte => 3
  | .stopped => 4

/-- The STATUS word (R23, R93): `zext_32(STATE ++ 0b00 ++ RESULT ++ 0b0 ++ DONE ++ INIT ++ BUSY)`. -/
def State.statusWord (s : State) : Word :=
  (s.txState.code ++ 0#2 ++ s.result.code ++ 0#1 ++ BitVec.ofBool s.done ++ BitVec.ofBool s.initialized
    ++ BitVec.ofBool s.busy).zeroExtend 32

/-- Acceptance sets BUSY and clears DONE; INIT, RESULT and STATE are unchanged (R91, R39). -/
def State.flagsAccepted (s : State) : State := { s with busy := true, done := false }

/-- Completion writes RESULT, sets DONE and clears BUSY in one step; INIT and STATE stay (R107, R39). -/
def State.flagsCompleted (s : State) (c : ResultCode) : State :=
  { s with result := c, done := true, busy := false }

/-- `reg[STATUS].INIT <- 1`, which only a successful INIT does (R30, R110). -/
def State.flagInitialized (s : State) : State := { s with initialized := true }

/-- `state <- S` (R10, R127). -/
def State.setTxState (s : State) (t : TxState) : State := { s with txState := t }

end Sys2Proof.Machine
end

