-- ==== Sys2Proof/Machine/Ops.lean ====
section
/-! DEFINITION. The shared operations: BUFMEM as a canonical list, the races of R62, PERIPH's answers (R160), the PORT and BUFMEM
events (R10), command acceptance (R91), failure entry (R176) and completion (R107), and the reset input (R191). -/

namespace Sys2Proof.Machine

/-! ### BUFMEM -/

/-- Strictly rising addresses, all above `lo` where one is given. -/
def Memory.risingFrom : Option Nat → Memory → Bool
  | _, [] => true
  | lo, (a, _) :: rest =>
    (match lo with
      | none => true
      | some l => decide (l < a)) && Memory.risingFrom (some a) rest

/-- The canonical form: strictly rising addresses, each below `2 ^ ADDR_W`. An unlisted address has no byte of its own, so every
listed byte is kept. -/
def Memory.wf (m : Memory) (addrW : Nat) : Bool :=
  Memory.risingFrom none m && m.all fun c => decide (c.1 < 2 ^ addrW)

/-- The byte listed at an address, if there is one. -/
def Memory.lookup : Memory → Nat → Option Byte
  | [], _ => none
  | (k, v) :: rest, a => if a = k then some v else Memory.lookup rest a

/-- The byte an address holds: the listed one, or the free value of a byte that nothing has written (R192). -/
def Memory.byteAt (m : Memory) (a : Word) : Byte :=
  match m.lookup a.toNat with
  | some v => v
  | none => Config.bufmemInit a.toNat

/-- Put a byte at a key, keeping the addresses rising. -/
def Memory.insert : Memory → Nat → Byte → Memory
  | [], a, b => [(a, b)]
  | (k, v) :: rest, a, b =>
    if a < k then (a, b) :: (k, v) :: rest
    else if a = k then (a, b) :: rest
    else (k, v) :: Memory.insert rest a b

/-- Write one byte. -/
def Memory.setByte (m : Memory) (a : Word) (b : Byte) : Memory := m.insert a.toNat b

/-! ### Races on BUFMEM while BUSY = 1 (R62, R195; DEDUCED, assumption 8) -/

/-- The values an address lost to racing writes, newest first. -/
def racedAt (cells : List Host.Cell) (a : Word) : List Byte :=
  (cells.filter fun c => c.1 == a.toNat).map Prod.snd

/-- One of the candidate values: the current one when there is no other, else a free choice among them all (R62: a model admits
both values and picks none). `n` is the index of the choice. -/
def pickValue (n : Nat) (cur : Byte) (others : List Byte) : Byte :=
  match others with
  | [] => cur
  | o :: os => (cur :: o :: os).getD (Config.raceDraw n % (os.length + 2)) cur

/-- The draw counter after a choice: a choice among one value draws nothing. -/
def drawsAfterPick (n : Nat) (others : List Byte) : Nat :=
  if others.isEmpty then n else n + 1

/-- The other values a `MemRead` at `a` may see: those HOST's writes displaced there during the command, and those HOST still
writes there before it ends (`later`, Lookahead.lean; R62). -/
def State.blockOthers (s : State) (later : List Byte) (a : Word) : List Byte := racedAt s.hostRaced a ++ later

/-- The other values a HOST read at `a` may see: those BLOCK's writes displaced there during the command, and those BLOCK still
writes there before it ends (`later`, Lookahead.lean; R62). -/
def State.hostOthers (s : State) (later : List Byte) (a : Word) : List Byte := racedAt s.blockRaced a ++ later

/-- The byte BLOCK's `MemRead` sees at `a`: where HOST writes the byte during the command, an old or a new value (R62). -/
def State.blockSees (s : State) (later : List Byte) (a : Word) : Byte :=
  pickValue s.raceDraws (s.mem.byteAt a) (s.blockOthers later a)

/-- The byte a HOST read sees at `a`: where BLOCK writes the byte during the command, an old or a new value (R62). -/
def State.hostSees (s : State) (later : List Byte) (a : Word) : Byte :=
  pickValue s.raceDraws (s.mem.byteAt a) (s.hostOthers later a)

/-- The byte left at `a` when one agent writes `b` there: `b`, unless the other agent wrote the byte during the same command; then
either of the two (R195). `others` is what the other agent displaced there. -/
def State.survivor (s : State) (a : Word) (b : Byte) (others : List Byte) : Byte :=
  if others.isEmpty then b else pickValue s.raceDraws b [s.mem.byteAt a]

/-- The value the write displaced: of the byte before it and the byte written, the one that is not left (R62). -/
def State.displaced (s : State) (a : Word) (b : Byte) (left : Byte) : Byte :=
  if left = b then s.mem.byteAt a else b

/-! ### PERIPH -/

/-- What PERIPH answers next (R160): the next answer of the input, or a free draw. -/
def State.answer (s : State) : Byte :=
  match s.answers with
  | v :: _ => v
  | [] => Config.periphDraw s.draws

/-- The state after PERIPH has given its answer. -/
def State.answered (s : State) : State :=
  match s.answers with
  | _ :: rest => { s with answers := rest }
  | [] => { s with draws := s.draws + 1 }

/-! ### Events (R10, R15) -/

/-- Perform an event: it is the next of the trace. -/
def State.emit (s : State) (e : Event) : State := { s with trace := s.trace ++ [e] }

/-- `PortWrite(R, v)` (R10). It changes no HOSTREG field. -/
def State.portWrite (s : State) (r : PortReg) (v : Byte) : State := s.emit (.portWrite r v)

/-- `PortRead(R)` that PERIPH answered with `v` (R10). It changes no HOSTREG field. -/
def State.portRead (s : State) (r : PortReg) (v : Byte) : State := s.emit (.portRead r v)

/-- BLOCK's `MemRead(a, 1)` at a valid address (R10, R66): the byte seen is `s.blockSees later a`. -/
def State.memRead (s : State) (later : List Byte) (a : Word) : State :=
  ({ s with raceDraws := drawsAfterPick s.raceDraws (s.blockOthers later a) }).emit (.memRead a (s.blockSees later a))

/-- BLOCK's `MemWrite(a, 1, d)` at a valid address (R10, R66). -/
def State.memWrite (s : State) (a : Word) (d : Byte) : State :=
  let others := racedAt s.hostRaced a
  let left   := s.survivor a d others
  ({ s with
      mem        := s.mem.setByte a left
      blockRaced := (a.toNat, s.displaced a d left) :: s.blockRaced
      raceDraws  := drawsAfterPick s.raceDraws others }).emit (.memWrite a d)

/-- A HOST read of BUFMEM (R61, R62). Where there is no memory (R52) it completes too, since no access faults (R68, R174), with a
free value (DESIGN CHOICE, assumption 5). -/
def State.hostBufRead (s : State) (later : List Byte) (a : Word) : State :=
  if s.cfg.bufmemValid a then
    { s with retByte := s.hostSees later a, raceDraws := drawsAfterPick s.raceDraws (s.hostOthers later a) }
  else
    { s with retByte := Config.openByte s.raceDraws, raceDraws := s.raceDraws + 1 }

/-- A HOST write of BUFMEM: plain while BUSY = 0, a race while BUSY = 1 (R62). Where there is no memory (R52) it completes too, since
no access faults (R68, R174), and changes no byte (DESIGN CHOICE, assumption 5). -/
def State.hostBufWrite (s : State) (a : Word) (b : Byte) : State :=
  if !s.cfg.bufmemValid a then s
  else if s.busy then
    let others := racedAt s.blockRaced a
    let left   := s.survivor a b others
    { s with
        mem       := s.mem.setByte a left
        hostRaced := (a.toNat, s.displaced a b left) :: s.hostRaced
        raceDraws := drawsAfterPick s.raceDraws others }
  else
    { s with mem := s.mem.setByte a b }

/-! ### Command control -/

/-- The entry point of a command (R91). -/
def Op.entry : Op → Seq
  | .none => .idle
  | .init => .initCheck
  | .send => .precheck
  | .recv => .precheck

/-- Accept a command (R91), in one step: BUSY is set, DONE, `err`, `idx` and `cnt` are cleared, and `seq` is at its entry point. -/
def State.accept (s : State) (o : Op) : State :=
  { s.flagsAccepted with op := o, err := none, idx := 0, cnt := 0, seq := o.entry }

/-- The busy gate (R90): a HOST write while BUSY = 1 changes nothing. -/
def State.gated (s : State) (write : State → State) : State :=
  if s.busy then s else write s

/-- Enter the wait of a phase: step (a) begins with `cnt <- 0` (R37, R140). -/
def State.enterWait (s : State) (p : Phase) : State := { s with cnt := 0, seq := .flag p }

/-- FAILURE ENTRY, `raise Fail(code)` (R176), the counterpart of taking an exception: the first error is kept, nothing else is
saved, and control goes to the STOP phase. -/
def State.raiseFail (s : State) (c : ResultCode) : State :=
  { s with err := (match s.err with
      | none => some c
      | some e => some e), seq := .stopCtl }

/-- `complete(code)` (R107), the end of a command and of a failure (R177). It is the release point of R61, so the races of the
command end with it. -/
def State.complete (s : State) (c : ResultCode) : State :=
  { s.flagsCompleted c with op := .none, seq := .idle, hostRaced := [], blockRaced := [] }

/-- The reset input (R190 to R192): every piece of BLOCK's state takes its reset value, at once and with no event. BUFMEM, the
configuration, the inputs and what has been observed stay (DEDUCED, assumption 16). -/
def State.resetBlock (s : State) : State :=
  { State.reset with
      cfg := s.cfg, mem := s.mem, trace := s.trace, ret := s.ret, retByte := s.retByte
      timeout := keepBits s.cfg.timeoutW s.cfg.timeoutDefault
      inbox := s.inbox, answers := s.answers, draws := s.draws, raceDraws := s.raceDraws }

end Sys2Proof.Machine
end

