-- ==== Sys2Proof/Machine/Command.lean ====
section
/-! DEFINITION. The meanings of the `cmd` words (R72, R73, R80, R91): what the write of such a word to CMD does in the step of the
HOST write. The command itself then runs as steps of BLOCK from its entry point on (Sequencer.lean; R15: no step performs two
events). `hi` is CMD[31:3], which is ignored. -/

namespace Sys2Proof.Machine

/-- INIT is accepted (R91); its body is R110. -/
def execInit (_ : BitVec 29) (s : State) : Result := .next (s.gated fun s => s.accept .init)

/-- SEND is accepted (R91); its body is R121. -/
def execSend (_ : BitVec 29) (s : State) : Result := .next (s.gated fun s => s.accept .send)

/-- RECV is accepted (R91); its body is R122. -/
def execRecv (_ : BitVec 29) (s : State) : Result := .next (s.gated fun s => s.accept .recv)

/-- OP = 0 is reserved: no effect (R80). -/
def execReservedCmd0 (_ : BitVec 29) (s : State) : Result := .next s

/-- OP = 4 to 7 is reserved: no effect (R80). -/
def execReservedCmd4to7 (_ : BitVec 2) (_ : BitVec 29) (s : State) : Result := .next s

end Sys2Proof.Machine
end

