-- ==== Sys2Proof/Machine/HostAccess.lean ====
section
/-! DEFINITION. The meanings of the host accesses (40_host_interface.md, R90 to R106 and R108). -/

namespace Sys2Proof.Machine

/-- A HOST read returns a value and has no side effect (R57, R109). -/
def State.returns (s : State) (v : Word) : State := { s with ret := v }

/-- RD CMD (R92): 0, even while a command runs. -/
def execRdCmd (s : State) : Result := .next (s.returns 0)

/-- Dispatch of a command word (R91): OP = v[2:0] selects the command, and a reserved OP has no effect (R80). -/
def State.dispatch (s : State) (v : Word) : State :=
  let op := v.extractLsb' 0 3
  if op = 1 then s.accept .init
  else if op = 2 then s.accept .send
  else if op = 3 then s.accept .recv
  else s

/-- WR CMD (R91, R90). -/
def execWrCmd (v : Word) (s : State) : Result := .next (s.gated fun s => s.dispatch v)

/-- RD STATUS (R93). -/
def execRdStatus (s : State) : Result := .next (s.returns s.statusWord)

/-- WR STATUS (R94): no effect, with BUSY = 0 or 1. -/
def execWrStatus (_ : Word) (s : State) : Result := .next s

/-- RD FREQ (R95). -/
def execRdFreq (s : State) : Result := .next (s.returns s.freq)

/-- WR FREQ (R96, R90): stored unchecked. -/
def execWrFreq (v : Word) (s : State) : Result := .next (s.gated fun s => { s with freq := v })

/-- RD ADDR (R97). -/
def execRdAddr (s : State) : Result := .next (s.returns (s.addr.zeroExtend 32))

/-- WR ADDR (R98, R90): only `v[6:0]` is kept. -/
def execWrAddr (v : Word) (s : State) : Result := .next (s.gated fun s => { s with addr := v.extractLsb' 0 7 })

/-- RD BUF (R99): `zext_32(BUF[ADDR_W-1:0])`. -/
def execRdBuf (s : State) : Result := .next (s.returns (keepBits s.cfg.addrW s.buf))

/-- WR BUF (R100, R90): only `v[ADDR_W-1:0]` is kept. -/
def execWrBuf (v : Word) (s : State) : Result := .next (s.gated fun s => { s with buf := keepBits s.cfg.addrW v })

/-- RD LEN (R101): `zext_32(LEN[LEN_W-1:0])`. -/
def execRdLen (s : State) : Result := .next (s.returns (keepBits s.cfg.lenW s.len))

/-- WR LEN (R102, R90): only `v[LEN_W-1:0]` is kept. -/
def execWrLen (v : Word) (s : State) : Result := .next (s.gated fun s => { s with len := keepBits s.cfg.lenW v })

/-- RD TIMEOUT (R103). -/
def execRdTimeout (s : State) : Result := .next (s.returns (keepBits s.cfg.timeoutW s.timeout))

/-- WR TIMEOUT (R104, R90): every value of `TIMEOUT_W` bits is legal. -/
def execWrTimeout (v : Word) (s : State) : Result := .next (s.gated fun s => { s with timeout := keepBits s.cfg.timeoutW v })

/-- RD of the reserved offset 0x1C (R105). -/
def execRdRsvd1C (s : State) : Result := .next (s.returns 0)

/-- WR of the reserved offset 0x1C (R106): no effect. -/
def execWrRsvd1C (_ : Word) (s : State) : Result := .next s

/-- An ill-formed access (R108): a write has no effect, a read returns 0. -/
def State.illformedAccess (s : State) (we : Bool) : State := if we then s else s.returns 0

/-- An access with OFF[1:0] = 1 (R108). -/
def execIllformedOff1 (we : Bool) (_ : BitVec 3) (_ : Word) (s : State) : Result := .next (s.illformedAccess we)

/-- An access with OFF[1:0] = 2 (R108). -/
def execIllformedOff2 (we : Bool) (_ : BitVec 3) (_ : Word) (s : State) : Result := .next (s.illformedAccess we)

/-- An access with OFF[1:0] = 3 (R108). -/
def execIllformedOff3 (we : Bool) (_ : BitVec 3) (_ : Word) (s : State) : Result := .next (s.illformedAccess we)

end Sys2Proof.Machine
end

