-- ==== Sys2Proof/Machine/PortEvent.lean ====
section
/-! DEFINITION. The meanings of the ten port operations of sda_scl_io_ctrl (R150 to R159): each performs its event and moves `seq`
past the position at which the pseudocode has it (R110, R140, R144 to R149). Performed anywhere else it is the event alone (DESIGN
CHOICE, assumption 14). -/

namespace Sys2Proof.Machine

/-- PW_DIV (R150): event 1 of INIT. -/
def execPwDiv (d : Byte) (s : State) : Result :=
  .next { s.portWrite .divr d with seq := (match s.seq with
    | .initDiv _ => .initPresc
    | q => q) }

/-- PW_PRESC (R151): event 2 of INIT. -/
def execPwPresc (s : State) : Result :=
  .next { s.portWrite .psr s.cfg.prescCode with seq := (match s.seq with
    | .initPresc => .initFlag
    | q => q) }

/-- PW_DATA (R152): the address byte (R145) or a data byte (R147), always followed by PW_CTL_CONT. -/
def execPwData (b : Byte) (s : State) : Result :=
  .next { s.portWrite .dr b with seq := (match s.seq with
    | .addrData => .addrCtl
    | .txPut _ => .txCtl
    | q => q) }

/-- PW_CTL_START (R153): the START phase begins its wait (R144). -/
def execPwCtlStart (s : State) : Result :=
  let t := s.portWrite .cr s.cfg.ctlStart
  .next (match s.seq with
    | .startCtl => t.enterWait .start
    | _ => t)

/-- PW_CTL_CONT (R154): the ADDRESS phase, a SEND data phase or the last RECV data phase begins its wait (R145, R147, R148). -/
def execPwCtlCont (s : State) : Result :=
  let t := s.portWrite .cr s.cfg.ctlCont
  .next (match s.seq with
    | .addrCtl => t.enterWait .address
    | .txCtl => t.enterWait (.data s.isLast)
    | .rxCtl true => t.enterWait (.data true)
    | _ => t)

/-- PW_CTL_CONT_ACK (R155): a RECV data phase other than the last begins its wait (R148). -/
def execPwCtlContAck (s : State) : Result :=
  let t := s.portWrite .cr s.cfg.ctlContAck
  .next (match s.seq with
    | .rxCtl false => t.enterWait (.data false)
    | _ => t)

/-- PW_CTL_STOP (R156): the whole of the STOP phase (R149). -/
def execPwCtlStop (s : State) : Result :=
  .next { s.portWrite .cr s.cfg.ctlStop with seq := (match s.seq with
    | .stopCtl => .stopped
    | q => q) }

/-- PR_FLAG (R157): one sample of wait step (a) (R140, R141). `cnt` rises by one, and the first sample with bit 7 set begins step
(b) with `cnt <- 0`. -/
def execPrFlag (val : Byte) (s : State) : Result :=
  let t := s.portRead .cr val
  .next (match s.seq with
    | .flag p => if completionFlag val then { t with cnt := 0, seq := .status p } else { t with cnt := s.cnt + 1 }
    | _ => t)

/-- Where a matched status leads (R124, R148): a RECV data phase goes on to read its byte, every other phase has succeeded. -/
def afterMatch (p : Phase) (dir : Bool) : Seq :=
  match p, dir with
  | .data _, true => .rxRead
  | _, _ => .phaseOk p

/-- PR_STATUS (R158): one sample of wait step (b) (R140, R142). `cnt` rises by one, and the first sample that matches the expected
code ends the wait. -/
def execPrStatus (val : Byte) (s : State) : Result :=
  let t := s.portRead .psr val
  .next (match s.seq with
    | .status p =>
      let c := { t with cnt := s.cnt + 1 }
      if matchesCode s.cfg val (expected s.cfg p s.dir) then { c with seq := afterMatch p s.dir } else c
    | _ => t)

/-- PR_DATA (R159): the received byte, to be stored next (R148). -/
def execPrData (val : Byte) (s : State) : Result :=
  .next { s.portRead .dr val with seq := (match s.seq with
    | .rxRead => .rxStore val
    | q => q) }

end Sys2Proof.Machine
end

