-- ==== Sys2Proof/Machine/Dispatch.lean ====
section
/-! DEFINITION. exec: one arm per instruction, each a direct call of its meaning. -/

namespace Sys2Proof.Machine

def exec (i : Instr) (s : State) : Host.Outcome State Fault Refusal :=
  match i with
  -- host_access
  | .rdCmd => Sys2Proof.Machine.execRdCmd s
  | .wrCmd v => Sys2Proof.Machine.execWrCmd v s
  | .rdStatus => Sys2Proof.Machine.execRdStatus s
  | .wrStatus v => Sys2Proof.Machine.execWrStatus v s
  | .rdFreq => Sys2Proof.Machine.execRdFreq s
  | .wrFreq v => Sys2Proof.Machine.execWrFreq v s
  | .rdAddr => Sys2Proof.Machine.execRdAddr s
  | .wrAddr v => Sys2Proof.Machine.execWrAddr v s
  | .rdBuf => Sys2Proof.Machine.execRdBuf s
  | .wrBuf v => Sys2Proof.Machine.execWrBuf v s
  | .rdLen => Sys2Proof.Machine.execRdLen s
  | .wrLen v => Sys2Proof.Machine.execWrLen v s
  | .rdTimeout => Sys2Proof.Machine.execRdTimeout s
  | .wrTimeout v => Sys2Proof.Machine.execWrTimeout v s
  | .rdRsvd1C => Sys2Proof.Machine.execRdRsvd1C s
  | .wrRsvd1C v => Sys2Proof.Machine.execWrRsvd1C v s
  | .illformedOff1 we sel v => Sys2Proof.Machine.execIllformedOff1 we sel v s
  | .illformedOff2 we sel v => Sys2Proof.Machine.execIllformedOff2 we sel v s
  | .illformedOff3 we sel v => Sys2Proof.Machine.execIllformedOff3 we sel v s
  -- cmd
  | .init hi => Sys2Proof.Machine.execInit hi s
  | .send hi => Sys2Proof.Machine.execSend hi s
  | .recv hi => Sys2Proof.Machine.execRecv hi s
  | .reservedCmd0 hi => Sys2Proof.Machine.execReservedCmd0 hi s
  | .reservedCmd4to7 low hi => Sys2Proof.Machine.execReservedCmd4to7 low hi s
  -- port_event
  | .pwDiv d => Sys2Proof.Machine.execPwDiv d s
  | .pwPresc => Sys2Proof.Machine.execPwPresc s
  | .pwData b => Sys2Proof.Machine.execPwData b s
  | .pwCtlStart => Sys2Proof.Machine.execPwCtlStart s
  | .pwCtlCont => Sys2Proof.Machine.execPwCtlCont s
  | .pwCtlContAck => Sys2Proof.Machine.execPwCtlContAck s
  | .pwCtlStop => Sys2Proof.Machine.execPwCtlStop s
  | .prFlag val => Sys2Proof.Machine.execPrFlag val s
  | .prStatus val => Sys2Proof.Machine.execPrStatus val s
  | .prData val => Sys2Proof.Machine.execPrData val s

end Sys2Proof.Machine
end

