-- ==== Sys2Proof/Machine/Sequencer.lean ====
section
/-! DEFINITION. i2c_state_machine and byte_serializer: what BLOCK does at each position `seq` of the pseudocode of R110, R123, R124,
R140 and R144 to R149. At a position that has a port operation, `portOp` names it as an instruction; every other position has an
internal step: a test, a `state <- S`, a `complete`, or a BUFMEM access (DEDUCED, assumption 12). -/

namespace Sys2Proof.Machine

/-- The port operation that stands at the current position, with the operand the pseudocode gives it and, for a read, the answer of
PERIPH. A wait step samples while `cnt < T` (R140). -/
def State.portOp (s : State) : Option Instr :=
  match s.seq with
  | .initDiv d => some (.pwDiv d)
  | .initPresc => some .pwPresc
  | .startCtl => some .pwCtlStart
  | .addrData => some (.pwData (slaByte s.addr s.dir))
  | .addrCtl => some .pwCtlCont
  | .flag _ => if s.cnt < s.timeout then some (.prFlag s.answer) else none
  | .status _ => if s.cnt < s.timeout then some (.prStatus s.answer) else none
  | .txPut b => some (.pwData b)
  | .txCtl => some .pwCtlCont
  | .rxCtl true => some .pwCtlCont
  | .rxCtl false => some .pwCtlContAck
  | .rxRead => some (.prData s.answer)
  | .stopCtl => some .pwCtlStop
  | .idle | .initCheck | .initFlag | .initDone | .precheck | .txnBegin | .phaseOk _ | .dataHead => none
  | .txRead | .rxStore _ | .stopped | .finish => none

/-- The state in which a port operation is performed: a read has taken its answer. -/
def State.forPortOp (s : State) (i : Instr) : State := if i.isPortRead then s.answered else s

/-- R110: a frequency of the set goes on with its divisor; any other one completes with NOT_INITIALIZED and no event. -/
def State.initCheckStep (s : State) : State :=
  if s.cfg.supportedFreqs.contains s.freq then { s with seq := .initDiv (divisor s.cfg s.freq) }
  else s.complete .notInitialized

/-- R123: the prechecks, NOT_INITIALIZED first (R175). -/
def State.precheckStep (s : State) : State :=
  if !s.initialized then s.complete .notInitialized
  else if s.buf == 0 || s.len == 0 then s.complete .invalidBuffer
  else { s with seq := .txnBegin }

/-- R124: `dir <- dirv ; err <- none ; state <- Idle`. -/
def State.txnBeginStep (s : State) : State :=
  { s.setTxState .idle with dir := s.op == .recv, err := none, seq := .startCtl }

/-- R124, R127: the caller's `state <- S` after a phase has succeeded, and where it goes on. `idx` steps on with the loop, so after
the data phase of byte N-1 it is N and stays N through STOP and after completion: the spec gives `idx` during the data phases only
(R36, R128), and no rule reads it after them (DESIGN CHOICE, assumption 24). -/
def State.phaseOkStep (s : State) : Phase → State
  | .start => { s.setTxState .started with seq := .addrData }
  | .address => { s.setTxState .addressSent with idx := 0, seq := .dataHead }
  | .data _ => { s.setTxState .dataByte with idx := s.idx + 1, seq := .dataHead }

/-- R124: the loop over the data bytes. -/
def State.dataHeadStep (s : State) : State :=
  if s.idx < s.len then { s with seq := if s.dir then .rxCtl s.isLast else .txRead }
  else { s with seq := .stopCtl }

/-- BLOCK's BUFMEM accesses have a step only at a valid address (R52). -/
def State.atValid (s : State) (a : Word) (t : State) : Result :=
  if s.cfg.bufmemValid a then .next t else .fault (.bufmemStuck a)

/-- The internal step at a position that has no port operation (R124: each performs at most one event, a BUFMEM access). `later` are
the values HOST still writes at the current byte during the command (Lookahead.lean). -/
def State.internalStep (s : State) (later : List Byte) : Result :=
  match s.seq with
  | .initCheck => .next s.initCheckStep
  | .initFlag => .next { s.flagInitialized with seq := .initDone }
  | .initDone => .next (s.complete .ok)
  | .precheck => .next s.precheckStep
  | .txnBegin => .next s.txnBeginStep
  | .flag _ | .status _ => .next (s.raiseFail .timeout)
  | .phaseOk p => .next (s.phaseOkStep p)
  | .dataHead => .next s.dataHeadStep
  | .txRead =>
    let a := s.ea s.idx
    s.atValid a { s.memRead later a with seq := .txPut (s.blockSees later a) }
  | .rxStore d =>
    let a := s.ea s.idx
    s.atValid a { s.memWrite a d with seq := .phaseOk (.data s.isLast) }
  | .stopped => .next { s.setTxState .stopped with seq := .finish }
  | .finish =>
    .next (s.complete (match s.err with
      | none => .ok
      | some e => e))
  -- idle: BLOCK has no enabled step (R203)
  | .idle => .next s
  -- positions with a port operation (see portOp)
  | .initDiv _ | .initPresc | .startCtl | .addrData | .addrCtl | .txPut _ | .txCtl | .rxCtl _ | .rxRead | .stopCtl => .next s

/-- BLOCK is stuck: it stands before a BUFMEM access at an invalid address (R52, U2). -/
def State.stuckAt (s : State) : Option Word :=
  match s.seq with
  | .txRead | .rxStore _ => if s.cfg.bufmemValid (s.ea s.idx) then none else some (s.ea s.idx)
  | _ => none

end Sys2Proof.Machine
end

