-- ==== Sys2Proof/Machine/Turns.lean ====
section
/-! DEFINITION. What each agent's turn does: BLOCK's step at its position, HOST's access to HOSTREG (fetched as a code word and
decoded), HOST's POLL, HOST's accesses to BUFMEM, and the reset input; and how an instruction of each format is placed where the
next step fetches it. -/

namespace Sys2Proof.Machine

/-- BLOCK's turn (R15, R38): the port operation of its position, run by exec, or its internal step. -/
def State.blockTurn (s : State) (later : List Byte) : Result :=
  match s.portOp with
  | some i => exec i (s.forPortOp i)
  | none => s.internalStep later

/-- HOST's access to HOSTREG: an access of another width than 32 bits is ill formed (R56, R108); a 32-bit access is the instruction
its `HA` and `D` decode to. -/
def State.accessTurn (s : State) (a : HostAccess) : Result :=
  if a.width = 32 then
    match decode (.hostAccess a.ha a.d) with
    | .ok i => exec i s
    | .error e => .refused (.noSuchForm e)
  else .next (s.illformedAccess (a.ha.getLsbD 5))

/-- The 32-bit read of a register offset (R71). -/
def readAccess (off : BitVec 5) : HostAccess := { width := 32, ha := 0#1 ++ off, d := 0 }

/-- The 32-bit write of a register offset (R71). -/
def writeAccess (off : BitVec 5) (v : Word) : HostAccess := { width := 32, ha := 1#1 ++ off, d := v }

/-- HOST's POLL (R84): one read; unless it has the wanted value, BLOCK has a turn and HOST polls again. -/
def State.pollTurn (s : State) (off : BitVec 5) (mask value : Word) : Result :=
  match s.accessTurn (readAccess off) with
  | .next t =>
    if t.ret &&& mask = value then .next t
    else .next { t with inbox := .block :: .poll off mask value :: t.inbox }
  | .fault r => .fault r
  | .refused r => .refused r

/-- A turn of the input. BLOCK's turn passes when BLOCK is stuck (R52: it takes no further step, and HOST goes on). `later` are the
values the other agent still writes, during the command, at the byte of BUFMEM that this turn reads (Lookahead.lean). -/
def State.takeTurn (s : State) (later : List Byte) : Turn → Result
  | .block =>
    match s.stuckAt with
    | some _ => .next s
    | none => s.blockTurn later
  | .access a => s.accessTurn a
  | .poll off mask value => s.pollTurn off mask value
  | .bufRead a => .next (s.hostBufRead later a)
  | .bufWrite a b => .next (s.hostBufWrite a b)
  | .reset => .next s.resetBlock

/-- The position of a port operation. -/
def portPoint : Instr → Op × Bool × Seq
  | .pwDiv d => (.init, false, .initDiv d)
  | .pwPresc => (.init, false, .initPresc)
  | .pwData b => (.send, false, .txPut b)
  | .pwCtlStart => (.send, false, .startCtl)
  | .pwCtlCont => (.send, false, .addrCtl)
  | .pwCtlContAck => (.recv, true, .rxCtl false)
  | .pwCtlStop => (.send, false, .stopCtl)
  | .prFlag _ => (.send, false, .flag .start)
  | .prStatus _ => (.send, false, .status .start)
  | .prData _ => (.recv, true, .rxRead)
  | _ => (.none, false, .idle)

/-- The answers of PERIPH with that of a port read first. -/
def answersWith (i : Instr) (answers : List Byte) : List Byte :=
  match i with
  | .prFlag v | .prStatus v | .prData v => v :: answers
  | _ => answers

/-- Place a port operation where BLOCK's next step fetches it: BLOCK is busy at its position with a sample left to take, PERIPH
answers what the word says, and the next turn is BLOCK's (DESIGN CHOICE, assumption 11). -/
def State.withPortOp (s : State) (i : Instr) : State :=
  let (o, d, q) := portPoint i
  { s with
      busy := true, op := o, dir := d, seq := q, cnt := 0, timeout := 1
      answers := answersWith i s.answers
      inbox := .block :: s.inbox }

/-- Place a code word where the next step fetches it: a HOST access, or a command word written to CMD, is HOST's next turn. A port
event that is no form changes nothing. DESIGN CHOICE, assumption 10. -/
def State.withCodeWord (s : State) : CodeWord → State
  | .hostAccess ha d => { s with inbox := .access { width := 32, ha := ha, d := d } :: s.inbox }
  | .cmd w => { s with inbox := .access (writeAccess 0x00 w) :: s.inbox }
  | .portEvent pe =>
    match decodePortEvent pe with
    | .ok i => s.withPortOp i
    | .error _ => s

end Sys2Proof.Machine
end

