-- ==== Sys2Proof/Machine/Script.lean ====
section
/-! DEFINITION. The host-script notation (R84) and its pseudo-instructions (R85) as turns of HOST. -/

namespace Sys2Proof.Machine.Script

/-- `OFF(reg)` of R84, from the map of R21. -/
inductive Reg
  | cmd | status | freq | addr | buf | len | timeout
deriving DecidableEq, Repr

/-- The byte offset of a register (R21). -/
def Reg.off : Reg → BitVec 5
  | .cmd => 0x00
  | .status => 0x04
  | .freq => 0x08
  | .addr => 0x0C
  | .buf => 0x10
  | .len => 0x14
  | .timeout => 0x18

/-- `WR <reg>, <imm32>` (R84). -/
def wr (r : Reg) (v : Word) : Turn := .access (writeAccess r.off v)

/-- `RD <reg>` (R84). -/
def rd (r : Reg) : Turn := .access (readAccess r.off)

/-- `POLL <reg>, <mask>, <value>` (R84). -/
def poll (r : Reg) (mask value : Word) : Turn := .poll r.off mask value

/-- `idle` (R85). -/
def idle : List Turn := [poll .status 0x1 0x0]

/-- The wait for BUSY = 0 and DONE = 1 (R85). -/
def awaitDone : Turn := poll .status 0x5 0x4

/-- `settimeout t` (R85). -/
def settimeout (t : Word) : List Turn := idle ++ [wr .timeout t]

/-- `init f` (R85). -/
def init (f : Word) : List Turn := idle ++ [wr .freq f, wr .cmd 1, awaitDone]

/-- `send a, p, n` (R85). -/
def send (a p n : Word) : List Turn := idle ++ [wr .addr a, wr .buf p, wr .len n, wr .cmd 2, awaitDone]

/-- `recv a, p, n` (R85). -/
def recv (a p n : Word) : List Turn := idle ++ [wr .addr a, wr .buf p, wr .len n, wr .cmd 3, awaitDone]

end Sys2Proof.Machine.Script
end

