-- ==== Sys2Proof/Machine/Lookahead.lean ====
section
/-! DEFINITION. The racing values that are still to come (R62). A racing read may see the value that the other agent writes at that
byte LATER in the same command. Which values these are is fixed by the state: HOST's turns and PERIPH's answers stand in it as
inputs, and no byte of BUFMEM has a say in what BLOCK does next, only in what it sends. So they are found by running the machine on
to the end of the command (DEDUCED, assumption 8). -/

namespace Sys2Proof.Machine

/-- The state from which the first turn of the inbox is taken. -/
def State.popped (s : State) : State := { s with inbox := s.inbox.tail }

/-- One step. The model refuses a configuration that breaks R7. Otherwise the next turn of the input is taken; when none is left
BLOCK keeps taking steps (R200: it does while BUSY = 1), which are idle ones at the idle point (R203). `later` are the values the
other agent still writes, during the command, at the byte of BUFMEM that this step reads. -/
def State.stepWith (s : State) (later : List Byte) : Result :=
  if s.cfg.wf then
    match s.inbox with
    | [] => s.blockTurn later
    | t :: _ => s.popped.takeTurn later t
  else .refused .badConfiguration

/-- What the next turn, one of HOST, writes at `a`. -/
def State.hostWriteNow (s : State) (a : Word) : List Byte :=
  match s.inbox with
  | .bufWrite x b :: _ => if x = a then [b] else []
  | _ => []

/-- BLOCK moves next. -/
def State.blockIsNext (s : State) : Bool :=
  match s.inbox with
  | [] => true
  | .block :: _ => true
  | _ => false

/-- What the next step, one of BLOCK, writes at `a`. -/
def State.blockWriteNow (s : State) (a : Word) : List Byte :=
  match s.seq with
  | .rxStore d => if s.blockIsNext && s.ea s.idx == a && s.cfg.bufmemValid a then [d] else []
  | _ => []

/-- What `now` gives at every state from here to the end of the command. -/
def State.untilIdle (now : State → List Byte) : (fuel : Nat) → State → List Byte
  | 0, _ => []
  | n + 1, s =>
    if s.busy then
      now s ++ (match s.stepWith [] with
        | .next t => State.untilIdle now n t
        | .fault _ => []
        | .refused _ => [])
    else []

/-- More steps than a command that completes can take: HOST's turns, and below `2 ^ 70` steps of BLOCK, each with at most one poll
before it (R162: at most `4 + 4 T + N (3 + 2 T)` events). -/
def State.fuel (s : State) : Nat := s.inbox.length + 2 ^ 80

/-- The values the other agent still writes, during the command in progress, at the byte of BUFMEM that the next step reads. -/
def State.later (s : State) : List Byte :=
  match s.inbox with
  | .bufRead a :: _ => State.untilIdle (fun u => u.blockWriteNow a) s.fuel s
  | _ =>
    if s.seq = .txRead ∧ s.blockIsNext = true then State.untilIdle (fun u => u.hostWriteNow (s.ea s.idx)) s.fuel s else []

end Sys2Proof.Machine
end

