-- ==== Sys2Proof/Machine/Step.lean ====
section
/-! DEFINITION. One step of the machine, and the placing of an instruction where the next step fetches it. -/

namespace Sys2Proof.Machine

/-- One step: the next turn of the input, or BLOCK's when none is left (`State.stepWith`), with the racing values still to come. -/
def step (s : State) : Host.Outcome State Fault Refusal := s.stepWith s.later

/-- `s` with the instruction of a table word placed where the next step fetches it (see `State.withCodeWord`). -/
def State.withFetchWord (s : State) (nbits w : Nat) : State :=
  match CodeWord.ofTable nbits w with
  | some c => s.withCodeWord c
  | none => s

end Sys2Proof.Machine
end

