-- ==== Sys2Proof/Safety.lean ====
section
/-! DEFINITION. The terms in which claims are made: the invariant `Inv` of the machine, what a trace shows, the answers PERIPH will
give, and the pseudocode of R124, R140 and R144 to R149 as one function over those answers (`refTransaction`), against which the
step-by-step machine is held. -/

namespace Sys2Proof

/-! ### Configurations -/

/-- The control words and the prescaler code are those of the opcode table (R74, R75), as they are on this hardware. -/
def Params.tableWords (p : Params) : Bool :=
  p.prescCode == Config.prescCode && p.ctlStart == Config.ctlStart && p.ctlCont == Config.ctlCont
    && p.ctlContAck == Config.ctlContAck && p.ctlStop == Config.ctlStop

/-- STOP has a control word of its own, as it has on this hardware (R75). -/
def Params.stopIsOwn (p : Params) : Bool :=
  p.ctlStop != p.ctlStart && p.ctlStop != p.ctlCont && p.ctlStop != p.ctlContAck

end Sys2Proof

namespace Sys2Proof.Machine

/-! ### The invariant -/

/-- `op` fits the position `seq`: NONE at the idle point, INIT in R110, SEND or RECV in R123 and R124 (R36). -/
def opFits (q : Seq) (o : Op) : Bool :=
  match q with
  | .idle => o == .none
  | .initCheck | .initDiv _ | .initPresc | .initFlag | .initDone => o == .init
  | _ => o == .send || o == .recv

/-- The positions of R110 after the membership test has passed. -/
def inAcceptedInit : Seq → Bool
  | .initDiv _ | .initPresc | .initFlag | .initDone => true
  | _ => false

/-- The positions after the prechecks have passed (R123, R124). -/
def inTransaction : Seq → Bool
  | .idle | .initCheck | .initDiv _ | .initPresc | .initFlag | .initDone | .precheck => false
  | _ => true

/-- The positions of the body of R124 after `dir <- dirv`. -/
def inBody : Seq → Bool
  | .txnBegin => false
  | q => inTransaction q

/-- The positions of the STOP phase and after it, where an error may be recorded (R124, R176). -/
def inStop : Seq → Bool
  | .stopCtl | .stopped | .finish => true
  | _ => false

/-- The positions inside the data phase of one byte (R147, R148). -/
def inDataPhase : Seq → Bool
  | .txRead | .txPut _ | .txCtl | .rxCtl _ | .rxRead | .rxStore _ => true
  | .flag (.data _) | .status (.data _) | .phaseOk (.data _) => true
  | _ => false

/-- The direction a position belongs to, where it belongs to one (R124, R147, R148). -/
def dirFits (q : Seq) (d : Bool) : Bool :=
  match q with
  | .txRead | .txPut _ | .txCtl => !d
  | .rxCtl _ | .rxRead | .rxStore _ => d
  | _ => true

/-- `last` of the position is that of the current byte (R148). -/
def lastFits (q : Seq) (last : Bool) : Bool :=
  match q with
  | .rxCtl l | .flag (.data l) | .status (.data l) | .phaseOk (.data l) => l == last
  | _ => true

/-- STATUS.STATE fits the position (R120, R127). -/
def txStateFits (q : Seq) (t : TxState) : Bool :=
  match q with
  | .startCtl | .flag .start | .status .start | .phaseOk .start => t == .idle
  | .addrData | .addrCtl | .flag .address | .status .address | .phaseOk .address => t == .started
  | .dataHead => t == .addressSent || t == .dataByte
  | .stopCtl | .stopped => t != .stopped
  | .finish => t == .stopped
  | q => !inDataPhase q || t == .addressSent || t == .dataByte

/-- The positions of a wait step (R140). -/
def inWait : Seq → Bool
  | .flag _ | .status _ => true
  | _ => false

/-- The invariant of the machine: what the rules promise of every state a run reaches. -/
structure Inv (s : State) : Prop where
  /-- BUFMEM keeps its canonical form. -/
  memWf       : s.mem.wf s.cfg.addrW = true
  /-- BUF, LEN and TIMEOUT hold no more than their `ADDR_W`, `LEN_W` and `TIMEOUT_W` bits (R7, R26 to R28). -/
  widths      : s.buf.toNat < 2 ^ s.cfg.addrW ∧ s.len.toNat < 2 ^ s.cfg.lenW ∧ s.timeout.toNat < 2 ^ s.cfg.timeoutW
  /-- BUSY is 1 exactly while a command is in progress (R32, R36). -/
  busyIff     : s.busy = true ↔ s.seq ≠ .idle
  /-- `op` fits the position (R36). -/
  opOk        : opFits s.seq s.op = true
  /-- DONE is 0 while BUSY is 1 (R35). -/
  doneOk      : s.busy = true → s.done = false
  /-- INIT goes past its test only with a frequency of the set (R110). -/
  initOk      : inAcceptedInit s.seq = true → s.cfg.supportedFreqs.contains s.freq = true
  /-- The divisor to be written is that of FREQ (R110, R111). -/
  divisorOk   : ∀ d, s.seq = .initDiv d → d = divisor s.cfg s.freq
  /-- A transaction runs only initialised, with a buffer and a length (R123). -/
  prechecked  : inTransaction s.seq = true → s.initialized = true ∧ s.buf ≠ 0 ∧ s.len ≠ 0
  /-- `dir` is that of the command (R124). -/
  dirOk       : inBody s.seq = true → s.dir = (s.op == .recv)
  /-- The position belongs to the direction (R124). -/
  dirPosition : dirFits s.seq s.dir = true
  /-- `cnt` never exceeds TIMEOUT (R37, R143). -/
  cntOk       : inWait s.seq = true → s.cnt ≤ s.timeout
  /-- A data phase is that of a byte of the buffer (R124). -/
  idxOk       : inDataPhase s.seq = true → s.idx < s.len
  /-- The loop of R124 does not run past N. -/
  idxHead     : s.seq = .dataHead → s.idx ≤ s.len
  /-- The last byte, and only it, is the last (R148). -/
  lastOk      : lastFits s.seq s.isLast = true
  /-- STATE follows the transaction (R120, R127). -/
  txStateOk   : txStateFits s.seq s.txState = true
  /-- TIMEOUT is the only error a transaction records (R129). -/
  errOk       : s.err = none ∨ s.err = some .timeout
  /-- An error is recorded only from the failure on (R176, R177). -/
  errStop     : s.busy = true → inStop s.seq = false → s.err = none
  /-- Without an error the STOP phase is reached with all bytes moved (R124); that `idx` is N there is the model's (DESIGN CHOICE,
  assumption 24). -/
  idxStop     : inStop s.seq = true → s.err = none → s.idx = s.len
  /-- No race outlives its command (R61, R62). -/
  raceFree    : s.busy = false → s.hostRaced = [] ∧ s.blockRaced = []

/-! ### What a trace shows -/

/-- The event is the STOP control word, `PortWrite(CR, CTL_STOP)`. -/
def Event.isStop (p : Params) (e : Event) : Bool := e == .portWrite .cr p.ctlStop

/-- How many STOP control words a trace has. -/
def stopCount (p : Params) (t : List Event) : Nat := t.countP (Event.isStop p)

/-- The value last written to a PORT register in a trace (R203: PERIPH's registers beyond it are not spoken of; DEDUCED,
assumption 18). -/
def lastWritten (t : List Event) (r : PortReg) : Option Byte :=
  t.foldl (fun acc e => match e with
    | .portWrite r' v => if r' = r then some v else acc
    | _ => acc) none

/-- The event shapes BLOCK produces on PORT (R74). -/
def Event.isPortShape (p : Params) : Event → Bool
  | .portWrite .divr _ => true
  | .portWrite .psr v => v == p.prescCode
  | .portWrite .dr _ => true
  | .portWrite .cr v => v == p.ctlStart || v == p.ctlCont || v == p.ctlContAck || v == p.ctlStop
  | .portRead .divr _ => false
  | .portRead _ _ => true
  | .memRead _ _ => true
  | .memWrite _ _ => true

/-- What a step adds to the trace. -/
def newEvents (s t : State) : List Event := t.trace.drop s.trace.length

/-- The argument registers of R79 are the same. -/
def sameArguments (s t : State) : Prop :=
  t.freq = s.freq ∧ t.addr = s.addr ∧ t.buf = s.buf ∧ t.len = s.len ∧ t.timeout = s.timeout

/-- Every register HOST can read is the same (R21): the arguments and the fields of STATUS. -/
def sameHostRegs (s t : State) : Prop :=
  sameArguments s t ∧ t.busy = s.busy ∧ t.initialized = s.initialized ∧ t.done = s.done ∧ t.result = s.result
    ∧ t.txState = s.txState

/-- The transitions of STATE that R120 allows a step of BLOCK. -/
def txMove : TxState → TxState → Bool
  | _, .idle => true
  | .idle, .started => true
  | .started, .addressSent => true
  | .addressSent, .dataByte => true
  | .dataByte, .dataByte => true
  | t, .stopped => t != .stopped
  | _, _ => false

/-! ### The answers of PERIPH, and BUFMEM -/

/-- The answer PERIPH gives to the `k`-th read from now on, while nothing else draws a free value. -/
def State.answerAt (s : State) (k : Nat) : Byte :=
  match s.answers[k]? with
  | some v => v
  | none => Config.periphDraw (s.draws + (k - s.answers.length))

/-- Every byte of the buffer lies in real memory (R162: "provided every MemRead/MemWrite address is valid"). -/
def State.bufferValid (s : State) : Prop :=
  ∀ i : Word, i < s.len → s.cfg.bufmemValid (s.ea i) = true

/-- The condition of R123 under which SEND and RECV go to the bus. -/
def State.prechecksPass (s : State) : Bool :=
  s.initialized && s.buf != 0 && s.len != 0

/-! ### The pseudocode of R124, R140, R144 to R149 over a sequence of answers -/

/-- One wait step of R140: sample up to `budget` times, from answer `k` on, until a sample passes. It gives whether one did, and the
number of the next answer. -/
def refSample (ans : Nat → Byte) (test : Byte → Bool) : (budget k : Nat) → Bool × Nat
  | 0, k => (false, k)
  | n + 1, k => if test (ans k) then (true, k + 1) else refSample ans test n (k + 1)

/-- The events of the samples `k`, … `k' - 1` of a register. -/
def refSamples (r : PortReg) (ans : Nat → Byte) (k k' : Nat) : List Event :=
  (List.range' k (k' - k)).map fun j => .portRead r (ans j)

/-- `Wait(e)` (R140): whether it succeeds, its events, the next answer. -/
def refWait (p : Params) (budget : Nat) (ans : Nat → Byte) (e : Byte) (k : Nat) : Bool × List Event × Nat :=
  let a := refSample ans completionFlag budget k
  let b := refSample ans (fun v => matchesCode p v e) budget a.2
  if a.1 then (b.1, refSamples .cr ans k a.2 ++ refSamples .psr ans a.2 b.2, b.2)
  else (false, refSamples .cr ans k a.2, a.2)

/-- The operands of a transaction (R79). -/
structure TxnOperands where
  cfg    : Params
  addr   : BusAddr
  buf    : Word
  budget : Nat
  dir    : Bool

/-- What a part of a transaction gives: success, its events, the next answer, BUFMEM after it. -/
structure TxnResult where
  ok     : Bool
  events : List Event
  next   : Nat
  mem    : Memory

/-- The data phases of R124 for the `n` bytes from byte `idx` on (R147, R148). -/
def refBytes (o : TxnOperands) (ans : Nat → Byte) : (n idx k : Nat) → Memory → TxnResult
  | 0, _, k, m => { ok := true, events := [], next := k, mem := m }
  | n + 1, idx, k, m =>
    let a := keepBits o.cfg.addrW (o.buf + BitVec.ofNat 32 idx)
    let last := n == 0
    let w := refWait o.cfg o.budget ans (expected o.cfg (.data last) o.dir) k
    if o.dir then
      let ctl := .portWrite .cr (if last then o.cfg.ctlCont else o.cfg.ctlContAck) :: w.2.1
      if w.1 then
        let d := ans w.2.2
        let rest := refBytes o ans n (idx + 1) (w.2.2 + 1) (m.setByte a d)
        { rest with events := ctl ++ [.portRead .dr d, .memWrite a d] ++ rest.events }
      else { ok := false, events := ctl, next := w.2.2, mem := m }
    else
      let b := m.byteAt a
      let put := .memRead a b :: .portWrite .dr b :: .portWrite .cr o.cfg.ctlCont :: w.2.1
      if w.1 then
        let rest := refBytes o ans n (idx + 1) w.2.2 m
        { rest with events := put ++ rest.events }
      else { ok := false, events := put, next := w.2.2, mem := m }

/-- The ADDRESS phase and what follows it (R124, R145). -/
def refFromAddress (o : TxnOperands) (ans : Nat → Byte) (n k : Nat) (m : Memory) : TxnResult :=
  let w := refWait o.cfg o.budget ans (expected o.cfg .address o.dir) k
  let put := .portWrite .dr (slaByte o.addr o.dir) :: .portWrite .cr o.cfg.ctlCont :: w.2.1
  if w.1 then
    let rest := refBytes o ans n 0 w.2.2 m
    { rest with events := put ++ rest.events }
  else { ok := false, events := put, next := w.2.2, mem := m }

/-- `Transaction(dirv)` of R124 after its prechecks, for `n` bytes: START, ADDRESS, the data phases, and STOP whatever happened. -/
def refTransaction (o : TxnOperands) (ans : Nat → Byte) (n : Nat) (m : Memory) : TxnResult :=
  let w := refWait o.cfg o.budget ans (expected o.cfg .start o.dir) 0
  let start := .portWrite .cr o.cfg.ctlStart :: w.2.1
  let r : TxnResult :=
    if w.1 then
      let rest := refFromAddress o ans n w.2.2 m
      { rest with events := start ++ rest.events }
    else { ok := false, events := start, next := w.2.2, mem := m }
  { r with events := r.events ++ [.portWrite .cr o.cfg.ctlStop] }

/-- The operands the registers hold for a transaction in a direction (R79). -/
def State.operands (s : State) (dir : Bool) : TxnOperands :=
  { cfg := s.cfg, addr := s.addr, buf := s.buf, budget := s.timeout.toNat, dir := dir }

/-- The result code of a transaction (R129). -/
def TxnResult.code (r : TxnResult) : ResultCode := if r.ok then .ok else .timeout

/-! ### Commands -/

/-- The first `n` states of the run from `s` are all busy: no command has ended before step `n`. -/
def busyUntil (s : State) (n : Nat) : Prop := ∀ m < n, ∀ u, Host.Core.run core m s = .next u → u.busy = true

/-- The bound of R162 on the events of a command, from the state it is accepted in. -/
def State.eventBound (s : State) (o : Op) : Nat :=
  match o with
  | .none => 0
  | .init => 2
  | .send | .recv =>
    if s.prechecksPass then 4 + 4 * s.timeout.toNat + s.len.toNat * (3 + 2 * s.timeout.toNat) else 0

end Sys2Proof.Machine
end

