-- ==== Sys2Proof/Certificates/Slice0/Obligations.lean ====
section
/-! DEFINITION. The statements for the provers. Each formalises numbered rules of spec/, named in its docstring. -/

open Sys2Proof Sys2Proof.Machine

/-! ### Encodings -/

/-- R71 to R75: no bit of an encoding is dropped. -/
def Obligations.DecodeEncodeRoundTrip : Prop :=
  ∀ i : Instr, i.wf = true → decode (encode i) = .ok i

/-- R71 to R75: every word that decodes is the word of the instruction it decodes to. That a read's word carries no
data is the model's choice (assumption 20). -/
def Obligations.EncodeDecodeRoundTrip : Prop :=
  ∀ (w : CodeWord) (i : Instr), w.wf = true → decode w = .ok i → i.wf = true ∧ encode i = w

/-- R74: the port events BLOCK produces, and no other, are instructions. -/
def Obligations.PortEventFormsAreThoseOfR74 : Prop :=
  ∀ (write : Bool) (reg : BitVec 3) (val : Byte),
    (∃ i, decode (.portEvent (portWord write reg val)) = .ok i) ↔
      (write = true ∧ (reg = 0 ∨ (reg = 1 ∧ val = 0x00) ∨ reg = 2 ∨
        (reg = 3 ∧ (val = 0xA4 ∨ val = 0x84 ∨ val = 0xC4 ∨ val = 0x94)))) ∨
      (write = false ∧ (reg = 1 ∨ reg = 2 ∨ reg = 3))

/-- R71, R73, R74, R84: words written out from the encodings. -/
def Obligations.SpecWordsDecode : Prop :=
  decode (.hostAccess 0b000100 0) = .ok .rdStatus ∧
  decode (.hostAccess 0b101000 0x00061A80) = .ok (.wrFreq 400000) ∧
  decode (.hostAccess 0b101010 0xFFFF) = .ok (.illformedOff2 true 2 0xFFFF) ∧
  decode (.cmd 0xFFFFFFF9) = .ok (.init 0x1FFFFFFF) ∧
  decode (.cmd 0x00000003) = .ok (.recv 0) ∧
  decode (.portEvent 0x848) = .ok (.pwDiv 0x48) ∧
  decode (.portEvent 0xBA4) = .ok .pwCtlStart ∧
  decode (.portEvent 0x119) = .ok (.prStatus 0x19)

/-- R72, R73: CMD[31:3] has no effect on the execution of a command word. -/
def Obligations.CommandUpperBitsIgnored : Prop :=
  ∀ (s : State) (v w : Word), v.extractLsb' 0 3 = w.extractLsb' 0 3 → exec (.wrCmd v) s = exec (.wrCmd w) s

/-! ### Host accesses -/

/-- R92, R95, R97, R99, R101, R103, R105, R109: what each read returns, with BUSY = 0 or 1, and that it changes nothing else. -/
def Obligations.HostReadsReturnTheirRegister : Prop :=
  ∀ s : State,
    exec .rdCmd s = .next { s with ret := 0 } ∧
    exec .rdFreq s = .next { s with ret := s.freq } ∧
    exec .rdAddr s = .next { s with ret := BitVec.ofNat 32 s.addr.toNat } ∧
    exec .rdBuf s = .next { s with ret := BitVec.ofNat 32 (s.buf.toNat % 2 ^ s.cfg.addrW) } ∧
    exec .rdLen s = .next { s with ret := BitVec.ofNat 32 (s.len.toNat % 2 ^ s.cfg.lenW) } ∧
    exec .rdTimeout s = .next { s with ret := BitVec.ofNat 32 (s.timeout.toNat % 2 ^ s.cfg.timeoutW) } ∧
    exec .rdRsvd1C s = .next { s with ret := 0 }

/-- R93: RD STATUS returns `STATE << 8 | RESULT << 4 | DONE << 2 | INIT << 1 | BUSY`, and changes nothing; STATE and RESULT have the
codes of the tables of R33 and R34. -/
def Obligations.StatusReadsAsItsFields : Prop :=
  ∀ s : State, ∃ w : Word, exec .rdStatus s = .next { s with ret := w } ∧
    w.toNat =
      (match s.txState with
        | .idle => 0
        | .started => 1
        | .addressSent => 2
        | .dataByte => 3
        | .stopped => 4) * 256 +
      (match s.result with
        | .ok => 0
        | .notInitialized => 1
        | .timeout => 2
        | .invalidBuffer => 3) * 16 +
      s.done.toNat * 4 + s.initialized.toNat * 2 + s.busy.toNat

/-- R96, R98, R100, R102, R104: each argument register takes the bits it keeps of the word written, unless BUSY = 1. -/
def Obligations.HostWritesStoreWhenIdle : Prop :=
  ∀ (s : State) (v : Word),
    exec (.wrFreq v) s = .next (if s.busy then s else { s with freq := v }) ∧
    exec (.wrAddr v) s = .next (if s.busy then s else { s with addr := BitVec.ofNat 7 v.toNat }) ∧
    exec (.wrBuf v) s = .next (if s.busy then s else { s with buf := BitVec.ofNat 32 (v.toNat % 2 ^ s.cfg.addrW) }) ∧
    exec (.wrLen v) s = .next (if s.busy then s else { s with len := BitVec.ofNat 32 (v.toNat % 2 ^ s.cfg.lenW) }) ∧
    exec (.wrTimeout v) s = .next (if s.busy then s else { s with timeout := BitVec.ofNat 32 (v.toNat % 2 ^ s.cfg.timeoutW) })

/-- R94, R106: the writes without effect. -/
def Obligations.ReadOnlyWritesChangeNothing : Prop :=
  ∀ (s : State) (v : Word), exec (.wrStatus v) s = .next s ∧ exec (.wrRsvd1C v) s = .next s

/-- R90: while BUSY = 1 every write to HOSTREG is ignored, a command and a misaligned write too; reads are never gated. -/
def Obligations.WritesWhileBusyAreIgnored : Prop :=
  ∀ (s : State) (v : Word) (sel : BitVec 3), s.busy = true →
    (exec (.wrCmd v) s = .next s ∧ exec (.wrStatus v) s = .next s ∧ exec (.wrFreq v) s = .next s ∧
      exec (.wrAddr v) s = .next s ∧ exec (.wrBuf v) s = .next s ∧ exec (.wrLen v) s = .next s ∧
      exec (.wrTimeout v) s = .next s ∧ exec (.wrRsvd1C v) s = .next s ∧ exec (.illformedOff1 true sel v) s = .next s ∧
      exec (.illformedOff2 true sel v) s = .next s ∧ exec (.illformedOff3 true sel v) s = .next s) ∧
    (exec .rdCmd s = .next { s with ret := 0 } ∧ exec .rdStatus s = .next { s with ret := s.statusWord } ∧
      exec .rdFreq s = .next { s with ret := s.freq } ∧ exec .rdAddr s = .next { s with ret := BitVec.ofNat 32 s.addr.toNat } ∧
      exec .rdBuf s = .next { s with ret := BitVec.ofNat 32 (s.buf.toNat % 2 ^ s.cfg.addrW) } ∧
      exec .rdLen s = .next { s with ret := BitVec.ofNat 32 (s.len.toNat % 2 ^ s.cfg.lenW) } ∧
      exec .rdTimeout s = .next { s with ret := BitVec.ofNat 32 (s.timeout.toNat % 2 ^ s.cfg.timeoutW) } ∧ exec .rdRsvd1C s = .next { s with ret := 0 })

/-- R108: an ill-formed access by its offset. -/
def Obligations.MisalignedAccessesHaveNoEffect : Prop :=
  ∀ (s : State) (sel : BitVec 3) (v : Word),
    exec (.illformedOff1 true sel v) s = .next s ∧ exec (.illformedOff1 false sel v) s = .next { s with ret := 0 } ∧
    exec (.illformedOff2 true sel v) s = .next s ∧ exec (.illformedOff2 false sel v) s = .next { s with ret := 0 } ∧
    exec (.illformedOff3 true sel v) s = .next s ∧ exec (.illformedOff3 false sel v) s = .next { s with ret := 0 }

/-- R108: a turn with an ill-formed access, one of another width than 32 bits or at an offset with OFF[1:0] ≠ 0: a write has no
effect, a read returns 0. -/
def Obligations.IllFormedAccessesHaveNoEffect : Prop :=
  ∀ (s : State) (a : HostAccess) (rest : List Turn), s.cfg.wf = true → s.inbox = .access a :: rest →
    (a.width ≠ 32 ∨ a.ha.toNat % 4 ≠ 0) →
    step s = .next (if a.ha.getLsbD 5 then { s with inbox := rest } else { s with inbox := rest, ret := 0 })

/-- R91, R80: what a write to CMD does in its step, for every word. A reserved opcode, and any word while BUSY = 1, changes nothing. -/
def Obligations.CommandWriteAccepts : Prop :=
  ∀ (s : State) (v : Word),
    (s.busy = true → exec (.wrCmd v) s = .next s) ∧
    (s.busy = false →
      (v.toNat % 8 = 1 → exec (.wrCmd v) s =
        .next { s with busy := true, done := false, op := .init, err := none, idx := 0, cnt := 0, seq := .initCheck }) ∧
      (v.toNat % 8 = 2 → exec (.wrCmd v) s =
        .next { s with busy := true, done := false, op := .send, err := none, idx := 0, cnt := 0, seq := .precheck }) ∧
      (v.toNat % 8 = 3 → exec (.wrCmd v) s =
        .next { s with busy := true, done := false, op := .recv, err := none, idx := 0, cnt := 0, seq := .precheck }) ∧
      (v.toNat % 8 = 0 ∨ 4 ≤ v.toNat % 8 → exec (.wrCmd v) s = .next s))

/-- R65, R73, R91: a word written to CMD does what its own instruction does, in every state. -/
def Obligations.CommandWriteIsItsCommand : Prop :=
  ∀ (s : State) (v : Word), ∃ i, decode (.cmd v) = .ok i ∧ exec (.wrCmd v) s = exec i s

/-- R91, R80, R90: the five command words as instructions, the ignored bits at any value. -/
def Obligations.CommandsAreAccepted : Prop :=
  ∀ (s : State) (hi : BitVec 29) (low : BitVec 2),
    (s.busy = false →
      exec (.init hi) s =
        .next { s with busy := true, done := false, op := .init, err := none, idx := 0, cnt := 0, seq := .initCheck } ∧
      exec (.send hi) s =
        .next { s with busy := true, done := false, op := .send, err := none, idx := 0, cnt := 0, seq := .precheck } ∧
      exec (.recv hi) s =
        .next { s with busy := true, done := false, op := .recv, err := none, idx := 0, cnt := 0, seq := .precheck }) ∧
    (s.busy = true → exec (.init hi) s = .next s ∧ exec (.send hi) s = .next s ∧ exec (.recv hi) s = .next s) ∧
    exec (.reservedCmd0 hi) s = .next s ∧ exec (.reservedCmd4to7 low hi) s = .next s

/-! ### Port operations -/

/-- R150 to R156: each port write performs its one event, and changes no HOSTREG field, no byte of BUFMEM and nothing else but the
position and the sample counter. -/
def Obligations.PortWritesPerformTheirEvent : Prop :=
  ∀ (s : State) (v : Byte),
    (∃ t, exec (.pwDiv v) s = .next t ∧ t = { s with trace := s.trace ++ [.portWrite .divr v], seq := t.seq }) ∧
    (∃ t, exec .pwPresc s = .next t ∧ t = { s with trace := s.trace ++ [.portWrite .psr s.cfg.prescCode], seq := t.seq }) ∧
    (∃ t, exec (.pwData v) s = .next t ∧ t = { s with trace := s.trace ++ [.portWrite .dr v], seq := t.seq }) ∧
    (∃ t, exec .pwCtlStart s = .next t ∧
      t = { s with trace := s.trace ++ [.portWrite .cr s.cfg.ctlStart], seq := t.seq, cnt := t.cnt }) ∧
    (∃ t, exec .pwCtlCont s = .next t ∧
      t = { s with trace := s.trace ++ [.portWrite .cr s.cfg.ctlCont], seq := t.seq, cnt := t.cnt }) ∧
    (∃ t, exec .pwCtlContAck s = .next t ∧
      t = { s with trace := s.trace ++ [.portWrite .cr s.cfg.ctlContAck], seq := t.seq, cnt := t.cnt }) ∧
    (∃ t, exec .pwCtlStop s = .next t ∧ t = { s with trace := s.trace ++ [.portWrite .cr s.cfg.ctlStop], seq := t.seq })

/-- R157 to R159: each port read performs its one event with the answer it got, and changes no HOSTREG field, no byte of BUFMEM and
nothing else but the position and the sample counter. -/
def Obligations.PortReadsPerformTheirEvent : Prop :=
  ∀ (s : State) (v : Byte),
    (∃ t, exec (.prFlag v) s = .next t ∧
      t = { s with trace := s.trace ++ [.portRead .cr v], seq := t.seq, cnt := t.cnt }) ∧
    (∃ t, exec (.prStatus v) s = .next t ∧
      t = { s with trace := s.trace ++ [.portRead .psr v], seq := t.seq, cnt := t.cnt }) ∧
    (∃ t, exec (.prData v) s = .next t ∧ t = { s with trace := s.trace ++ [.portRead .dr v], seq := t.seq })

/-- R74, R150 to R159: on a block with the control words of the opcode table, each port operation runs and performs exactly one event,
whose event word is the word that stands for the operation. -/
def Obligations.PortOperationsPerformTheirWord : Prop :=
  ∀ (s : State) (i : Instr) (w : BitVec 12), s.cfg.tableWords = true → encode i = .portEvent w →
    ∃ t e, exec i s = .next t ∧ t.trace = s.trace ++ [e] ∧ e.portWord = some w

/-- R110, R144, R145, R147, R148, R149: where each port write leads from its own position of the pseudocode. The positions are the model's
(assumption 23). -/
def Obligations.PortWritesMoveOn : Prop :=
  ∀ (s : State) (v w : Byte) (e : List Event), e = s.trace →
    (s.seq = .initDiv w → exec (.pwDiv v) s = .next { s with trace := e ++ [.portWrite .divr v], seq := .initPresc }) ∧
    (s.seq = .initPresc → exec .pwPresc s = .next { s with trace := e ++ [.portWrite .psr s.cfg.prescCode], seq := .initFlag }) ∧
    (s.seq = .addrData → exec (.pwData v) s = .next { s with trace := e ++ [.portWrite .dr v], seq := .addrCtl }) ∧
    (s.seq = .txPut w → exec (.pwData v) s = .next { s with trace := e ++ [.portWrite .dr v], seq := .txCtl }) ∧
    (s.seq = .startCtl → exec .pwCtlStart s =
      .next { s with trace := e ++ [.portWrite .cr s.cfg.ctlStart], cnt := 0, seq := .flag .start }) ∧
    (s.seq = .addrCtl → exec .pwCtlCont s =
      .next { s with trace := e ++ [.portWrite .cr s.cfg.ctlCont], cnt := 0, seq := .flag .address }) ∧
    (s.seq = .txCtl → exec .pwCtlCont s =
      .next { s with trace := e ++ [.portWrite .cr s.cfg.ctlCont], cnt := 0, seq := .flag (.data s.isLast) }) ∧
    (s.seq = .rxCtl true → exec .pwCtlCont s =
      .next { s with trace := e ++ [.portWrite .cr s.cfg.ctlCont], cnt := 0, seq := .flag (.data true) }) ∧
    (s.seq = .rxCtl false → exec .pwCtlContAck s =
      .next { s with trace := e ++ [.portWrite .cr s.cfg.ctlContAck], cnt := 0, seq := .flag (.data false) }) ∧
    (s.seq = .stopCtl → exec .pwCtlStop s = .next { s with trace := e ++ [.portWrite .cr s.cfg.ctlStop], seq := .stopped })

/-- R140, R141, R76: one sample of step (a). Only bit 7 counts; the first set flag begins step (b) with a full budget. A sample 0x84 is
a set flag, against the example of R157 (assumption 25). -/
def Obligations.FlagSampleOfStepA : Prop :=
  ∀ (s : State) (p : Phase) (v : Byte), s.seq = .flag p →
    exec (.prFlag v) s = .next (
      if 128 ≤ v.toNat then { s with trace := s.trace ++ [.portRead .cr v], cnt := 0, seq := .status p }
      else { s with trace := s.trace ++ [.portRead .cr v], cnt := s.cnt + 1 })

/-- R140, R142, R146: one sample of step (b). A sample that matches under the mask ends the wait; any other one is counted. -/
def Obligations.StatusSampleOfStepB : Prop :=
  ∀ (s : State) (p : Phase) (v : Byte), s.seq = .status p →
    exec (.prStatus v) s = .next (
      if v &&& s.cfg.statusMask = expected s.cfg p s.dir then
        { s with trace := s.trace ++ [.portRead .psr v], cnt := s.cnt + 1,
                 seq := if s.dir = true ∧ (p = .data true ∨ p = .data false) then .rxRead else .phaseOk p }
      else { s with trace := s.trace ++ [.portRead .psr v], cnt := s.cnt + 1 })

/-- R148, R159: the byte read from DR is the one stored next. -/
def Obligations.DataReadCarriesItsByte : Prop :=
  ∀ (s : State) (v : Byte), s.seq = .rxRead →
    exec (.prData v) s = .next { s with trace := s.trace ++ [.portRead .dr v], seq := .rxStore v }

/-- R146, R77, R75, R7: the code table and the mask of this hardware, its control words and prescaler code, and its widths. -/
def Obligations.ExpectedCodesOfThisHardware : Prop :=
  let c := Config.hardware
  (∀ d, expected c .start d = 0x08) ∧ expected c .address false = 0x18 ∧ expected c .address true = 0x40 ∧
  (∀ l, expected c (.data l) false = 0x28) ∧ expected c (.data false) true = 0x50 ∧ expected c (.data true) true = 0x58 ∧
  (∀ s e, matchesCode c s e = decide (s &&& 0xF8 = e)) ∧
  c.ctlStart = 0xA4 ∧ c.ctlCont = 0x84 ∧ c.ctlContAck = 0xC4 ∧ c.ctlStop = 0x94 ∧ c.prescCode = 0x00 ∧ c.prescaler = 1 ∧
  c.divW = 8 ∧ c.timeoutW = 32 ∧ c.addrW = 16 ∧ c.lenW = 16

/-- R78: the address byte is the address shifted up by one, with the direction in bit 0. -/
def Obligations.AddressByteIsShiftedAddress : Prop :=
  ∀ (a : BusAddr) (d : Bool), (slaByte a d).toNat = 2 * a.toNat + d.toNat

/-- R58, R128, R55: buffer addresses wrap modulo 2 ^ ADDR_W, which is 2 ^ 16 on this hardware. -/
def Obligations.BufferAddressWraps : Prop :=
  Config.hardware.addrW = 16 ∧
  ∀ (s : State) (i : Word), s.cfg.wf = true → (s.ea i).toNat = (s.buf.toNat + i.toNat) % 2 ^ s.cfg.addrW

/-! ### INIT -/

/-- R111: the divisor of a nonzero frequency, in Nat: unsigned truncating division, 32-bit wrap where the quotient is below 16,
division by 2 * PRESCALER, the low DIV_W bits, of which the port moves 8; and its values for the six default frequencies. The clause
before them is the case of R113, `f` above the clock. -/
def Obligations.DivisorFormula : Prop :=
  (∀ (p : Params) (f : Word), f ≠ 0 →
    let q := p.coreClockHz.toNat / f.toNat
    (16 ≤ q → (divisor p f).toNat = (q - 16) / (2 * p.prescaler.toNat) % 2 ^ p.divW % 256) ∧
    (q < 16 → (divisor p f).toNat = (4294967296 + q - 16) / (2 * p.prescaler.toNat) % 2 ^ p.divW % 256) ∧
    (p.prescaler = 1 → p.divW = 8 → p.coreClockHz.toNat < f.toNat → divisor p f = 0xF8)) ∧
  (let p := Config.hardware;
    divisor p 100000 = 72 ∧ divisor p 400000 = 12 ∧ divisor p 1000000 = 0 ∧ divisor p 1700000 = 252 ∧
    divisor p 3400000 = 250 ∧ divisor p 5000000 = 249)

/-- R110, R114, R115: an accepted INIT performs exactly its two events, sets INIT and completes with OK. The number of steps is the model's
(assumption 12). -/
def Obligations.InitAcceptedRuns : Prop :=
  ∀ (s s' : State) (hi : BitVec 29), s.cfg.wf = true → s.busy = false → s.inbox = [] →
    s.cfg.supportedFreqs.contains s.freq = true → exec (.init hi) s = .next s' →
    Host.Core.run core 5 s' = .next { s with
      trace := s.trace ++ [.portWrite .divr (divisor s.cfg s.freq), .portWrite .psr s.cfg.prescCode]
      initialized := true, result := .ok, done := true, busy := false, op := .none, seq := .idle
      err := none, idx := 0, cnt := 0, hostRaced := [], blockRaced := [] }

/-- R110, R112: a rejected INIT performs no event and changes nothing but RESULT and DONE (and the hidden state it started with). The number
of steps is the model's (assumption 12). -/
def Obligations.InitRejectedChangesNothing : Prop :=
  ∀ (s s' : State) (hi : BitVec 29), s.cfg.wf = true → s.busy = false → s.inbox = [] →
    s.cfg.supportedFreqs.contains s.freq = false → exec (.init hi) s = .next s' →
    Host.Core.run core 1 s' = .next { s with
      result := .notInitialized, done := true, op := .none, seq := .idle
      err := none, idx := 0, cnt := 0, busy := false, hostRaced := [], blockRaced := [] }

/-- R30: INIT is 0 after reset, is set only by an INIT whose frequency is in the set, and is cleared only by reset. -/
def Obligations.OnlyInitSetsAndOnlyResetClearsInitialized : Prop :=
  State.reset.initialized = false ∧
  ∀ s t : State, Inv s → step s = .next t →
    (s.initialized = false → t.initialized = true → s.op = .init ∧ s.cfg.supportedFreqs.contains s.freq = true) ∧
    (s.initialized = true → t.initialized = false → s.inbox.head? = some .reset)

/-! ### SEND and RECV -/

/-- R123, R171, R172, R175: the prechecks, NOT_INITIALIZED first, with no event and no change of STATE. That the test and its
completion are one step, and that passing is a step of its own, is the model's (assumption 12). -/
def Obligations.PrecheckFailuresTouchNothing : Prop :=
  ∀ s : State, s.cfg.wf = true → s.inbox = [] → s.seq = .precheck →
    (s.initialized = false → step s = .next { s with
      result := .notInitialized, done := true, busy := false, op := .none, seq := .idle, hostRaced := [], blockRaced := [] }) ∧
    (s.initialized = true → (s.buf = 0 ∨ s.len = 0) → step s = .next { s with
      result := .invalidBuffer, done := true, busy := false, op := .none, seq := .idle, hostRaced := [], blockRaced := [] }) ∧
    (s.initialized = true → s.buf ≠ 0 → s.len ≠ 0 → step s = .next { s with seq := .txnBegin })

/-- R176, R143: a wait step whose budget is spent enters the failure: the first error is kept, nothing else is saved, no event
happens, and control goes to the STOP phase. -/
def Obligations.SpentBudgetEntersTheFailure : Prop :=
  ∀ (s : State) (p : Phase), s.cfg.wf = true → s.inbox = [] → (s.seq = .flag p ∨ s.seq = .status p) → s.timeout ≤ s.cnt →
    step s = .next { s with seq := .stopCtl, err := some (s.err.getD .timeout) }

/-- R107, R177: the end of a command: RESULT, DONE and BUSY change in one step with no event, and INIT, STATE and the argument
registers stay. -/
def Obligations.CompletionIsOneStep : Prop :=
  ∀ s : State, s.cfg.wf = true → s.inbox = [] → s.seq = .finish →
    step s = .next { s with
      result := s.err.getD .ok, done := true, busy := false, op := .none, seq := .idle, hostRaced := [], blockRaced := [] }

/-- R121, R122, R124, R127, R129, R140, R144, R145, R147, R148, R149: from its acceptance on, a SEND or a RECV that passes the
prechecks performs exactly the events of the pseudocode, for every sequence of answers, and ends with its result and its BUFMEM.
HOST's turns in between are any but a reset and a write to the buffer: reads, polls, writes that are ignored, accesses to BUFMEM
elsewhere (R202). Nothing is said of what those return. -/
def Obligations.TransactionFollowsThePseudocode : Prop :=
  ∀ (s s' : State) (hi : BitVec 29) (d : Bool), Inv s → s.cfg.wf = true → s.busy = false →
    (∀ u ∈ s.inbox, u ≠ .reset ∧ ∀ b, ∀ i : Word, i < s.len → u ≠ .bufWrite (s.ea i) b) →
    s.prechecksPass = true → s.bufferValid →
    exec (if d then .recv hi else .send hi) s = .next s' →
    let r := refTransaction (s.operands d) s.answerAt s.len.toNat s.mem
    ∃ n t, Host.Core.run core n s' = .next t ∧ busyUntil s' n ∧
      t.busy = false ∧ t.done = true ∧ t.result = r.code ∧ t.txState = .stopped ∧
      t.trace = s.trace ++ r.events ∧ t.initialized = true ∧ sameArguments s t ∧ t.seq = .idle ∧
      (∀ i : Word, i < s.len → t.mem.byteAt (s.ea i) = r.mem.byteAt (s.ea i)) ∧
      ((∀ a b, .bufWrite a b ∉ s.inbox) → t.mem = r.mem)

/-- R162: every accepted command completes, whatever PERIPH answers and whatever HOST does short of a reset, within its bound on
events. Only a SEND or RECV that passes its prechecks needs a buffer in valid memory. -/
def Obligations.EveryCommandEndsWithinItsBound : Prop :=
  ∀ (s s' : State) (o : Op), Inv s → s.cfg.wf = true → s.busy = false → .reset ∉ s.inbox → o ≠ .none →
    ((o = .send ∨ o = .recv) → s.prechecksPass = true → s.bufferValid) → s' = s.accept o →
    ∃ n t, Host.Core.run core n s' = .next t ∧ busyUntil s' n ∧ t.busy = false ∧ t.done = true ∧
      t.trace.length ≤ s.trace.length + s.eventBound o

/-- R125: a SEND or RECV that passes the prechecks writes STOP exactly once, as its last event, which is then what CR last got; one
that fails them performs no event. It holds whatever HOST does short of a reset (R191), and for every buffer. `n` is the step in which
the command ends. -/
def Obligations.StopIsWrittenExactlyOnce : Prop :=
  ∀ (s s' t : State) (o : Op) (n : Nat), Inv s → s.busy = false → .reset ∉ s.inbox → s.cfg.stopIsOwn = true →
    (o = .send ∨ o = .recv) → s' = s.accept o → Host.Core.run core n s' = .next t → busyUntil s' n → t.busy = false →
    (s.prechecksPass = true →
      (∃ es, t.trace = s.trace ++ es ++ [.portWrite .cr s.cfg.ctlStop] ∧ stopCount s.cfg es = 0) ∧
      lastWritten t.trace .cr = some s.cfg.ctlStop) ∧
    (s.prechecksPass = false → t.trace = s.trace)

/-- R143, R197: with TIMEOUT = 0 a transaction that passes its prechecks is START, STOP and the result TIMEOUT. The number of steps
is the model's (assumption 12). -/
def Obligations.ZeroBudgetIsStartThenStop : Prop :=
  ∀ (s s' : State) (hi : BitVec 29) (d : Bool), s.cfg.wf = true → s.busy = false → s.inbox = [] →
    s.prechecksPass = true → s.timeout = 0 → exec (if d then .recv hi else .send hi) s = .next s' →
    ∃ t, Host.Core.run core 7 s' = .next t ∧ t.busy = false ∧ t.done = true ∧ t.result = .timeout ∧ t.txState = .stopped ∧
      t.trace = s.trace ++ [.portWrite .cr s.cfg.ctlStart, .portWrite .cr s.cfg.ctlStop] ∧ t.mem = s.mem ∧ sameArguments s t

/-- R120, R127: STATE moves only along the transitions of the transaction, and only by BLOCK's steps or a reset. -/
def Obligations.TransactionStateMovesAsR120Says : Prop :=
  ∀ s t : State, Inv s → step s = .next t → t.txState ≠ s.txState →
    s.inbox.head? = some .reset ∨ (s.busy = true ∧ s.op ≠ .init ∧ txMove s.txState t.txState = true)

/-! ### BUFMEM -/

/-- R147, R148, R202: BLOCK's step leaves every byte of BUFMEM as it was, except that the MemWrite of a RECV may store at the address of
the current byte. SEND and INIT store nothing, and RECV nothing at its other positions. -/
def Obligations.BlockStoresOnlyTheCurrentByte : Prop :=
  ∀ s t : State, Inv s → s.inbox.head? = none ∨ s.inbox.head? = some .block → step s = .next t →
    (s.op ≠ .recv → t.mem = s.mem) ∧
    ((∀ d, s.seq ≠ .rxStore d) → t.mem = s.mem) ∧
    (∀ a : Word, a ≠ s.ea s.idx → t.mem.byteAt a = s.mem.byteAt a)

/-- R148, R66: the MemWrite of a RECV byte, at a valid address where HOST has not written during the command. -/
def Obligations.RecvByteIsStored : Prop :=
  ∀ (s : State) (d : Byte), s.cfg.wf = true → s.inbox = [] → s.seq = .rxStore d →
    s.cfg.bufmemValid (s.ea s.idx) = true → racedAt s.hostRaced (s.ea s.idx) = [] →
    ∃ t, step s = .next t ∧ t.trace = s.trace ++ [.memWrite (s.ea s.idx) d] ∧ t.mem.byteAt (s.ea s.idx) = d ∧
      (∀ a : Word, a ≠ s.ea s.idx → t.mem.byteAt a = s.mem.byteAt a) ∧ sameHostRegs s t ∧ t.idx = s.idx

/-- R147, R66, R58: the MemRead of a SEND byte, at a valid address where HOST has not written during the command. -/
def Obligations.SendByteIsRead : Prop :=
  ∀ s : State, s.cfg.wf = true → s.inbox = [] → s.seq = .txRead →
    s.cfg.bufmemValid (s.ea s.idx) = true → racedAt s.hostRaced (s.ea s.idx) = [] →
    step s = .next { s with
      trace := s.trace ++ [.memRead (s.ea s.idx) (s.mem.byteAt (s.ea s.idx))]
      seq := .txPut (s.mem.byteAt (s.ea s.idx)) }

/-- R52, R203: at an invalid address BLOCK is stuck: with no turn left the machine stops by name; a turn of BLOCK passes and leaves
everything as it is, BUSY included, so that HOST goes on. The named stop and the passing turn are the model's choice (assumption 4). -/
def Obligations.InvalidBufferAddressIsStuck : Prop :=
  ∀ s : State, s.cfg.wf = true → (s.seq = .txRead ∨ ∃ d, s.seq = .rxStore d) → s.cfg.bufmemValid (s.ea s.idx) = false →
    (s.inbox = [] → step s = .fault (.bufmemStuck (s.ea s.idx))) ∧
    (∀ rest, s.inbox = .block :: rest → step s = .next { s with inbox := rest })

/-- R62, R195: what the accesses to BUFMEM do while BUSY = 1, at an address with memory. A HOST read sees one of: the byte that is
there, those that BLOCK's writes displaced during the command, those that BLOCK still writes there; BLOCK's read likewise with
HOST's writes. Which one is the free choice `Config.raceDraw` among all of them, whatever its value, a fresh one where there are
several. A write leaves its own byte, or, where the other agent wrote there during the command, by a free choice the byte that was
there; the one of the two that is not left is kept for the other agent's reads. That the choice is a draw over this list, and
among two racing writes is made at the later one, is the model's (assumption 8). -/
def Obligations.RacingReadsSeeOldOrNew : Prop :=
  ∀ (s : State) (a : Word) (b : Byte) (rest : List Turn), s.cfg.wf = true → s.busy = true → s.cfg.bufmemValid a = true →
    let now := s.mem.byteAt a
    let pick := fun (l : List Byte) => l.getD (Config.raceDraw s.raceDraws % l.length) now
    let draws := fun (l : List Byte) => if l.length = 1 then s.raceDraws else s.raceDraws + 1
    let hostSees := now :: (racedAt s.blockRaced a ++ s.later)
    let blockSees := now :: (racedAt s.hostRaced a ++ s.later)
    (s.inbox = .bufRead a :: rest →
      step s = .next { s with inbox := rest, retByte := pick hostSees, raceDraws := draws hostSees }) ∧
    (s.seq = .txRead → s.ea s.idx = a → (s.inbox = [] ∨ s.inbox = .block :: rest) →
      step s = .next { s with
        inbox := s.inbox.tail, trace := s.trace ++ [.memRead a (pick blockSees)]
        seq := .txPut (pick blockSees), raceDraws := draws blockSees }) ∧
    (s.inbox = .bufWrite a b :: rest → ∃ t, step s = .next t ∧
      ((t.mem.byteAt a = b ∧ racedAt t.hostRaced a = now :: racedAt s.hostRaced a) ∨
        (racedAt s.blockRaced a ≠ [] ∧ t.mem.byteAt a = now ∧ racedAt t.hostRaced a = b :: racedAt s.hostRaced a)) ∧
      (racedAt s.blockRaced a ≠ [] → t.mem.byteAt a = pick [b, now] ∧ t.raceDraws = draws [b, now]) ∧
      (∀ x, x ≠ a → t.mem.byteAt x = s.mem.byteAt x ∧ racedAt t.hostRaced x = racedAt s.hostRaced x) ∧
      t = { s with inbox := rest, mem := t.mem, hostRaced := t.hostRaced, raceDraws := t.raceDraws }) ∧
    (s.seq = .rxStore b → s.ea s.idx = a → (s.inbox = [] ∨ s.inbox = .block :: rest) → ∃ t, step s = .next t ∧
      ((t.mem.byteAt a = b ∧ racedAt t.blockRaced a = now :: racedAt s.blockRaced a) ∨
        (racedAt s.hostRaced a ≠ [] ∧ t.mem.byteAt a = now ∧ racedAt t.blockRaced a = b :: racedAt s.blockRaced a)) ∧
      (racedAt s.hostRaced a ≠ [] → t.mem.byteAt a = pick [b, now] ∧ t.raceDraws = draws [b, now]) ∧
      (∀ x, x ≠ a → t.mem.byteAt x = s.mem.byteAt x ∧ racedAt t.blockRaced x = racedAt s.blockRaced x) ∧
      t = { s with
        inbox := s.inbox.tail, trace := s.trace ++ [.memWrite a b], seq := t.seq
        mem := t.mem, blockRaced := t.blockRaced, raceDraws := t.raceDraws })

/-- R62: the racing values still to come are exactly those that the run of the machine goes on to write during the command: at a HOST
read, by BLOCK's MemWrite; at BLOCK's MemRead, by a write of HOST. That they are found by running on is the model's (assumption 8). -/
def Obligations.LaterValuesAreThoseWrittenLater : Prop :=
  ∀ (s : State) (a : Word) (v : Byte), s.busy = true →
    (s.inbox.head? = some (.bufRead a) →
      (v ∈ s.later ↔ ∃ n u u', n < s.fuel ∧ Host.Core.run core n s = .next u ∧ busyUntil s (n + 1) ∧ step u = .next u' ∧
        u'.trace = u.trace ++ [.memWrite a v])) ∧
    (s.seq = .txRead → s.ea s.idx = a → s.blockIsNext = true →
      (v ∈ s.later ↔ ∃ n u, n < s.fuel ∧ Host.Core.run core n s = .next u ∧ busyUntil s (n + 1) ∧
        u.inbox.head? = some (.bufWrite a v)))

/-- R61, R52, R68, R174: with BUSY = 0 a HOST read of BUFMEM returns the byte that is there, and a HOST write stores exactly its byte.
At an address without memory both complete too, with BUSY = 0 or 1: the read with some byte, the write with no effect (the model's,
assumption 5). -/
def Obligations.IdleBufferAccessesAreExact : Prop :=
  ∀ (s : State) (a : Word) (b : Byte) (rest : List Turn), Inv s → s.cfg.wf = true →
    (s.busy = false → s.cfg.bufmemValid a = true →
      (s.inbox = .bufRead a :: rest → step s = .next { s with inbox := rest, retByte := s.mem.byteAt a }) ∧
      (s.inbox = .bufWrite a b :: rest → ∃ t, step s = .next t ∧ t.mem.byteAt a = b ∧
        (∀ x : Word, x ≠ a → t.mem.byteAt x = s.mem.byteAt x) ∧ t = { s with inbox := rest, mem := t.mem })) ∧
    (s.cfg.bufmemValid a = false →
      (s.inbox = .bufRead a :: rest → ∃ t, step s = .next t ∧
        t = { s with inbox := rest, retByte := t.retByte, raceDraws := t.raceDraws }) ∧
      (s.inbox = .bufWrite a b :: rest → step s = .next { s with inbox := rest }))

/-! ### The whole machine -/

/-- Every step keeps the invariant, from every state that has it. Its clause `idxStop` is the model's choice (assumption 24). -/
def Obligations.StepKeepsInvariant : Prop :=
  ∀ s t : State, Inv s → step s = .next t → Inv t

/-- The state after reset has the invariant. -/
def Obligations.ResetHasInvariant : Prop := Inv State.reset

/-- A BLOCK turn runs the port operation of its position, with the answer of PERIPH taken by a read.
Who moves next is an input (assumption 9). -/
def Obligations.BlockStepRunsItsPortOperation : Prop :=
  ∀ (s : State) (i : Instr), s.cfg.wf = true → s.portOp = some i →
    (s.inbox = [] → step s = exec i (if i.isPortRead then s.answered else s)) ∧
    (∀ rest, s.inbox = .block :: rest →
      step s = exec i (if i.isPortRead then { s with inbox := rest }.answered else { s with inbox := rest }))

/-- A HOST turn of a 32-bit access runs the instruction its word decodes to, and every such word decodes.
Who moves next is an input (assumption 9). -/
def Obligations.HostStepRunsTheDecodedInstruction : Prop :=
  ∀ (s : State) (ha : BitVec 6) (d : Word) (rest : List Turn), s.cfg.wf = true →
    s.inbox = .access { width := 32, ha := ha, d := d } :: rest →
    ∃ i, decode (.hostAccess ha d) = .ok i ∧ i.wf = true ∧ step s = exec i { s with inbox := rest }

/-- An instruction placed by withFetchWord is what the next step runs, on a state with the same registers, BUFMEM and trace but for
what the placing of a port operation sets. The placing is the model's choice (assumptions 10 and 11). -/
def Obligations.PlacedWordRunsNext : Prop :=
  ∀ (s : State) (nbits w : Nat) (i : Instr), s.cfg.wf = true → decodeTableWord nbits w = some i →
    ∃ s', step (s.withFetchWord nbits w) = exec i s' ∧
      s'.mem = s.mem ∧ s'.trace = s.trace ∧ s'.inbox = s.inbox ∧ s'.cfg = s.cfg ∧ s'.freq = s.freq ∧ s'.addr = s.addr ∧
      s'.buf = s.buf ∧ s'.len = s.len ∧ (nbits ≠ 16 → s' = s)

/-- R15: a step performs at most one event, and never takes one back. -/
def Obligations.AtMostOneEventPerStep : Prop :=
  ∀ s t : State, step s = .next t → t.trace = s.trace ∨ ∃ e, t.trace = s.trace ++ [e]

/-- R74, R178: a step performs only port events of the shapes of R74; and on a block with the control words of the opcode table each of
them is the word of a port operation, and no control word has TWIE set. -/
def Obligations.PortEventsHaveTheirShapes : Prop :=
  ∀ s t : State, step s = .next t → ∀ e ∈ newEvents s t,
    e.isPortShape s.cfg = true ∧
    (s.cfg.tableWords = true →
      (∀ w, e.portWord = some w → ∃ i, decode (.portEvent w) = .ok i) ∧ (∀ v, e = .portWrite .cr v → v.getLsbD 0 = false))

/-- R31, R79, R90: no argument register changes while a command runs, unless the block is reset. -/
def Obligations.ArgumentsConstantDuringCommand : Prop :=
  ∀ s t : State, s.busy = true → s.inbox.head? ≠ some .reset → step s = .next t → sameArguments s t

/-- R32: BUSY rises only in the step of a HOST write to CMD and falls only at completion, with DONE set, or by a reset. -/
def Obligations.BusyRisesAtAcceptanceFallsAtCompletion : Prop :=
  ∀ s t : State, Inv s → step s = .next t →
    (s.busy = false → t.busy = true →
      ∃ v, (s.inbox.head? = some (.access { width := 32, ha := 0x20, d := v })) ∧ 1 ≤ v.toNat % 8 ∧ v.toNat % 8 ≤ 3) ∧
    (s.busy = true → t.busy = false → s.inbox.head? = some .reset ∨ (t.done = true ∧ t.op = .none ∧ t.seq = .idle))

/-- R34, R39: RESULT changes only where a command completes, or by a reset; DONE falls only at acceptance or by a reset. -/
def Obligations.ResultChangesOnlyAtCompletion : Prop :=
  ∀ s t : State, Inv s → step s = .next t → s.inbox.head? ≠ some .reset →
    (t.result ≠ s.result → s.busy = true ∧ t.busy = false ∧ t.done = true) ∧
    (s.done = true → t.done = false → s.busy = false ∧ t.busy = true)

/-- R190: the state after reset, and that it accepts a command at once. -/
def Obligations.ResetValues : Prop :=
  let s := State.reset
  s.busy = false ∧ s.initialized = false ∧ s.done = false ∧ s.result = .ok ∧ s.txState = .idle ∧ s.freq = 0 ∧ s.addr = 0 ∧
  s.buf = 0 ∧ s.len = 0 ∧ s.timeout = Config.timeoutCountDefault ∧ s.op = .none ∧ s.dir = false ∧ s.idx = 0 ∧ s.cnt = 0 ∧
  s.err = none ∧ s.seq = .idle ∧ s.statusWord = 0 ∧ ∀ hi, ∃ t, exec (.init hi) s = .next t ∧ t.busy = true

/-- R191, R192: the reset input abandons a command at once, with no event; BUFMEM stays. That the trace, what HOST last read,
the configuration and the inputs stay too is the model's (assumption 16). -/
def Obligations.ResetInputAbandonsTheCommand : Prop :=
  ∀ (s : State) (rest : List Turn), s.cfg.wf = true → s.inbox = .reset :: rest →
    step s = .next { State.reset with
      cfg := s.cfg, mem := s.mem, trace := s.trace, ret := s.ret, retByte := s.retByte
      timeout := BitVec.ofNat 32 (s.cfg.timeoutDefault.toNat % 2 ^ s.cfg.timeoutW)
      inbox := rest, answers := s.answers, draws := s.draws, raceDraws := s.raceDraws }

/-- R7, D23: the default budget, whatever it is, lies between 1 and 2 ^ 32 - 1. -/
def Obligations.DefaultBudgetIsPositive : Prop :=
  1 ≤ Config.timeoutCountDefault.toNat ∧ Config.hardware.timeoutDefault = Config.timeoutCountDefault

/-- R7: a configuration that breaks the rule is refused, and no step changes the configuration. That it stands in the state is the
model's choice (assumption 17). -/
def Obligations.ConfigurationIsCheckedAndFixed : Prop :=
  ∀ s : State,
    ((0 ∈ s.cfg.supportedFreqs ∨ ¬ s.cfg.supportedFreqs.Nodup ∨ 32 < s.cfg.divW) → step s = .refused .badConfiguration) ∧
    (∀ t, step s = .next t → t.cfg = s.cfg)

/-- R203: with BUSY = 0 and no turn left, BLOCK has no step: nothing changes any more. That such a step repeats the state is the
model's choice (assumption 9). -/
def Obligations.IdleMachineStaysAsItIs : Prop :=
  ∀ (s : State) (n : Nat), Inv s → s.cfg.wf = true → s.busy = false → s.inbox = [] → Host.Core.run core n s = .next s

/-- R85: the pseudo-instruction `init f`, from an idle machine: it ends with BUSY = 0, and what its last read of STATUS returned has
DONE = 1 and the result of INIT in bits 5:4. The script as turns of HOST is the model's (assumption 9). -/
def Obligations.InitScriptReturnsItsResult : Prop :=
  ∀ (s : State) (f : Word), Inv s → s.cfg.wf = true → s.busy = false → s.inbox = Script.init f →
    ∃ n t, Host.Core.run core n s = .next t ∧ t.inbox = [] ∧ t.busy = false ∧ t.freq = f ∧ t.ret = t.statusWord ∧
      t.result = (if s.cfg.supportedFreqs.contains f then .ok else .notInitialized) ∧ t.done = true
end

