-- ==== Sys2Proof/Laws/State.lean ====
section
/-! SUPPORT. What each update of the state does to each field, one lemma a field, so that no proof unfolds an update. -/

namespace Sys2Proof.Machine

variable (s : State)

/-! ### emit -/

@[simp] theorem State.emit_cfg (e : Event) : (s.emit e).cfg = s.cfg := rfl
@[simp] theorem State.emit_freq (e : Event) : (s.emit e).freq = s.freq := rfl
@[simp] theorem State.emit_addr (e : Event) : (s.emit e).addr = s.addr := rfl
@[simp] theorem State.emit_buf (e : Event) : (s.emit e).buf = s.buf := rfl
@[simp] theorem State.emit_len (e : Event) : (s.emit e).len = s.len := rfl
@[simp] theorem State.emit_timeout (e : Event) : (s.emit e).timeout = s.timeout := rfl
@[simp] theorem State.emit_busy (e : Event) : (s.emit e).busy = s.busy := rfl
@[simp] theorem State.emit_initialized (e : Event) : (s.emit e).initialized = s.initialized := rfl
@[simp] theorem State.emit_done (e : Event) : (s.emit e).done = s.done := rfl
@[simp] theorem State.emit_result (e : Event) : (s.emit e).result = s.result := rfl
@[simp] theorem State.emit_txState (e : Event) : (s.emit e).txState = s.txState := rfl
@[simp] theorem State.emit_op (e : Event) : (s.emit e).op = s.op := rfl
@[simp] theorem State.emit_dir (e : Event) : (s.emit e).dir = s.dir := rfl
@[simp] theorem State.emit_idx (e : Event) : (s.emit e).idx = s.idx := rfl
@[simp] theorem State.emit_cnt (e : Event) : (s.emit e).cnt = s.cnt := rfl
@[simp] theorem State.emit_err (e : Event) : (s.emit e).err = s.err := rfl
@[simp] theorem State.emit_seq (e : Event) : (s.emit e).seq = s.seq := rfl
@[simp] theorem State.emit_mem (e : Event) : (s.emit e).mem = s.mem := rfl
@[simp] theorem State.emit_hostRaced (e : Event) : (s.emit e).hostRaced = s.hostRaced := rfl
@[simp] theorem State.emit_blockRaced (e : Event) : (s.emit e).blockRaced = s.blockRaced := rfl
@[simp] theorem State.emit_trace (e : Event) : (s.emit e).trace = s.trace ++ [e] := rfl
@[simp] theorem State.emit_ret (e : Event) : (s.emit e).ret = s.ret := rfl
@[simp] theorem State.emit_retByte (e : Event) : (s.emit e).retByte = s.retByte := rfl
@[simp] theorem State.emit_inbox (e : Event) : (s.emit e).inbox = s.inbox := rfl
@[simp] theorem State.emit_answers (e : Event) : (s.emit e).answers = s.answers := rfl
@[simp] theorem State.emit_draws (e : Event) : (s.emit e).draws = s.draws := rfl
@[simp] theorem State.emit_raceDraws (e : Event) : (s.emit e).raceDraws = s.raceDraws := rfl

/-! ### portWrite -/

@[simp] theorem State.portWrite_cfg (r : PortReg) (v : Byte) : (s.portWrite r v).cfg = s.cfg := rfl
@[simp] theorem State.portWrite_freq (r : PortReg) (v : Byte) : (s.portWrite r v).freq = s.freq := rfl
@[simp] theorem State.portWrite_addr (r : PortReg) (v : Byte) : (s.portWrite r v).addr = s.addr := rfl
@[simp] theorem State.portWrite_buf (r : PortReg) (v : Byte) : (s.portWrite r v).buf = s.buf := rfl
@[simp] theorem State.portWrite_len (r : PortReg) (v : Byte) : (s.portWrite r v).len = s.len := rfl
@[simp] theorem State.portWrite_timeout (r : PortReg) (v : Byte) : (s.portWrite r v).timeout = s.timeout := rfl
@[simp] theorem State.portWrite_busy (r : PortReg) (v : Byte) : (s.portWrite r v).busy = s.busy := rfl
@[simp] theorem State.portWrite_initialized (r : PortReg) (v : Byte) : (s.portWrite r v).initialized = s.initialized := rfl
@[simp] theorem State.portWrite_done (r : PortReg) (v : Byte) : (s.portWrite r v).done = s.done := rfl
@[simp] theorem State.portWrite_result (r : PortReg) (v : Byte) : (s.portWrite r v).result = s.result := rfl
@[simp] theorem State.portWrite_txState (r : PortReg) (v : Byte) : (s.portWrite r v).txState = s.txState := rfl
@[simp] theorem State.portWrite_op (r : PortReg) (v : Byte) : (s.portWrite r v).op = s.op := rfl
@[simp] theorem State.portWrite_dir (r : PortReg) (v : Byte) : (s.portWrite r v).dir = s.dir := rfl
@[simp] theorem State.portWrite_idx (r : PortReg) (v : Byte) : (s.portWrite r v).idx = s.idx := rfl
@[simp] theorem State.portWrite_cnt (r : PortReg) (v : Byte) : (s.portWrite r v).cnt = s.cnt := rfl
@[simp] theorem State.portWrite_err (r : PortReg) (v : Byte) : (s.portWrite r v).err = s.err := rfl
@[simp] theorem State.portWrite_seq (r : PortReg) (v : Byte) : (s.portWrite r v).seq = s.seq := rfl
@[simp] theorem State.portWrite_mem (r : PortReg) (v : Byte) : (s.portWrite r v).mem = s.mem := rfl
@[simp] theorem State.portWrite_hostRaced (r : PortReg) (v : Byte) : (s.portWrite r v).hostRaced = s.hostRaced := rfl
@[simp] theorem State.portWrite_blockRaced (r : PortReg) (v : Byte) : (s.portWrite r v).blockRaced = s.blockRaced := rfl
@[simp] theorem State.portWrite_trace (r : PortReg) (v : Byte) : (s.portWrite r v).trace = s.trace ++ [.portWrite r v] := rfl
@[simp] theorem State.portWrite_ret (r : PortReg) (v : Byte) : (s.portWrite r v).ret = s.ret := rfl
@[simp] theorem State.portWrite_retByte (r : PortReg) (v : Byte) : (s.portWrite r v).retByte = s.retByte := rfl
@[simp] theorem State.portWrite_inbox (r : PortReg) (v : Byte) : (s.portWrite r v).inbox = s.inbox := rfl
@[simp] theorem State.portWrite_answers (r : PortReg) (v : Byte) : (s.portWrite r v).answers = s.answers := rfl
@[simp] theorem State.portWrite_draws (r : PortReg) (v : Byte) : (s.portWrite r v).draws = s.draws := rfl
@[simp] theorem State.portWrite_raceDraws (r : PortReg) (v : Byte) : (s.portWrite r v).raceDraws = s.raceDraws := rfl

/-! ### portRead -/

@[simp] theorem State.portRead_cfg (r : PortReg) (v : Byte) : (s.portRead r v).cfg = s.cfg := rfl
@[simp] theorem State.portRead_freq (r : PortReg) (v : Byte) : (s.portRead r v).freq = s.freq := rfl
@[simp] theorem State.portRead_addr (r : PortReg) (v : Byte) : (s.portRead r v).addr = s.addr := rfl
@[simp] theorem State.portRead_buf (r : PortReg) (v : Byte) : (s.portRead r v).buf = s.buf := rfl
@[simp] theorem State.portRead_len (r : PortReg) (v : Byte) : (s.portRead r v).len = s.len := rfl
@[simp] theorem State.portRead_timeout (r : PortReg) (v : Byte) : (s.portRead r v).timeout = s.timeout := rfl
@[simp] theorem State.portRead_busy (r : PortReg) (v : Byte) : (s.portRead r v).busy = s.busy := rfl
@[simp] theorem State.portRead_initialized (r : PortReg) (v : Byte) : (s.portRead r v).initialized = s.initialized := rfl
@[simp] theorem State.portRead_done (r : PortReg) (v : Byte) : (s.portRead r v).done = s.done := rfl
@[simp] theorem State.portRead_result (r : PortReg) (v : Byte) : (s.portRead r v).result = s.result := rfl
@[simp] theorem State.portRead_txState (r : PortReg) (v : Byte) : (s.portRead r v).txState = s.txState := rfl
@[simp] theorem State.portRead_op (r : PortReg) (v : Byte) : (s.portRead r v).op = s.op := rfl
@[simp] theorem State.portRead_dir (r : PortReg) (v : Byte) : (s.portRead r v).dir = s.dir := rfl
@[simp] theorem State.portRead_idx (r : PortReg) (v : Byte) : (s.portRead r v).idx = s.idx := rfl
@[simp] theorem State.portRead_cnt (r : PortReg) (v : Byte) : (s.portRead r v).cnt = s.cnt := rfl
@[simp] theorem State.portRead_err (r : PortReg) (v : Byte) : (s.portRead r v).err = s.err := rfl
@[simp] theorem State.portRead_seq (r : PortReg) (v : Byte) : (s.portRead r v).seq = s.seq := rfl
@[simp] theorem State.portRead_mem (r : PortReg) (v : Byte) : (s.portRead r v).mem = s.mem := rfl
@[simp] theorem State.portRead_hostRaced (r : PortReg) (v : Byte) : (s.portRead r v).hostRaced = s.hostRaced := rfl
@[simp] theorem State.portRead_blockRaced (r : PortReg) (v : Byte) : (s.portRead r v).blockRaced = s.blockRaced := rfl
@[simp] theorem State.portRead_trace (r : PortReg) (v : Byte) : (s.portRead r v).trace = s.trace ++ [.portRead r v] := rfl
@[simp] theorem State.portRead_ret (r : PortReg) (v : Byte) : (s.portRead r v).ret = s.ret := rfl
@[simp] theorem State.portRead_retByte (r : PortReg) (v : Byte) : (s.portRead r v).retByte = s.retByte := rfl
@[simp] theorem State.portRead_inbox (r : PortReg) (v : Byte) : (s.portRead r v).inbox = s.inbox := rfl
@[simp] theorem State.portRead_answers (r : PortReg) (v : Byte) : (s.portRead r v).answers = s.answers := rfl
@[simp] theorem State.portRead_draws (r : PortReg) (v : Byte) : (s.portRead r v).draws = s.draws := rfl
@[simp] theorem State.portRead_raceDraws (r : PortReg) (v : Byte) : (s.portRead r v).raceDraws = s.raceDraws := rfl

/-! ### returns -/

@[simp] theorem State.returns_cfg (v : Word) : (s.returns v).cfg = s.cfg := rfl
@[simp] theorem State.returns_freq (v : Word) : (s.returns v).freq = s.freq := rfl
@[simp] theorem State.returns_addr (v : Word) : (s.returns v).addr = s.addr := rfl
@[simp] theorem State.returns_buf (v : Word) : (s.returns v).buf = s.buf := rfl
@[simp] theorem State.returns_len (v : Word) : (s.returns v).len = s.len := rfl
@[simp] theorem State.returns_timeout (v : Word) : (s.returns v).timeout = s.timeout := rfl
@[simp] theorem State.returns_busy (v : Word) : (s.returns v).busy = s.busy := rfl
@[simp] theorem State.returns_initialized (v : Word) : (s.returns v).initialized = s.initialized := rfl
@[simp] theorem State.returns_done (v : Word) : (s.returns v).done = s.done := rfl
@[simp] theorem State.returns_result (v : Word) : (s.returns v).result = s.result := rfl
@[simp] theorem State.returns_txState (v : Word) : (s.returns v).txState = s.txState := rfl
@[simp] theorem State.returns_op (v : Word) : (s.returns v).op = s.op := rfl
@[simp] theorem State.returns_dir (v : Word) : (s.returns v).dir = s.dir := rfl
@[simp] theorem State.returns_idx (v : Word) : (s.returns v).idx = s.idx := rfl
@[simp] theorem State.returns_cnt (v : Word) : (s.returns v).cnt = s.cnt := rfl
@[simp] theorem State.returns_err (v : Word) : (s.returns v).err = s.err := rfl
@[simp] theorem State.returns_seq (v : Word) : (s.returns v).seq = s.seq := rfl
@[simp] theorem State.returns_mem (v : Word) : (s.returns v).mem = s.mem := rfl
@[simp] theorem State.returns_hostRaced (v : Word) : (s.returns v).hostRaced = s.hostRaced := rfl
@[simp] theorem State.returns_blockRaced (v : Word) : (s.returns v).blockRaced = s.blockRaced := rfl
@[simp] theorem State.returns_trace (v : Word) : (s.returns v).trace = s.trace := rfl
@[simp] theorem State.returns_ret (v : Word) : (s.returns v).ret = v := rfl
@[simp] theorem State.returns_retByte (v : Word) : (s.returns v).retByte = s.retByte := rfl
@[simp] theorem State.returns_inbox (v : Word) : (s.returns v).inbox = s.inbox := rfl
@[simp] theorem State.returns_answers (v : Word) : (s.returns v).answers = s.answers := rfl
@[simp] theorem State.returns_draws (v : Word) : (s.returns v).draws = s.draws := rfl
@[simp] theorem State.returns_raceDraws (v : Word) : (s.returns v).raceDraws = s.raceDraws := rfl

/-! ### flagsAccepted -/

@[simp] theorem State.flagsAccepted_cfg : (s.flagsAccepted).cfg = s.cfg := rfl
@[simp] theorem State.flagsAccepted_freq : (s.flagsAccepted).freq = s.freq := rfl
@[simp] theorem State.flagsAccepted_addr : (s.flagsAccepted).addr = s.addr := rfl
@[simp] theorem State.flagsAccepted_buf : (s.flagsAccepted).buf = s.buf := rfl
@[simp] theorem State.flagsAccepted_len : (s.flagsAccepted).len = s.len := rfl
@[simp] theorem State.flagsAccepted_timeout : (s.flagsAccepted).timeout = s.timeout := rfl
@[simp] theorem State.flagsAccepted_busy : (s.flagsAccepted).busy = true := rfl
@[simp] theorem State.flagsAccepted_initialized : (s.flagsAccepted).initialized = s.initialized := rfl
@[simp] theorem State.flagsAccepted_done : (s.flagsAccepted).done = false := rfl
@[simp] theorem State.flagsAccepted_result : (s.flagsAccepted).result = s.result := rfl
@[simp] theorem State.flagsAccepted_txState : (s.flagsAccepted).txState = s.txState := rfl
@[simp] theorem State.flagsAccepted_op : (s.flagsAccepted).op = s.op := rfl
@[simp] theorem State.flagsAccepted_dir : (s.flagsAccepted).dir = s.dir := rfl
@[simp] theorem State.flagsAccepted_idx : (s.flagsAccepted).idx = s.idx := rfl
@[simp] theorem State.flagsAccepted_cnt : (s.flagsAccepted).cnt = s.cnt := rfl
@[simp] theorem State.flagsAccepted_err : (s.flagsAccepted).err = s.err := rfl
@[simp] theorem State.flagsAccepted_seq : (s.flagsAccepted).seq = s.seq := rfl
@[simp] theorem State.flagsAccepted_mem : (s.flagsAccepted).mem = s.mem := rfl
@[simp] theorem State.flagsAccepted_hostRaced : (s.flagsAccepted).hostRaced = s.hostRaced := rfl
@[simp] theorem State.flagsAccepted_blockRaced : (s.flagsAccepted).blockRaced = s.blockRaced := rfl
@[simp] theorem State.flagsAccepted_trace : (s.flagsAccepted).trace = s.trace := rfl
@[simp] theorem State.flagsAccepted_ret : (s.flagsAccepted).ret = s.ret := rfl
@[simp] theorem State.flagsAccepted_retByte : (s.flagsAccepted).retByte = s.retByte := rfl
@[simp] theorem State.flagsAccepted_inbox : (s.flagsAccepted).inbox = s.inbox := rfl
@[simp] theorem State.flagsAccepted_answers : (s.flagsAccepted).answers = s.answers := rfl
@[simp] theorem State.flagsAccepted_draws : (s.flagsAccepted).draws = s.draws := rfl
@[simp] theorem State.flagsAccepted_raceDraws : (s.flagsAccepted).raceDraws = s.raceDraws := rfl

/-! ### flagsCompleted -/

@[simp] theorem State.flagsCompleted_cfg (c : ResultCode) : (s.flagsCompleted c).cfg = s.cfg := rfl
@[simp] theorem State.flagsCompleted_freq (c : ResultCode) : (s.flagsCompleted c).freq = s.freq := rfl
@[simp] theorem State.flagsCompleted_addr (c : ResultCode) : (s.flagsCompleted c).addr = s.addr := rfl
@[simp] theorem State.flagsCompleted_buf (c : ResultCode) : (s.flagsCompleted c).buf = s.buf := rfl
@[simp] theorem State.flagsCompleted_len (c : ResultCode) : (s.flagsCompleted c).len = s.len := rfl
@[simp] theorem State.flagsCompleted_timeout (c : ResultCode) : (s.flagsCompleted c).timeout = s.timeout := rfl
@[simp] theorem State.flagsCompleted_busy (c : ResultCode) : (s.flagsCompleted c).busy = false := rfl
@[simp] theorem State.flagsCompleted_initialized (c : ResultCode) : (s.flagsCompleted c).initialized = s.initialized := rfl
@[simp] theorem State.flagsCompleted_done (c : ResultCode) : (s.flagsCompleted c).done = true := rfl
@[simp] theorem State.flagsCompleted_result (c : ResultCode) : (s.flagsCompleted c).result = c := rfl
@[simp] theorem State.flagsCompleted_txState (c : ResultCode) : (s.flagsCompleted c).txState = s.txState := rfl
@[simp] theorem State.flagsCompleted_op (c : ResultCode) : (s.flagsCompleted c).op = s.op := rfl
@[simp] theorem State.flagsCompleted_dir (c : ResultCode) : (s.flagsCompleted c).dir = s.dir := rfl
@[simp] theorem State.flagsCompleted_idx (c : ResultCode) : (s.flagsCompleted c).idx = s.idx := rfl
@[simp] theorem State.flagsCompleted_cnt (c : ResultCode) : (s.flagsCompleted c).cnt = s.cnt := rfl
@[simp] theorem State.flagsCompleted_err (c : ResultCode) : (s.flagsCompleted c).err = s.err := rfl
@[simp] theorem State.flagsCompleted_seq (c : ResultCode) : (s.flagsCompleted c).seq = s.seq := rfl
@[simp] theorem State.flagsCompleted_mem (c : ResultCode) : (s.flagsCompleted c).mem = s.mem := rfl
@[simp] theorem State.flagsCompleted_hostRaced (c : ResultCode) : (s.flagsCompleted c).hostRaced = s.hostRaced := rfl
@[simp] theorem State.flagsCompleted_blockRaced (c : ResultCode) : (s.flagsCompleted c).blockRaced = s.blockRaced := rfl
@[simp] theorem State.flagsCompleted_trace (c : ResultCode) : (s.flagsCompleted c).trace = s.trace := rfl
@[simp] theorem State.flagsCompleted_ret (c : ResultCode) : (s.flagsCompleted c).ret = s.ret := rfl
@[simp] theorem State.flagsCompleted_retByte (c : ResultCode) : (s.flagsCompleted c).retByte = s.retByte := rfl
@[simp] theorem State.flagsCompleted_inbox (c : ResultCode) : (s.flagsCompleted c).inbox = s.inbox := rfl
@[simp] theorem State.flagsCompleted_answers (c : ResultCode) : (s.flagsCompleted c).answers = s.answers := rfl
@[simp] theorem State.flagsCompleted_draws (c : ResultCode) : (s.flagsCompleted c).draws = s.draws := rfl
@[simp] theorem State.flagsCompleted_raceDraws (c : ResultCode) : (s.flagsCompleted c).raceDraws = s.raceDraws := rfl

/-! ### flagInitialized -/

@[simp] theorem State.flagInitialized_cfg : (s.flagInitialized).cfg = s.cfg := rfl
@[simp] theorem State.flagInitialized_freq : (s.flagInitialized).freq = s.freq := rfl
@[simp] theorem State.flagInitialized_addr : (s.flagInitialized).addr = s.addr := rfl
@[simp] theorem State.flagInitialized_buf : (s.flagInitialized).buf = s.buf := rfl
@[simp] theorem State.flagInitialized_len : (s.flagInitialized).len = s.len := rfl
@[simp] theorem State.flagInitialized_timeout : (s.flagInitialized).timeout = s.timeout := rfl
@[simp] theorem State.flagInitialized_busy : (s.flagInitialized).busy = s.busy := rfl
@[simp] theorem State.flagInitialized_initialized : (s.flagInitialized).initialized = true := rfl
@[simp] theorem State.flagInitialized_done : (s.flagInitialized).done = s.done := rfl
@[simp] theorem State.flagInitialized_result : (s.flagInitialized).result = s.result := rfl
@[simp] theorem State.flagInitialized_txState : (s.flagInitialized).txState = s.txState := rfl
@[simp] theorem State.flagInitialized_op : (s.flagInitialized).op = s.op := rfl
@[simp] theorem State.flagInitialized_dir : (s.flagInitialized).dir = s.dir := rfl
@[simp] theorem State.flagInitialized_idx : (s.flagInitialized).idx = s.idx := rfl
@[simp] theorem State.flagInitialized_cnt : (s.flagInitialized).cnt = s.cnt := rfl
@[simp] theorem State.flagInitialized_err : (s.flagInitialized).err = s.err := rfl
@[simp] theorem State.flagInitialized_seq : (s.flagInitialized).seq = s.seq := rfl
@[simp] theorem State.flagInitialized_mem : (s.flagInitialized).mem = s.mem := rfl
@[simp] theorem State.flagInitialized_hostRaced : (s.flagInitialized).hostRaced = s.hostRaced := rfl
@[simp] theorem State.flagInitialized_blockRaced : (s.flagInitialized).blockRaced = s.blockRaced := rfl
@[simp] theorem State.flagInitialized_trace : (s.flagInitialized).trace = s.trace := rfl
@[simp] theorem State.flagInitialized_ret : (s.flagInitialized).ret = s.ret := rfl
@[simp] theorem State.flagInitialized_retByte : (s.flagInitialized).retByte = s.retByte := rfl
@[simp] theorem State.flagInitialized_inbox : (s.flagInitialized).inbox = s.inbox := rfl
@[simp] theorem State.flagInitialized_answers : (s.flagInitialized).answers = s.answers := rfl
@[simp] theorem State.flagInitialized_draws : (s.flagInitialized).draws = s.draws := rfl
@[simp] theorem State.flagInitialized_raceDraws : (s.flagInitialized).raceDraws = s.raceDraws := rfl

/-! ### setTxState -/

@[simp] theorem State.setTxState_cfg (x : TxState) : (s.setTxState x).cfg = s.cfg := rfl
@[simp] theorem State.setTxState_freq (x : TxState) : (s.setTxState x).freq = s.freq := rfl
@[simp] theorem State.setTxState_addr (x : TxState) : (s.setTxState x).addr = s.addr := rfl
@[simp] theorem State.setTxState_buf (x : TxState) : (s.setTxState x).buf = s.buf := rfl
@[simp] theorem State.setTxState_len (x : TxState) : (s.setTxState x).len = s.len := rfl
@[simp] theorem State.setTxState_timeout (x : TxState) : (s.setTxState x).timeout = s.timeout := rfl
@[simp] theorem State.setTxState_busy (x : TxState) : (s.setTxState x).busy = s.busy := rfl
@[simp] theorem State.setTxState_initialized (x : TxState) : (s.setTxState x).initialized = s.initialized := rfl
@[simp] theorem State.setTxState_done (x : TxState) : (s.setTxState x).done = s.done := rfl
@[simp] theorem State.setTxState_result (x : TxState) : (s.setTxState x).result = s.result := rfl
@[simp] theorem State.setTxState_txState (x : TxState) : (s.setTxState x).txState = x := rfl
@[simp] theorem State.setTxState_op (x : TxState) : (s.setTxState x).op = s.op := rfl
@[simp] theorem State.setTxState_dir (x : TxState) : (s.setTxState x).dir = s.dir := rfl
@[simp] theorem State.setTxState_idx (x : TxState) : (s.setTxState x).idx = s.idx := rfl
@[simp] theorem State.setTxState_cnt (x : TxState) : (s.setTxState x).cnt = s.cnt := rfl
@[simp] theorem State.setTxState_err (x : TxState) : (s.setTxState x).err = s.err := rfl
@[simp] theorem State.setTxState_seq (x : TxState) : (s.setTxState x).seq = s.seq := rfl
@[simp] theorem State.setTxState_mem (x : TxState) : (s.setTxState x).mem = s.mem := rfl
@[simp] theorem State.setTxState_hostRaced (x : TxState) : (s.setTxState x).hostRaced = s.hostRaced := rfl
@[simp] theorem State.setTxState_blockRaced (x : TxState) : (s.setTxState x).blockRaced = s.blockRaced := rfl
@[simp] theorem State.setTxState_trace (x : TxState) : (s.setTxState x).trace = s.trace := rfl
@[simp] theorem State.setTxState_ret (x : TxState) : (s.setTxState x).ret = s.ret := rfl
@[simp] theorem State.setTxState_retByte (x : TxState) : (s.setTxState x).retByte = s.retByte := rfl
@[simp] theorem State.setTxState_inbox (x : TxState) : (s.setTxState x).inbox = s.inbox := rfl
@[simp] theorem State.setTxState_answers (x : TxState) : (s.setTxState x).answers = s.answers := rfl
@[simp] theorem State.setTxState_draws (x : TxState) : (s.setTxState x).draws = s.draws := rfl
@[simp] theorem State.setTxState_raceDraws (x : TxState) : (s.setTxState x).raceDraws = s.raceDraws := rfl

/-! ### accept -/

@[simp] theorem State.accept_cfg (o : Op) : (s.accept o).cfg = s.cfg := rfl
@[simp] theorem State.accept_freq (o : Op) : (s.accept o).freq = s.freq := rfl
@[simp] theorem State.accept_addr (o : Op) : (s.accept o).addr = s.addr := rfl
@[simp] theorem State.accept_buf (o : Op) : (s.accept o).buf = s.buf := rfl
@[simp] theorem State.accept_len (o : Op) : (s.accept o).len = s.len := rfl
@[simp] theorem State.accept_timeout (o : Op) : (s.accept o).timeout = s.timeout := rfl
@[simp] theorem State.accept_busy (o : Op) : (s.accept o).busy = true := rfl
@[simp] theorem State.accept_initialized (o : Op) : (s.accept o).initialized = s.initialized := rfl
@[simp] theorem State.accept_done (o : Op) : (s.accept o).done = false := rfl
@[simp] theorem State.accept_result (o : Op) : (s.accept o).result = s.result := rfl
@[simp] theorem State.accept_txState (o : Op) : (s.accept o).txState = s.txState := rfl
@[simp] theorem State.accept_op (o : Op) : (s.accept o).op = o := rfl
@[simp] theorem State.accept_dir (o : Op) : (s.accept o).dir = s.dir := rfl
@[simp] theorem State.accept_idx (o : Op) : (s.accept o).idx = 0 := rfl
@[simp] theorem State.accept_cnt (o : Op) : (s.accept o).cnt = 0 := rfl
@[simp] theorem State.accept_err (o : Op) : (s.accept o).err = none := rfl
@[simp] theorem State.accept_seq (o : Op) : (s.accept o).seq = o.entry := rfl
@[simp] theorem State.accept_mem (o : Op) : (s.accept o).mem = s.mem := rfl
@[simp] theorem State.accept_hostRaced (o : Op) : (s.accept o).hostRaced = s.hostRaced := rfl
@[simp] theorem State.accept_blockRaced (o : Op) : (s.accept o).blockRaced = s.blockRaced := rfl
@[simp] theorem State.accept_trace (o : Op) : (s.accept o).trace = s.trace := rfl
@[simp] theorem State.accept_ret (o : Op) : (s.accept o).ret = s.ret := rfl
@[simp] theorem State.accept_retByte (o : Op) : (s.accept o).retByte = s.retByte := rfl
@[simp] theorem State.accept_inbox (o : Op) : (s.accept o).inbox = s.inbox := rfl
@[simp] theorem State.accept_answers (o : Op) : (s.accept o).answers = s.answers := rfl
@[simp] theorem State.accept_draws (o : Op) : (s.accept o).draws = s.draws := rfl
@[simp] theorem State.accept_raceDraws (o : Op) : (s.accept o).raceDraws = s.raceDraws := rfl

/-! ### enterWait -/

@[simp] theorem State.enterWait_cfg (p : Phase) : (s.enterWait p).cfg = s.cfg := rfl
@[simp] theorem State.enterWait_freq (p : Phase) : (s.enterWait p).freq = s.freq := rfl
@[simp] theorem State.enterWait_addr (p : Phase) : (s.enterWait p).addr = s.addr := rfl
@[simp] theorem State.enterWait_buf (p : Phase) : (s.enterWait p).buf = s.buf := rfl
@[simp] theorem State.enterWait_len (p : Phase) : (s.enterWait p).len = s.len := rfl
@[simp] theorem State.enterWait_timeout (p : Phase) : (s.enterWait p).timeout = s.timeout := rfl
@[simp] theorem State.enterWait_busy (p : Phase) : (s.enterWait p).busy = s.busy := rfl
@[simp] theorem State.enterWait_initialized (p : Phase) : (s.enterWait p).initialized = s.initialized := rfl
@[simp] theorem State.enterWait_done (p : Phase) : (s.enterWait p).done = s.done := rfl
@[simp] theorem State.enterWait_result (p : Phase) : (s.enterWait p).result = s.result := rfl
@[simp] theorem State.enterWait_txState (p : Phase) : (s.enterWait p).txState = s.txState := rfl
@[simp] theorem State.enterWait_op (p : Phase) : (s.enterWait p).op = s.op := rfl
@[simp] theorem State.enterWait_dir (p : Phase) : (s.enterWait p).dir = s.dir := rfl
@[simp] theorem State.enterWait_idx (p : Phase) : (s.enterWait p).idx = s.idx := rfl
@[simp] theorem State.enterWait_cnt (p : Phase) : (s.enterWait p).cnt = 0 := rfl
@[simp] theorem State.enterWait_err (p : Phase) : (s.enterWait p).err = s.err := rfl
@[simp] theorem State.enterWait_seq (p : Phase) : (s.enterWait p).seq = .flag p := rfl
@[simp] theorem State.enterWait_mem (p : Phase) : (s.enterWait p).mem = s.mem := rfl
@[simp] theorem State.enterWait_hostRaced (p : Phase) : (s.enterWait p).hostRaced = s.hostRaced := rfl
@[simp] theorem State.enterWait_blockRaced (p : Phase) : (s.enterWait p).blockRaced = s.blockRaced := rfl
@[simp] theorem State.enterWait_trace (p : Phase) : (s.enterWait p).trace = s.trace := rfl
@[simp] theorem State.enterWait_ret (p : Phase) : (s.enterWait p).ret = s.ret := rfl
@[simp] theorem State.enterWait_retByte (p : Phase) : (s.enterWait p).retByte = s.retByte := rfl
@[simp] theorem State.enterWait_inbox (p : Phase) : (s.enterWait p).inbox = s.inbox := rfl
@[simp] theorem State.enterWait_answers (p : Phase) : (s.enterWait p).answers = s.answers := rfl
@[simp] theorem State.enterWait_draws (p : Phase) : (s.enterWait p).draws = s.draws := rfl
@[simp] theorem State.enterWait_raceDraws (p : Phase) : (s.enterWait p).raceDraws = s.raceDraws := rfl

/-! ### raiseFail -/

@[simp] theorem State.raiseFail_cfg (c : ResultCode) : (s.raiseFail c).cfg = s.cfg := rfl
@[simp] theorem State.raiseFail_freq (c : ResultCode) : (s.raiseFail c).freq = s.freq := rfl
@[simp] theorem State.raiseFail_addr (c : ResultCode) : (s.raiseFail c).addr = s.addr := rfl
@[simp] theorem State.raiseFail_buf (c : ResultCode) : (s.raiseFail c).buf = s.buf := rfl
@[simp] theorem State.raiseFail_len (c : ResultCode) : (s.raiseFail c).len = s.len := rfl
@[simp] theorem State.raiseFail_timeout (c : ResultCode) : (s.raiseFail c).timeout = s.timeout := rfl
@[simp] theorem State.raiseFail_busy (c : ResultCode) : (s.raiseFail c).busy = s.busy := rfl
@[simp] theorem State.raiseFail_initialized (c : ResultCode) : (s.raiseFail c).initialized = s.initialized := rfl
@[simp] theorem State.raiseFail_done (c : ResultCode) : (s.raiseFail c).done = s.done := rfl
@[simp] theorem State.raiseFail_result (c : ResultCode) : (s.raiseFail c).result = s.result := rfl
@[simp] theorem State.raiseFail_txState (c : ResultCode) : (s.raiseFail c).txState = s.txState := rfl
@[simp] theorem State.raiseFail_op (c : ResultCode) : (s.raiseFail c).op = s.op := rfl
@[simp] theorem State.raiseFail_dir (c : ResultCode) : (s.raiseFail c).dir = s.dir := rfl
@[simp] theorem State.raiseFail_idx (c : ResultCode) : (s.raiseFail c).idx = s.idx := rfl
@[simp] theorem State.raiseFail_cnt (c : ResultCode) : (s.raiseFail c).cnt = s.cnt := rfl
@[simp] theorem State.raiseFail_seq (c : ResultCode) : (s.raiseFail c).seq = .stopCtl := rfl
@[simp] theorem State.raiseFail_mem (c : ResultCode) : (s.raiseFail c).mem = s.mem := rfl
@[simp] theorem State.raiseFail_hostRaced (c : ResultCode) : (s.raiseFail c).hostRaced = s.hostRaced := rfl
@[simp] theorem State.raiseFail_blockRaced (c : ResultCode) : (s.raiseFail c).blockRaced = s.blockRaced := rfl
@[simp] theorem State.raiseFail_trace (c : ResultCode) : (s.raiseFail c).trace = s.trace := rfl
@[simp] theorem State.raiseFail_ret (c : ResultCode) : (s.raiseFail c).ret = s.ret := rfl
@[simp] theorem State.raiseFail_retByte (c : ResultCode) : (s.raiseFail c).retByte = s.retByte := rfl
@[simp] theorem State.raiseFail_inbox (c : ResultCode) : (s.raiseFail c).inbox = s.inbox := rfl
@[simp] theorem State.raiseFail_answers (c : ResultCode) : (s.raiseFail c).answers = s.answers := rfl
@[simp] theorem State.raiseFail_draws (c : ResultCode) : (s.raiseFail c).draws = s.draws := rfl
@[simp] theorem State.raiseFail_raceDraws (c : ResultCode) : (s.raiseFail c).raceDraws = s.raceDraws := rfl

/-! ### complete -/

@[simp] theorem State.complete_cfg (c : ResultCode) : (s.complete c).cfg = s.cfg := rfl
@[simp] theorem State.complete_freq (c : ResultCode) : (s.complete c).freq = s.freq := rfl
@[simp] theorem State.complete_addr (c : ResultCode) : (s.complete c).addr = s.addr := rfl
@[simp] theorem State.complete_buf (c : ResultCode) : (s.complete c).buf = s.buf := rfl
@[simp] theorem State.complete_len (c : ResultCode) : (s.complete c).len = s.len := rfl
@[simp] theorem State.complete_timeout (c : ResultCode) : (s.complete c).timeout = s.timeout := rfl
@[simp] theorem State.complete_busy (c : ResultCode) : (s.complete c).busy = false := rfl
@[simp] theorem State.complete_initialized (c : ResultCode) : (s.complete c).initialized = s.initialized := rfl
@[simp] theorem State.complete_done (c : ResultCode) : (s.complete c).done = true := rfl
@[simp] theorem State.complete_result (c : ResultCode) : (s.complete c).result = c := rfl
@[simp] theorem State.complete_txState (c : ResultCode) : (s.complete c).txState = s.txState := rfl
@[simp] theorem State.complete_op (c : ResultCode) : (s.complete c).op = .none := rfl
@[simp] theorem State.complete_dir (c : ResultCode) : (s.complete c).dir = s.dir := rfl
@[simp] theorem State.complete_idx (c : ResultCode) : (s.complete c).idx = s.idx := rfl
@[simp] theorem State.complete_cnt (c : ResultCode) : (s.complete c).cnt = s.cnt := rfl
@[simp] theorem State.complete_err (c : ResultCode) : (s.complete c).err = s.err := rfl
@[simp] theorem State.complete_seq (c : ResultCode) : (s.complete c).seq = .idle := rfl
@[simp] theorem State.complete_mem (c : ResultCode) : (s.complete c).mem = s.mem := rfl
@[simp] theorem State.complete_hostRaced (c : ResultCode) : (s.complete c).hostRaced = [] := rfl
@[simp] theorem State.complete_blockRaced (c : ResultCode) : (s.complete c).blockRaced = [] := rfl
@[simp] theorem State.complete_trace (c : ResultCode) : (s.complete c).trace = s.trace := rfl
@[simp] theorem State.complete_ret (c : ResultCode) : (s.complete c).ret = s.ret := rfl
@[simp] theorem State.complete_retByte (c : ResultCode) : (s.complete c).retByte = s.retByte := rfl
@[simp] theorem State.complete_inbox (c : ResultCode) : (s.complete c).inbox = s.inbox := rfl
@[simp] theorem State.complete_answers (c : ResultCode) : (s.complete c).answers = s.answers := rfl
@[simp] theorem State.complete_draws (c : ResultCode) : (s.complete c).draws = s.draws := rfl
@[simp] theorem State.complete_raceDraws (c : ResultCode) : (s.complete c).raceDraws = s.raceDraws := rfl

/-! ### popped -/

@[simp] theorem State.popped_cfg : (s.popped).cfg = s.cfg := rfl
@[simp] theorem State.popped_freq : (s.popped).freq = s.freq := rfl
@[simp] theorem State.popped_addr : (s.popped).addr = s.addr := rfl
@[simp] theorem State.popped_buf : (s.popped).buf = s.buf := rfl
@[simp] theorem State.popped_len : (s.popped).len = s.len := rfl
@[simp] theorem State.popped_timeout : (s.popped).timeout = s.timeout := rfl
@[simp] theorem State.popped_busy : (s.popped).busy = s.busy := rfl
@[simp] theorem State.popped_initialized : (s.popped).initialized = s.initialized := rfl
@[simp] theorem State.popped_done : (s.popped).done = s.done := rfl
@[simp] theorem State.popped_result : (s.popped).result = s.result := rfl
@[simp] theorem State.popped_txState : (s.popped).txState = s.txState := rfl
@[simp] theorem State.popped_op : (s.popped).op = s.op := rfl
@[simp] theorem State.popped_dir : (s.popped).dir = s.dir := rfl
@[simp] theorem State.popped_idx : (s.popped).idx = s.idx := rfl
@[simp] theorem State.popped_cnt : (s.popped).cnt = s.cnt := rfl
@[simp] theorem State.popped_err : (s.popped).err = s.err := rfl
@[simp] theorem State.popped_seq : (s.popped).seq = s.seq := rfl
@[simp] theorem State.popped_mem : (s.popped).mem = s.mem := rfl
@[simp] theorem State.popped_hostRaced : (s.popped).hostRaced = s.hostRaced := rfl
@[simp] theorem State.popped_blockRaced : (s.popped).blockRaced = s.blockRaced := rfl
@[simp] theorem State.popped_trace : (s.popped).trace = s.trace := rfl
@[simp] theorem State.popped_ret : (s.popped).ret = s.ret := rfl
@[simp] theorem State.popped_retByte : (s.popped).retByte = s.retByte := rfl
@[simp] theorem State.popped_inbox : (s.popped).inbox = s.inbox.tail := rfl
@[simp] theorem State.popped_answers : (s.popped).answers = s.answers := rfl
@[simp] theorem State.popped_draws : (s.popped).draws = s.draws := rfl
@[simp] theorem State.popped_raceDraws : (s.popped).raceDraws = s.raceDraws := rfl

/-- The first error is kept (R176). -/
@[simp] theorem State.raiseFail_err (c : ResultCode) : (s.raiseFail c).err = some (s.err.getD c) := by
  cases h : s.err <;> simp [State.raiseFail, h]

/-! ### answered -/

/-- Taking an answer changes the answers left and the draw counter only. -/
theorem State.answered_eq : s.answered = { s with answers := s.answered.answers, draws := s.answered.draws } := by
  unfold State.answered
  split <;> rfl

@[simp] theorem State.answered_cfg : s.answered.cfg = s.cfg := by rw [State.answered_eq]
@[simp] theorem State.answered_freq : s.answered.freq = s.freq := by rw [State.answered_eq]
@[simp] theorem State.answered_addr : s.answered.addr = s.addr := by rw [State.answered_eq]
@[simp] theorem State.answered_buf : s.answered.buf = s.buf := by rw [State.answered_eq]
@[simp] theorem State.answered_len : s.answered.len = s.len := by rw [State.answered_eq]
@[simp] theorem State.answered_timeout : s.answered.timeout = s.timeout := by rw [State.answered_eq]
@[simp] theorem State.answered_busy : s.answered.busy = s.busy := by rw [State.answered_eq]
@[simp] theorem State.answered_initialized : s.answered.initialized = s.initialized := by rw [State.answered_eq]
@[simp] theorem State.answered_done : s.answered.done = s.done := by rw [State.answered_eq]
@[simp] theorem State.answered_result : s.answered.result = s.result := by rw [State.answered_eq]
@[simp] theorem State.answered_txState : s.answered.txState = s.txState := by rw [State.answered_eq]
@[simp] theorem State.answered_op : s.answered.op = s.op := by rw [State.answered_eq]
@[simp] theorem State.answered_dir : s.answered.dir = s.dir := by rw [State.answered_eq]
@[simp] theorem State.answered_idx : s.answered.idx = s.idx := by rw [State.answered_eq]
@[simp] theorem State.answered_cnt : s.answered.cnt = s.cnt := by rw [State.answered_eq]
@[simp] theorem State.answered_err : s.answered.err = s.err := by rw [State.answered_eq]
@[simp] theorem State.answered_seq : s.answered.seq = s.seq := by rw [State.answered_eq]
@[simp] theorem State.answered_mem : s.answered.mem = s.mem := by rw [State.answered_eq]
@[simp] theorem State.answered_hostRaced : s.answered.hostRaced = s.hostRaced := by rw [State.answered_eq]
@[simp] theorem State.answered_blockRaced : s.answered.blockRaced = s.blockRaced := by rw [State.answered_eq]
@[simp] theorem State.answered_trace : s.answered.trace = s.trace := by rw [State.answered_eq]
@[simp] theorem State.answered_ret : s.answered.ret = s.ret := by rw [State.answered_eq]
@[simp] theorem State.answered_retByte : s.answered.retByte = s.retByte := by rw [State.answered_eq]
@[simp] theorem State.answered_inbox : s.answered.inbox = s.inbox := by rw [State.answered_eq]
@[simp] theorem State.answered_raceDraws : s.answered.raceDraws = s.raceDraws := by rw [State.answered_eq]

/-- What answers are left depends on the answers alone, and how many free answers have been drawn on them and the counter. -/
theorem State.answered_congr {s t : State} (h : s.answers = t.answers) (h' : s.draws = t.draws) :
    s.answered.answers = t.answered.answers ∧ s.answered.draws = t.answered.draws := by
  unfold State.answered
  rw [h, h']
  cases t.answers <;> simp

end Sys2Proof.Machine
end

