-- ==== Sys2Proof/Laws/Moves.lean ====
section
/-! SUPPORT. What a turn can do, said once: `BlockMove` lists the moves of BLOCK position by position, `HostMove` what an access to
HOSTREG can do, `TurnMove` what a step can do. Later proofs split on these and unfold no operation. -/

namespace Sys2Proof.Machine

/-- The moves of BLOCK. -/
inductive BlockMove (s : State) (later : List Byte) : State → Prop
  | idle : s.seq = .idle → BlockMove s later s
  | initCheckIn : s.seq = .initCheck → s.cfg.supportedFreqs.contains s.freq = true →
      BlockMove s later { s with seq := .initDiv (divisor s.cfg s.freq) }
  | initCheckOut : s.seq = .initCheck → s.cfg.supportedFreqs.contains s.freq = false → BlockMove s later (s.complete .notInitialized)
  | initDiv (d : Byte) : s.seq = .initDiv d → BlockMove s later { s.portWrite .divr d with seq := .initPresc }
  | initPresc : s.seq = .initPresc → BlockMove s later { s.portWrite .psr s.cfg.prescCode with seq := .initFlag }
  | initFlag : s.seq = .initFlag → BlockMove s later { s.flagInitialized with seq := .initDone }
  | initDone : s.seq = .initDone → BlockMove s later (s.complete .ok)
  | notInitialized : s.seq = .precheck → s.initialized = false → BlockMove s later (s.complete .notInitialized)
  | invalidBuffer : s.seq = .precheck → s.initialized = true → s.buf = 0 ∨ s.len = 0 → BlockMove s later (s.complete .invalidBuffer)
  | precheckPass : s.seq = .precheck → s.initialized = true → s.buf ≠ 0 → s.len ≠ 0 → BlockMove s later { s with seq := .txnBegin }
  | txnBegin : s.seq = .txnBegin →
      BlockMove s later { s.setTxState .idle with dir := s.op == .recv, err := none, seq := .startCtl }
  | startCtl : s.seq = .startCtl → BlockMove s later ((s.portWrite .cr s.cfg.ctlStart).enterWait .start)
  | addrData : s.seq = .addrData → BlockMove s later { s.portWrite .dr (slaByte s.addr s.dir) with seq := .addrCtl }
  | addrCtl : s.seq = .addrCtl → BlockMove s later ((s.portWrite .cr s.cfg.ctlCont).enterWait .address)
  | flagSet (p : Phase) : s.seq = .flag p → s.cnt < s.timeout → completionFlag s.answer = true →
      BlockMove s later { s with
        trace := s.trace ++ [.portRead .cr s.answer], answers := s.answered.answers,
        draws := s.answered.draws, cnt := 0, seq := .status p }
  | flagClear (p : Phase) : s.seq = .flag p → s.cnt < s.timeout → completionFlag s.answer = false →
      BlockMove s later { s with
        trace := s.trace ++ [.portRead .cr s.answer], answers := s.answered.answers,
        draws := s.answered.draws, cnt := s.cnt + 1, seq := .flag p }
  | flagSpent (p : Phase) : s.seq = .flag p → ¬ s.cnt < s.timeout → BlockMove s later (s.raiseFail .timeout)
  | statusMatch (p : Phase) : s.seq = .status p → s.cnt < s.timeout →
      matchesCode s.cfg s.answer (expected s.cfg p s.dir) = true →
      BlockMove s later { s with
        trace := s.trace ++ [.portRead .psr s.answer], answers := s.answered.answers,
        draws := s.answered.draws, cnt := s.cnt + 1, seq := afterMatch p s.dir }
  | statusOther (p : Phase) : s.seq = .status p → s.cnt < s.timeout →
      matchesCode s.cfg s.answer (expected s.cfg p s.dir) = false →
      BlockMove s later { s with
        trace := s.trace ++ [.portRead .psr s.answer], answers := s.answered.answers,
        draws := s.answered.draws, cnt := s.cnt + 1, seq := .status p }
  | statusSpent (p : Phase) : s.seq = .status p → ¬ s.cnt < s.timeout → BlockMove s later (s.raiseFail .timeout)
  | startOk : s.seq = .phaseOk .start → BlockMove s later { s.setTxState .started with seq := .addrData }
  | addressOk : s.seq = .phaseOk .address → BlockMove s later { s.setTxState .addressSent with idx := 0, seq := .dataHead }
  | dataOk (l : Bool) : s.seq = .phaseOk (.data l) →
      BlockMove s later { s.setTxState .dataByte with idx := s.idx + 1, seq := .dataHead }
  | nextTx : s.seq = .dataHead → s.idx < s.len → s.dir = false → BlockMove s later { s with seq := .txRead }
  | nextRx : s.seq = .dataHead → s.idx < s.len → s.dir = true → BlockMove s later { s with seq := .rxCtl s.isLast }
  | dataEnd : s.seq = .dataHead → ¬ s.idx < s.len → BlockMove s later { s with seq := .stopCtl }
  | txRead : s.seq = .txRead → s.cfg.bufmemValid (s.ea s.idx) = true →
      BlockMove s later { s.memRead later (s.ea s.idx) with seq := .txPut (s.blockSees later (s.ea s.idx)) }
  | txPut (b : Byte) : s.seq = .txPut b → BlockMove s later { s.portWrite .dr b with seq := .txCtl }
  | txCtl : s.seq = .txCtl → BlockMove s later ((s.portWrite .cr s.cfg.ctlCont).enterWait (.data s.isLast))
  | rxLast : s.seq = .rxCtl true → BlockMove s later ((s.portWrite .cr s.cfg.ctlCont).enterWait (.data true))
  | rxMore : s.seq = .rxCtl false → BlockMove s later ((s.portWrite .cr s.cfg.ctlContAck).enterWait (.data false))
  | rxRead : s.seq = .rxRead → BlockMove s later { s with
        trace := s.trace ++ [.portRead .dr s.answer], answers := s.answered.answers,
        draws := s.answered.draws, seq := .rxStore s.answer }
  | rxStore (d : Byte) : s.seq = .rxStore d → s.cfg.bufmemValid (s.ea s.idx) = true →
      BlockMove s later { s.memWrite (s.ea s.idx) d with seq := .phaseOk (.data s.isLast) }
  | stopCtl : s.seq = .stopCtl → BlockMove s later { s.portWrite .cr s.cfg.ctlStop with seq := .stopped }
  | stopped : s.seq = .stopped → BlockMove s later { s.setTxState .stopped with seq := .finish }
  | finish : s.seq = .finish → BlockMove s later (s.complete (s.err.getD .ok))

/-- A BLOCK turn with a next state is one of the moves. -/
theorem State.blockTurn_move {s t : State} {later : List Byte} (h : s.blockTurn later = .next t) : BlockMove s later t := by
  cases hq : s.seq with
  | flag p =>
    by_cases hc : s.cnt < s.timeout
    · by_cases hf : completionFlag s.answer = true
      · simp [blockTurn, portOp, hq, hc, exec, execPrFlag, forPortOp, Instr.isPortRead, hf] at h
        exact h ▸ .flagSet p hq hc hf
      · simp [blockTurn, portOp, hq, hc, exec, execPrFlag, forPortOp, Instr.isPortRead, hf] at h
        exact h ▸ .flagClear p hq hc (by simpa using hf)
    · simp [blockTurn, portOp, hq, hc, internalStep] at h
      exact h ▸ .flagSpent p hq hc
  | status p =>
    by_cases hc : s.cnt < s.timeout
    · by_cases hf : matchesCode s.cfg s.answer (expected s.cfg p s.dir) = true
      · simp [blockTurn, portOp, hq, hc, exec, execPrStatus, forPortOp, Instr.isPortRead, hf] at h
        exact h ▸ .statusMatch p hq hc hf
      · simp [blockTurn, portOp, hq, hc, exec, execPrStatus, forPortOp, Instr.isPortRead, hf] at h
        exact h ▸ .statusOther p hq hc (by simpa using hf)
    · simp [blockTurn, portOp, hq, hc, internalStep] at h
      exact h ▸ .statusSpent p hq hc
  | idle =>
    simp [blockTurn, portOp, hq, internalStep] at h
    exact h ▸ .idle hq
  | initCheck =>
    simp [blockTurn, portOp, hq, internalStep, initCheckStep] at h
    split at h
    · next hf => exact h ▸ .initCheckIn hq (by simpa using hf)
    · next hf => exact h ▸ .initCheckOut hq (by simpa using hf)
  | initDiv d =>
    simp [blockTurn, portOp, hq, exec, execPwDiv, forPortOp, Instr.isPortRead] at h
    exact h ▸ .initDiv d hq
  | initPresc =>
    simp [blockTurn, portOp, hq, exec, execPwPresc, forPortOp, Instr.isPortRead] at h
    exact h ▸ .initPresc hq
  | initFlag =>
    simp [blockTurn, portOp, hq, internalStep] at h
    exact h ▸ .initFlag hq
  | initDone =>
    simp [blockTurn, portOp, hq, internalStep] at h
    exact h ▸ .initDone hq
  | precheck =>
    simp [blockTurn, portOp, hq, internalStep, precheckStep] at h
    split at h
    · next hi => exact h ▸ .notInitialized hq (by simpa using hi)
    · next hi =>
      split at h
      · next hb => exact h ▸ .invalidBuffer hq (by simpa using hi) (by simpa using hb)
      · next hb =>
        simp only [not_or] at hb
        exact h ▸ .precheckPass hq (by simpa using hi) hb.1 hb.2
  | txnBegin =>
    simp [blockTurn, portOp, hq, internalStep, txnBeginStep] at h
    exact h ▸ .txnBegin hq
  | startCtl =>
    simp [blockTurn, portOp, hq, exec, execPwCtlStart, forPortOp, Instr.isPortRead] at h
    exact h ▸ .startCtl hq
  | addrData =>
    simp [blockTurn, portOp, hq, exec, execPwData, forPortOp, Instr.isPortRead] at h
    exact h ▸ .addrData hq
  | addrCtl =>
    simp [blockTurn, portOp, hq, exec, execPwCtlCont, forPortOp, Instr.isPortRead] at h
    exact h ▸ .addrCtl hq
  | phaseOk p =>
    cases p with
    | start => simp [blockTurn, portOp, hq, internalStep, phaseOkStep] at h; exact h ▸ .startOk hq
    | address => simp [blockTurn, portOp, hq, internalStep, phaseOkStep] at h; exact h ▸ .addressOk hq
    | data l => simp [blockTurn, portOp, hq, internalStep, phaseOkStep] at h; exact h ▸ .dataOk l hq
  | dataHead =>
    simp [blockTurn, portOp, hq, internalStep, dataHeadStep] at h
    split at h
    · next hi =>
      cases hd : s.dir with
      | false => simp [hd] at h; exact h ▸ hd ▸ .nextTx hq hi hd
      | true => simp [hd] at h; exact h ▸ hd ▸ .nextRx hq hi hd
    · next hi => exact h ▸ .dataEnd hq hi
  | txRead =>
    simp [blockTurn, portOp, hq, internalStep, atValid] at h
    split at h
    · next hv => cases h; exact .txRead hq hv
    · cases h
  | txPut b =>
    simp [blockTurn, portOp, hq, exec, execPwData, forPortOp, Instr.isPortRead] at h
    exact h ▸ .txPut b hq
  | txCtl =>
    simp [blockTurn, portOp, hq, exec, execPwCtlCont, forPortOp, Instr.isPortRead] at h
    exact h ▸ .txCtl hq
  | rxCtl l =>
    cases l with
    | true =>
      simp [blockTurn, portOp, hq, exec, execPwCtlCont, forPortOp, Instr.isPortRead] at h
      exact h ▸ .rxLast hq
    | false =>
      simp [blockTurn, portOp, hq, exec, execPwCtlContAck, forPortOp, Instr.isPortRead] at h
      exact h ▸ .rxMore hq
  | rxRead =>
    simp [blockTurn, portOp, hq, exec, execPrData, forPortOp, Instr.isPortRead] at h
    exact h ▸ .rxRead hq
  | rxStore d =>
    simp [blockTurn, portOp, hq, internalStep, atValid] at h
    split at h
    · next hv => cases h; exact .rxStore d hq hv
    · cases h
  | stopCtl =>
    simp [blockTurn, portOp, hq, exec, execPwCtlStop, forPortOp, Instr.isPortRead] at h
    exact h ▸ .stopCtl hq
  | stopped =>
    simp [blockTurn, portOp, hq, internalStep] at h
    exact h ▸ .stopped hq
  | finish =>
    simp [blockTurn, portOp, hq, internalStep] at h
    cases he : s.err <;> simp [he] at h <;> exact h ▸ (by simpa [he] using BlockMove.finish hq)

/-- Each of the moves is what BLOCK's turn does: at each position BLOCK has exactly the moves listed. -/
theorem BlockMove.blockTurn {s t : State} {later : List Byte} (m : BlockMove s later t) : s.blockTurn later = .next t := by
  cases m with
  | notInitialized hq hi => simp [State.blockTurn, State.portOp, hq, State.internalStep, State.precheckStep, hi]
  | invalidBuffer hq hi hb =>
    have hb' : s.buf = 0#32 ∨ s.len = 0#32 := hb
    simp only [State.blockTurn, State.portOp, hq, State.internalStep, State.precheckStep, hi]
    simp [hb']
  | precheckPass hq hi hb hl =>
    have hb' : ¬ s.buf = 0#32 := hb
    have hl' : ¬ s.len = 0#32 := hl
    simp [State.blockTurn, State.portOp, hq, State.internalStep, State.precheckStep, hi, hb', hl']
  | initCheckIn hq hf => simp [State.blockTurn, State.portOp, hq, State.internalStep, State.initCheckStep, by simpa using hf]
  | initCheckOut hq hf => simp [State.blockTurn, State.portOp, hq, State.internalStep, State.initCheckStep, by simpa using hf]
  | nextTx hq hi hd | nextRx hq hi hd => simp [State.blockTurn, State.portOp, hq, State.internalStep, State.dataHeadStep, hi, hd]
  | dataEnd hq hi => simp [State.blockTurn, State.portOp, hq, State.internalStep, State.dataHeadStep, hi]
  | txRead hq hv | rxStore d hq hv => simp [State.blockTurn, State.portOp, hq, State.internalStep, State.atValid, hv]
  | flagSet p hq hc hf | flagClear p hq hc hf =>
    simp [State.blockTurn, State.portOp, hq, hc, exec, execPrFlag, State.forPortOp, Instr.isPortRead, hf]
  | flagSpent p hq hc | statusSpent p hq hc => simp [State.blockTurn, State.portOp, hq, hc, State.internalStep]
  | statusMatch p hq hc hf | statusOther p hq hc hf =>
    simp [State.blockTurn, State.portOp, hq, hc, exec, execPrStatus, State.forPortOp, Instr.isPortRead, hf]
  | rxRead hq => simp [State.blockTurn, State.portOp, hq, exec, execPrData, State.forPortOp, Instr.isPortRead]
  | finish hq => cases he : s.err <;> simp [State.blockTurn, State.portOp, hq, State.internalStep, he]
  | startOk hq | addressOk hq | dataOk l hq => simp [State.blockTurn, State.portOp, hq, State.internalStep, State.phaseOkStep]
  | idle hq | initFlag hq | initDone hq | txnBegin hq | stopped hq =>
    simp [State.blockTurn, State.portOp, hq, State.internalStep, State.txnBeginStep]
  | initDiv d hq => simp [State.blockTurn, State.portOp, hq, exec, execPwDiv, State.forPortOp, Instr.isPortRead]
  | initPresc hq => simp [State.blockTurn, State.portOp, hq, exec, execPwPresc, State.forPortOp, Instr.isPortRead]
  | startCtl hq => simp [State.blockTurn, State.portOp, hq, exec, execPwCtlStart, State.forPortOp, Instr.isPortRead]
  | addrData hq | txPut b hq => simp [State.blockTurn, State.portOp, hq, exec, execPwData, State.forPortOp, Instr.isPortRead]
  | addrCtl hq | txCtl hq | rxLast hq =>
    simp [State.blockTurn, State.portOp, hq, exec, execPwCtlCont, State.forPortOp, Instr.isPortRead]
  | rxMore hq => simp [State.blockTurn, State.portOp, hq, exec, execPwCtlContAck, State.forPortOp, Instr.isPortRead]
  | stopCtl hq => simp [State.blockTurn, State.portOp, hq, exec, execPwCtlStop, State.forPortOp, Instr.isPortRead]

/-- Where BLOCK has a move it is not stuck (R52). -/
theorem BlockMove.stuckAt {s t : State} {later : List Byte} (m : BlockMove s later t) : s.stuckAt = none := by
  cases m with
  | txRead hq hv | rxStore d hq hv => simp [State.stuckAt, hq, hv]
  | _ => simp_all [State.stuckAt]

/-- What is kept of a word fits the bits it is kept in. -/
theorem keepBits_lt (w : Nat) (v : Word) : (keepBits w v).toNat < 2 ^ w := by
  have h : v.toNat % 2 ^ w < 2 ^ 32 := lt_of_le_of_lt (Nat.mod_le _ _) v.isLt
  rw [keepBits, BitVec.toNat_ofNat, Nat.mod_eq_of_lt h]
  exact Nat.mod_lt _ (Nat.two_pow_pos w)

/-- What an access to HOSTREG does: nothing, a value returned, an argument register written while idle, or a command accepted
while idle. -/
inductive HostMove (s : State) : State → Prop
  | nothing : HostMove s s
  | returns (v : Word) : HostMove s (s.returns v)
  | freq (v : Word) : s.busy = false → HostMove s { s with freq := v }
  | addr (v : BusAddr) : s.busy = false → HostMove s { s with addr := v }
  | buf (v : Word) : s.busy = false → v.toNat < 2 ^ s.cfg.addrW → HostMove s { s with buf := v }
  | len (v : Word) : s.busy = false → v.toNat < 2 ^ s.cfg.lenW → HostMove s { s with len := v }
  | timeout (v : Word) : s.busy = false → v.toNat < 2 ^ s.cfg.timeoutW → HostMove s { s with timeout := v }
  | accept (o : Op) : s.busy = false → o ≠ .none → HostMove s (s.accept o)

theorem State.illformedAccess_move (s : State) (we : Bool) : HostMove s (s.illformedAccess we) := by
  cases we with
  | true => exact .nothing
  | false => exact .returns 0

theorem State.gated_move {s : State} {f : State → State} (h : s.busy = false → HostMove s (f s)) :
    HostMove s (s.gated f) := by
  unfold gated
  cases hb : s.busy with
  | true => exact .nothing
  | false => exact h hb

theorem State.dispatch_move {s : State} (hb : s.busy = false) (v : Word) : HostMove s (s.dispatch v) := by
  unfold dispatch
  dsimp only
  split
  · exact .accept .init hb (by decide)
  · split
    · exact .accept .send hb (by decide)
    · split
      · exact .accept .recv hb (by decide)
      · exact .nothing

/-- Every host access has a next state, and it is one of the moves of HOST. -/
theorem exec_hostAccess_move {i : Instr} (h : i.isHostAccess = true) (s : State) : ∃ t, exec i s = .next t ∧ HostMove s t := by
  cases i with
  | rdCmd | rdStatus | rdFreq | rdAddr | rdBuf | rdLen | rdTimeout | rdRsvd1C => exact ⟨_, rfl, .returns _⟩
  | wrStatus | wrRsvd1C => exact ⟨_, rfl, .nothing⟩
  | illformedOff1 | illformedOff2 | illformedOff3 => exact ⟨_, rfl, s.illformedAccess_move _⟩
  | wrCmd v => exact ⟨_, rfl, State.gated_move fun hb => State.dispatch_move hb v⟩
  | wrFreq v => exact ⟨_, rfl, State.gated_move (f := fun s => { s with freq := v }) (.freq v)⟩
  | wrAddr v => exact ⟨_, rfl, State.gated_move (f := fun s => { s with addr := v.extractLsb' 0 7 }) (.addr _)⟩
  | wrBuf v =>
    exact ⟨_, rfl, State.gated_move (f := fun s => { s with buf := keepBits s.cfg.addrW v }) fun h => .buf _ h (keepBits_lt _ v)⟩
  | wrLen v =>
    exact ⟨_, rfl, State.gated_move (f := fun s => { s with len := keepBits s.cfg.lenW v }) fun h => .len _ h (keepBits_lt _ v)⟩
  | wrTimeout v =>
    exact ⟨_, rfl,
      State.gated_move (f := fun s => { s with timeout := keepBits s.cfg.timeoutW v }) fun h => .timeout _ h (keepBits_lt _ v)⟩
  | _ => exact absurd (show false = true from h) (by decide)

theorem decodeRegister_isHostAccess (we : Bool) (sel : BitVec 3) (v : Word) :
    (decodeRegister we sel v).isHostAccess = true := by
  unfold decodeRegister
  cases we <;> simp only [if_true, Bool.false_eq_true, if_false] <;> repeat' split
  all_goals rfl

/-- A HOST access decodes to an instruction of its format. -/
theorem decodeHostAccess_isHostAccess (ha : BitVec 6) (d : Word) : (decodeHostAccess ha d).isHostAccess = true := by
  unfold decodeHostAccess decodeAccess
  dsimp only
  repeat' split
  all_goals first
    | exact decodeRegister_isHostAccess _ _ _
    | rfl

/-- An access always has a next state, which is one of the moves of HOST. -/
theorem State.accessTurn_move (s : State) (a : HostAccess) : ∃ t, s.accessTurn a = .next t ∧ HostMove s t := by
  unfold accessTurn
  split
  · exact exec_hostAccess_move (decodeHostAccess_isHostAccess a.ha a.d) s
  · exact ⟨_, rfl, s.illformedAccess_move _⟩

/-- What a read offset decodes to. -/
theorem decodeHostAccess_read : ∀ off : BitVec 5,
    (∃ sel v, decodeHostAccess (0#1 ++ off) 0 = .illformedOff1 false sel v) ∨
    (∃ sel v, decodeHostAccess (0#1 ++ off) 0 = .illformedOff2 false sel v) ∨
    (∃ sel v, decodeHostAccess (0#1 ++ off) 0 = .illformedOff3 false sel v) ∨
    decodeHostAccess (0#1 ++ off) 0 ∈
      [.rdCmd, .rdStatus, .rdFreq, .rdAddr, .rdBuf, .rdLen, .rdTimeout, .rdRsvd1C] := by
  have h : ∀ off : BitVec 5,
      decodeHostAccess (0#1 ++ off) 0 = .illformedOff1 false (off.extractLsb' 2 3) 0 ∨
      decodeHostAccess (0#1 ++ off) 0 = .illformedOff2 false (off.extractLsb' 2 3) 0 ∨
      decodeHostAccess (0#1 ++ off) 0 = .illformedOff3 false (off.extractLsb' 2 3) 0 ∨
      decodeHostAccess (0#1 ++ off) 0 ∈
        [.rdCmd, .rdStatus, .rdFreq, .rdAddr, .rdBuf, .rdLen, .rdTimeout, .rdRsvd1C] := by decide
  intro off
  rcases h off with h | h | h | h
  · exact .inl ⟨_, _, h⟩
  · exact .inr (.inl ⟨_, _, h⟩)
  · exact .inr (.inr (.inl ⟨_, _, h⟩))
  · exact .inr (.inr (.inr h))

/-- A read returns a value and does nothing else (R57). -/
theorem State.accessTurn_read (s : State) (off : BitVec 5) : ∃ v, s.accessTurn (readAccess off) = .next (s.returns v) := by
  have e : s.accessTurn (readAccess off) = exec (decodeHostAccess (0#1 ++ off) 0) s := rfl
  rw [e]
  rcases decodeHostAccess_read off with ⟨_, _, h⟩ | ⟨_, _, h⟩ | ⟨_, _, h⟩ | h
  · rw [h]; exact ⟨_, rfl⟩
  · rw [h]; exact ⟨_, rfl⟩
  · rw [h]; exact ⟨_, rfl⟩
  · simp only [List.mem_cons, List.not_mem_nil, or_false] at h
    rcases h with h | h | h | h | h | h | h | h <;> (rw [h]; exact ⟨_, rfl⟩)

/-- What a step can do: a move of BLOCK, of HOST, of HOST's POLL, a HOST access to BUFMEM, or the reset. -/
inductive TurnMove (s : State) (later : List Byte) : State → Prop
  | block (t : State) : s.inbox = [] → BlockMove s later t → TurnMove s later t
  | blockTurn (t : State) : s.inbox.head? = some .block → BlockMove s.popped later t → TurnMove s later t
  | blockStuck (a : Word) : s.inbox.head? = some .block → s.popped.stuckAt = some a → TurnMove s later s.popped
  | access (a : HostAccess) (t : State) : s.inbox.head? = some (.access a) → s.popped.accessTurn a = .next t →
      HostMove s.popped t → TurnMove s later t
  | pollDone (off : BitVec 5) (mask value v : Word) : s.inbox.head? = some (.poll off mask value) →
      TurnMove s later (s.popped.returns v)
  | pollAgain (off : BitVec 5) (mask value v : Word) : s.inbox.head? = some (.poll off mask value) →
      TurnMove s later { s.returns v with inbox := .block :: s.inbox }
  | bufRead (a : Word) : s.inbox.head? = some (.bufRead a) → TurnMove s later (s.popped.hostBufRead later a)
  | bufWrite (a : Word) (b : Byte) : s.inbox.head? = some (.bufWrite a b) → TurnMove s later (s.popped.hostBufWrite a b)
  | reset : s.inbox.head? = some .reset → TurnMove s later s.popped.resetBlock

/-- A step with a next state has a well-formed configuration and is one of these moves. -/
theorem stepWith_move {s t : State} {later : List Byte} (h : s.stepWith later = .next t) :
    s.cfg.wf = true ∧ TurnMove s later t := by
  unfold State.stepWith at h
  split at h
  · next hw =>
    refine ⟨hw, ?_⟩
    split at h
    · next hi => exact .block t hi (State.blockTurn_move h)
    · next u rest hi =>
      have hh : s.inbox.head? = some u := by simp [hi]
      cases u with
      | block =>
        simp only [State.takeTurn] at h
        split at h
        · next a ha =>
          cases h
          exact .blockStuck a hh ha
        · exact .blockTurn t hh (State.blockTurn_move h)
      | access a =>
        obtain ⟨t', h1, h2⟩ := s.popped.accessTurn_move a
        have h' : s.popped.accessTurn a = .next t := h
        rw [h1] at h'
        cases h'
        exact .access a t hh h h2
      | poll off mask value =>
        obtain ⟨v, hv⟩ := s.popped.accessTurn_read off
        simp only [State.takeTurn, State.pollTurn, hv] at h
        split at h
        · cases h; exact .pollDone off mask value v hh
        · cases h
          have e : ({ s.popped.returns v with inbox := .block :: .poll off mask value :: (s.popped.returns v).inbox } : State)
              = { s.returns v with inbox := .block :: s.inbox } := by
            simp [State.returns, State.popped, hi]
          rw [e]
          exact .pollAgain off mask value v hh
      | bufRead a => cases h; exact .bufRead a hh
      | bufWrite a b => cases h; exact .bufWrite a b hh
      | reset =>
        cases h
        exact .reset hh
  · cases h

/-- A step is one of these moves, with the racing values still to come. -/
theorem step_move {s t : State} (h : step s = .next t) : s.cfg.wf = true ∧ TurnMove s s.later t := stepWith_move h

end Sys2Proof.Machine
end

