-- ==== Sys2Proof/Laws/Lookahead.lean ====
section
/-! SUPPORT. The racing values still to come (Lookahead.lean): where there are none, and that what BLOCK and HOST do next does not
depend on the bytes of BUFMEM. -/

namespace Sys2Proof.Machine

/-- BLOCK takes no turn from the inbox by itself. -/
theorem BlockMove.inbox {s t : State} {later : List Byte} (m : BlockMove s later t) : t.inbox = s.inbox := by
  cases m <;> rfl

/-- No move of BLOCK changes the configuration. -/
theorem BlockMove.cfg {s t : State} {later : List Byte} (m : BlockMove s later t) : t.cfg = s.cfg := by
  cases m <;> rfl

theorem HostMove.inbox {s t : State} (m : HostMove s t) : t.inbox = s.inbox := by
  cases m <;> rfl

@[simp] theorem State.hostBufRead_inbox (s : State) (later : List Byte) (a : Word) : (s.hostBufRead later a).inbox = s.inbox := by
  unfold State.hostBufRead
  split <;> rfl

@[simp] theorem State.hostBufWrite_inbox (s : State) (a : Word) (b : Byte) : (s.hostBufWrite a b).inbox = s.inbox := by
  unfold State.hostBufWrite
  split
  · rfl
  · split <;> rfl

/-- A step brings no new turn but BLOCK's. -/
theorem TurnMove.mem_inbox {s t : State} {later : List Byte} (m : TurnMove s later t) {u : Turn} (h : u ∈ t.inbox) :
    u ∈ s.inbox ∨ u = .block := by
  have tail : u ∈ s.inbox.tail → u ∈ s.inbox ∨ u = .block := fun h => .inl (List.mem_of_mem_tail h)
  cases m with
  | block t hi hm => exact .inl (hm.inbox ▸ h)
  | blockTurn t hi hm => exact tail (by simpa [hm.inbox] using h)
  | blockStuck a hi hs => exact tail h
  | access a t hi hx hm => exact tail (by simpa [hm.inbox] using h)
  | pollDone off mask value v hi => exact tail h
  | pollAgain off mask value v hi =>
    rcases List.mem_cons.1 h with h | h
    · exact .inr h
    · exact .inl h
  | bufRead a hi => exact tail (by simpa using h)
  | bufWrite a b hi => exact tail (by simpa using h)
  | reset hi => exact tail h

/-- Where HOST has no write of the byte left, none is still to come. -/
theorem untilIdle_host_nil (a : Word) : ∀ (n : Nat) (s : State), (∀ b, Turn.bufWrite a b ∉ s.inbox) →
    State.untilIdle (fun u => u.hostWriteNow a) n s = [] := by
  intro n
  induction n with
  | zero => intros; rfl
  | succ n ih =>
    intro s h
    have now : s.hostWriteNow a = [] := by
      unfold State.hostWriteNow
      split
      · next x b rest hi =>
        split
        · next e => exact absurd (by simp [hi, e]) (h b)
        · rfl
      · rfl
    simp only [State.untilIdle, now, List.nil_append]
    split
    · split
      · next t ht =>
        exact ih t fun b hb => by
          rcases (stepWith_move ht).2.mem_inbox hb with hb | hb
          · exact h b hb
          · cases hb
      · rfl
      · rfl
    · rfl

/-- At BLOCK's turn no racing value is to come where HOST has no write of the byte BLOCK reads left. -/
theorem State.later_nil {s : State} (h : s.seq = .txRead → ∀ b, Turn.bufWrite (s.ea s.idx) b ∉ s.inbox)
    (hr : ∀ a, s.inbox.head? ≠ some (.bufRead a)) : s.later = [] := by
  unfold State.later
  split
  · next a rest hi => exact absurd (by simp [hi]) (hr a)
  · split
    · next hq => exact untilIdle_host_nil _ _ _ (h hq.1)
    · rfl

@[simp] theorem State.later_of_inbox_nil {s : State} (h : s.inbox = []) : s.later = [] :=
  s.later_nil (by simp [h]) (by simp [h])

end Sys2Proof.Machine
end

