-- ==== Sys2Proof/Laws/Memory.lean ====
section
/-! SUPPORT. BUFMEM: a read after a write, the other addresses, and the canonical form, which the one write operation keeps; and what
the free choices of a race can give. -/

namespace Sys2Proof.Machine

theorem Memory.lookup_insert (m : Memory) (a x : Nat) (b : Byte) :
    (m.insert a b).lookup x = if x = a then some b else m.lookup x := by
  induction m with
  | nil => simp [Memory.insert, Memory.lookup]
  | cons c rest ih =>
    obtain ⟨k, v⟩ := c
    simp only [Memory.insert]
    split
    · simp [Memory.lookup]
    · split
      · subst_vars
        by_cases h : x = k <;> simp [Memory.lookup, h]
      · by_cases h : x = k
        · subst h
          have : ¬ x = a := fun e => by omega
          simp [Memory.lookup, this]
        · simp [Memory.lookup, h, ih]

/-- A read after a write to the same address gives the byte written. -/
@[simp] theorem Memory.byteAt_setByte_self (m : Memory) (a : Word) (b : Byte) : (m.setByte a b).byteAt a = b := by
  simp [Memory.byteAt, Memory.setByte, Memory.lookup_insert]

/-- A write leaves every other address alone. -/
theorem Memory.byteAt_setByte_other (m : Memory) {a x : Word} (b : Byte) (h : x ≠ a) :
    (m.setByte a b).byteAt x = m.byteAt x := by
  have : ¬ x.toNat = a.toNat := fun e => h (BitVec.eq_of_toNat_eq e)
  simp [Memory.byteAt, Memory.setByte, Memory.lookup_insert, this]

/-- Raising the bound that the first address must exceed only asks more. -/
theorem Memory.risingFrom_none {lo : Option Nat} {m : Memory} (h : Memory.risingFrom lo m = true) :
    Memory.risingFrom none m = true := by
  cases m with
  | nil => rfl
  | cons c rest => cases lo <;> simp_all [Memory.risingFrom]

theorem Memory.risingFrom_insert (m : Memory) (a : Nat) (b : Byte) :
    ∀ lo : Option Nat, (∀ l, lo = some l → l < a) → Memory.risingFrom lo m = true →
      Memory.risingFrom lo (m.insert a b) = true := by
  induction m with
  | nil => intro lo hlo _; cases lo <;> simp_all [Memory.insert, Memory.risingFrom]
  | cons c rest ih =>
    obtain ⟨k, v⟩ := c
    intro lo hlo h
    simp only [Memory.insert]
    split
    · cases lo <;> simp_all [Memory.risingFrom]
    · split
      · subst_vars; cases lo <;> simp_all [Memory.risingFrom]
      · have hk : k < a := by omega
        simp only [Memory.risingFrom, Bool.and_eq_true] at h ⊢
        exact ⟨h.1, ih (some k) (fun l hl => by cases hl; exact hk) h.2⟩

theorem Memory.mem_insert {m : Memory} {a : Nat} {b : Byte} {c : Host.Cell} (h : c ∈ m.insert a b) :
    c = (a, b) ∨ c ∈ m := by
  induction m with
  | nil => simpa [Memory.insert] using h
  | cons d rest ih =>
    obtain ⟨k, v⟩ := d
    simp only [Memory.insert] at h
    split at h
    · simpa using h
    · split at h
      · simp only [List.mem_cons] at h ⊢; tauto
      · simp only [List.mem_cons] at h ⊢
        rcases h with h | h
        · exact .inr (.inl h)
        · rcases ih h with h | h <;> tauto

/-- A write keeps the canonical form. -/
theorem Memory.wf_setByte {m : Memory} {w : Nat} {a : Word} (b : Byte) (ha : a.toNat < 2 ^ w) (h : m.wf w = true) :
    (m.setByte a b).wf w = true := by
  simp only [Memory.wf, Bool.and_eq_true, List.all_eq_true, decide_eq_true_eq] at h ⊢
  refine ⟨Memory.risingFrom_insert m a.toNat b none (fun l hl => nomatch hl) h.1, fun c hc => ?_⟩
  rcases Memory.mem_insert hc with rfl | hc
  · exact ha
  · exact h.2 c hc

/-- An address with memory has `ADDR_W` bits (R50, R52). -/
theorem bufmemValid_lt {p : Params} {a : Word} (h : p.bufmemValid a = true) : a.toNat < 2 ^ p.addrW := by
  simp only [Params.bufmemValid, Bool.and_eq_true, decide_eq_true_eq] at h
  exact h.1

/-! ### Races (R62, R195) -/

/-- A free choice gives one of the candidates. -/
theorem pickValue_cases (n : Nat) (cur : Byte) (others : List Byte) :
    pickValue n cur others = cur ∨ pickValue n cur others ∈ others := by
  unfold pickValue
  cases others with
  | nil => exact .inl rfl
  | cons o os =>
    have hlt : Config.raceDraw n % (os.length + 2) < (cur :: o :: os).length := Nat.mod_lt _ (by omega)
    have h := List.getElem_mem hlt
    simp only [List.getD_eq_getElem?_getD, List.getElem?_eq_getElem hlt, Option.getD_some]
    exact List.mem_cons.1 h

/-- A free choice is a draw over the whole list of candidates. -/
theorem pickValue_eq (n : Nat) (cur : Byte) (others : List Byte) :
    pickValue n cur others = (cur :: others).getD (Config.raceDraw n % (cur :: others).length) cur := by
  cases others with
  | nil => simp [pickValue, Nat.mod_one]
  | cons o os => rfl

/-- A choice draws exactly where there is more than one candidate. -/
theorem drawsAfterPick_eq (n : Nat) (cur : Byte) (others : List Byte) :
    drawsAfterPick n others = if (cur :: others).length = 1 then n else n + 1 := by
  cases others <;> simp [drawsAfterPick]

/-- A racing write leaves one of the two bytes, by a draw. -/
theorem State.survivor_raced (s : State) (a : Word) (b : Byte) {others : List Byte} (h : others ≠ []) :
    s.survivor a b others = [b, s.mem.byteAt a].getD (Config.raceDraw s.raceDraws % 2) b := by
  simp [State.survivor, h, pickValue]

/-- A write leaves its own byte and displaces the one that was there; or, in a race, it may be the other way round. -/
theorem State.survivor_cases (s : State) (a : Word) (b : Byte) (others : List Byte) :
    (s.survivor a b others = b ∧ s.displaced a b (s.survivor a b others) = s.mem.byteAt a) ∨
      (others ≠ [] ∧ s.survivor a b others = s.mem.byteAt a ∧ s.displaced a b (s.survivor a b others) = b) := by
  by_cases hl : s.survivor a b others = b
  · exact .inl ⟨hl, by simp [State.displaced, hl]⟩
  · refine .inr ?_
    by_cases h : others = []
    · simp [State.survivor, h] at hl
    · have hs : s.survivor a b others = pickValue s.raceDraws b [s.mem.byteAt a] := by simp [State.survivor, h]
      have hv := (pickValue_cases s.raceDraws b [s.mem.byteAt a]).resolve_left (hs ▸ hl)
      exact ⟨h, by simpa [hs] using hv, by simp [State.displaced, hl]⟩

@[simp] theorem racedAt_nil (a : Word) : racedAt [] a = [] := rfl

@[simp] theorem racedAt_cons_self (cells : List Host.Cell) (a : Word) (v : Byte) :
    racedAt ((a.toNat, v) :: cells) a = v :: racedAt cells a := by
  simp [racedAt]

theorem racedAt_cons_other (cells : List Host.Cell) {a x : Word} (v : Byte) (h : x ≠ a) :
    racedAt ((a.toNat, v) :: cells) x = racedAt cells x := by
  have : ¬ a.toNat = x.toNat := fun e => h (BitVec.eq_of_toNat_eq e.symm)
  simp [racedAt, this]

/-! ### What HOST's accesses to BUFMEM change -/

/-- A HOST read of BUFMEM changes what it returns, and may make a free choice. -/
theorem State.hostBufRead_eq (s : State) (later : List Byte) (a : Word) :
    ∃ b n, s.hostBufRead later a = { s with retByte := b, raceDraws := n } := by
  unfold State.hostBufRead
  split <;> exact ⟨_, _, rfl⟩

/-- A HOST write of BUFMEM changes that byte of BUFMEM alone, with the record of its race. -/
theorem State.hostBufWrite_eq (s : State) (a : Word) (b : Byte) :
    ∃ m r n, s.hostBufWrite a b = { s with mem := m, hostRaced := r, raceDraws := n } ∧
      (∀ x : Word, x ≠ a → m.byteAt x = s.mem.byteAt x) ∧ (∀ x : Word, x ≠ a → racedAt r x = racedAt s.hostRaced x) := by
  unfold State.hostBufWrite
  split
  · exact ⟨_, _, _, rfl, fun _ _ => rfl, fun _ _ => rfl⟩
  · split
    · exact ⟨_, _, _, rfl, fun x h => s.mem.byteAt_setByte_other _ h, fun x h => racedAt_cons_other _ _ h⟩
    · exact ⟨_, _, _, rfl, fun x h => s.mem.byteAt_setByte_other _ h, fun _ _ => rfl⟩

end Sys2Proof.Machine
end

