-- ==== Sys2Proof/Laws/Alike.lean ====
section
/-! SUPPORT. BLOCK in two states that stand alike for it: what it does next does not depend on HOST's turns to come, and not on the
bytes of BUFMEM but for the byte it sends. -/

namespace Sys2Proof.Machine

/-- BLOCK stands alike in `s` and in `u`: HOST's turns to come, what HOST's reads returned, and the bytes of BUFMEM may differ, and
with the bytes what BLOCK sends. -/
structure Alike (s u : State) : Prop where
  same     : s = { u with
    seq := s.seq, trace := s.trace, mem := s.mem, hostRaced := s.hostRaced, blockRaced := s.blockRaced, ret := s.ret
    retByte := s.retByte, inbox := s.inbox, raceDraws := s.raceDraws }
  position : s.seq = u.seq ∨ ∃ b b', s.seq = .txPut b ∧ u.seq = .txPut b'
  length   : s.trace.length = u.trace.length

/-- Beside that, HOST has not written and will not write the buffer during the command, so BLOCK sends the same bytes. -/
structure Quiet (s u : State) : Prop where
  position : s.seq = u.seq
  trace    : s.trace = u.trace
  unraced  : ∀ i : Word, i < u.len → racedAt s.hostRaced (u.ea i) = []
  unraced' : u.hostRaced = []
  mem      : ∀ i : Word, i < u.len → s.mem.byteAt (u.ea i) = u.mem.byteAt (u.ea i)
  noWrite  : ∀ (i : Word) (b : Byte), i < u.len → Turn.bufWrite (u.ea i) b ∉ s.inbox
  idxOk    : inDataPhase u.seq = true → u.idx < u.len

/-- Beside that, HOST has not written and will not write BUFMEM at all. -/
structure Still (s u : State) : Prop where
  unraced  : s.hostRaced = []
  unraced' : u.hostRaced = []
  mem      : s.mem = u.mem
  noWrite  : ∀ (a : Word) (b : Byte), Turn.bufWrite a b ∉ s.inbox

theorem Alike.busy {s u : State} (h : Alike s u) : s.busy = u.busy := by rw [h.same]
theorem Alike.cfg {s u : State} (h : Alike s u) : s.cfg = u.cfg := by rw [h.same]
theorem Alike.ea {s u : State} (h : Alike s u) (i : Word) : s.ea i = u.ea i := by rw [h.same]; rfl
theorem Alike.idx {s u : State} (h : Alike s u) : s.idx = u.idx := by rw [h.same]

/-- Alike states are stuck alike (R52). -/
theorem Alike.stuckAt {s u : State} (h : Alike s u) : s.stuckAt = u.stuckAt := by
  rcases h.position with hq | ⟨b, c, hs, hu⟩
  · unfold State.stuckAt
    rw [h.idx, h.ea, h.cfg, hq]
  · simp [State.stuckAt, hs, hu]

/-- A data phase is that of a byte of the buffer, from one move of BLOCK to the next (R124). -/
theorem BlockMove.idx_lt {s t : State} {later : List Byte} (m : BlockMove s later t)
    (h : inDataPhase s.seq = true → s.idx < s.len) : inDataPhase t.seq = true → t.idx < t.len := by
  cases m with
  | statusMatch p hq hc hm =>
    cases p with
    | start | address => intro hp; simp [afterMatch, inDataPhase] at hp
    | data l => exact fun _ => h (by simp [hq, inDataPhase])
  | nextTx hq hi hd | nextRx hq hi hd => exact fun _ => hi
  | flagSet p hq | flagClear p hq | statusOther p hq =>
    cases p with
    | start | address => intro hp; simp [inDataPhase] at hp
    | data l => exact fun _ => h (by simp [hq, inDataPhase])
  | idle hq => exact h
  | txRead hq | txPut b hq | txCtl hq | rxLast hq | rxMore hq | rxRead hq | rxStore d hq => exact fun _ => h (by simp [hq, inDataPhase])
  | _ => intro hp; simp [inDataPhase] at hp

/-- A move of BLOCK that ends the command leads to the idle point (R107). -/
theorem BlockMove.ends {s t : State} {later : List Byte} (m : BlockMove s later t) (hb : s.busy = true) (ht : t.busy = false) :
    t.seq = .idle := by
  cases m <;> first
    | rfl
    | (exfalso; simp [State.memRead, State.memWrite, hb] at ht)

/-- A pair of moves of BLOCK that change the same fields alike. -/
theorem Alike.of_move {s s' u u' : State} (h : Alike s u) {l later : List Byte} (m : BlockMove u l u') (m' : BlockMove s later s')
    (hs : s' = { u' with
      seq := s'.seq, trace := s'.trace, mem := s'.mem, hostRaced := s'.hostRaced, blockRaced := s'.blockRaced, ret := s'.ret
      retByte := s'.retByte, inbox := s'.inbox, raceDraws := s'.raceDraws })
    (hq : s'.seq = u'.seq) (ht : ∃ es, s'.trace = s.trace ++ es ∧ u'.trace = u.trace ++ es)
    (hr : s'.hostRaced = s.hostRaced ∧ u'.hostRaced = u.hostRaced ∨ s'.hostRaced = [] ∧ u'.hostRaced = [])
    (hm : s'.mem = s.mem ∧ u'.mem = u.mem) (hf : u'.len = u.len ∧ u'.buf = u.buf ∧ u'.cfg = u.cfg) :
    ∃ s', BlockMove s later s' ∧ Alike s' u' ∧ (Quiet s u → l = [] ∧ later = [] → Quiet s' u') ∧ (Still s u → Still s' u') := by
  obtain ⟨es, ht, ht'⟩ := ht
  obtain ⟨hl, hb, hc⟩ := hf
  have hea : ∀ i, u'.ea i = u.ea i := fun i => by simp [State.ea, hb, hc]
  refine ⟨s', m', ⟨hs, .inl hq, by simp [ht, ht', h.length]⟩,
    fun k _ => ⟨hq, by rw [ht, ht', k.trace], fun i hi => ?_, ?_, fun i hi => ?_, fun i b hi => ?_, m.idx_lt k.idxOk⟩,
    fun k => ⟨?_, ?_, ?_, ?_⟩⟩
  · rcases hr with ⟨hr, -⟩ | ⟨hr, -⟩
    · rw [hr, hea]; exact k.unraced i (hl ▸ hi)
    · rw [hr]; rfl
  · rcases hr with ⟨-, hr⟩ | ⟨-, hr⟩
    · exact hr.trans k.unraced'
    · exact hr
  · rw [hm.1, hm.2, hea]; exact k.mem i (hl ▸ hi)
  · rw [m'.inbox, hea]; exact k.noWrite i b (hl ▸ hi)
  · rcases hr with ⟨hr, -⟩ | ⟨hr, -⟩
    · exact hr.trans k.unraced
    · exact hr
  · rcases hr with ⟨-, hr⟩ | ⟨-, hr⟩
    · exact hr.trans k.unraced'
    · exact hr
  · rw [hm.1, hm.2]; exact k.mem
  · rw [m'.inbox]; exact k.noWrite

/-- No event on either side. -/
theorem noEvents (s u : State) : ∃ es, s.trace = s.trace ++ es ∧ u.trace = u.trace ++ es :=
  ⟨[], (List.append_nil _).symm, (List.append_nil _).symm⟩

/-- A move of BLOCK in one of two alike states is a move of it in the other, to alike states. They stay quiet unless a racing value
is still to come. -/
theorem Alike.blockMove {s u u' : State} (h : Alike s u) {l : List Byte} (m : BlockMove u l u') (later : List Byte) :
    ∃ s', BlockMove s later s' ∧ Alike s' u' ∧ (Quiet s u → l = [] ∧ later = [] → Quiet s' u') ∧ (Still s u → Still s' u') := by
  have h₀ := h
  have hidx := m.idx_lt
  obtain ⟨hs, hp, hlen⟩ := h
  generalize s.seq = q, s.trace = tr, s.mem = mm, s.hostRaced = hr, s.blockRaced = br, s.ret = r, s.retByte = rb, s.inbox = ib,
    s.raceDraws = rd at hs hp hlen
  subst hs
  have pos : ∀ {x : Seq} (_ : u.seq = x) (_ : ∀ b, x ≠ .txPut b := by simp), q = x := fun hx hn => by
    rcases hp with hp | ⟨c, d, -, hp⟩
    · exact hp.trans hx
    · exact absurd (hx.symm.trans hp) (hn d)
  obtain ⟨as, ds⟩ := State.answered_congr (s := { u with
    seq := q, trace := tr, mem := mm, hostRaced := hr, blockRaced := br, ret := r, retByte := rb, inbox := ib, raceDraws := rd })
    (t := u) rfl rfl
  cases m with
  | txPut b hq =>
    obtain ⟨c, hc⟩ : ∃ c, q = .txPut c := by
      rcases hp with hp | ⟨c, d, hp, -⟩
      · exact ⟨b, hp.trans hq⟩
      · exact ⟨c, hp⟩
    refine ⟨_, .txPut c hc, ⟨rfl, .inl rfl, by simp [hlen]⟩, fun k hl => ?_, fun k => ⟨k.1, k.2, k.3, k.4⟩⟩
    obtain rfl : c = b := by
      have := hc.symm.trans (k.1.trans hq)
      injection this
    exact ⟨rfl, by simpa using k.trace, k.3, k.4, k.5, k.6, hidx k.7⟩
  | txRead hq hv =>
    have hq' := pos hq
    refine ⟨_, .txRead hq' hv, ⟨rfl, .inr ⟨_, _, rfl, rfl⟩, ?_⟩, fun k hl => ?_, fun k => ⟨k.1, k.2, k.3, k.4⟩⟩
    · simp [State.memRead, hlen]
    · have hlt := k.idxOk (by simp [hq, inDataPhase])
      have hu := k.unraced'
      have e1 : u.blockSees [] (u.ea u.idx) = u.mem.byteAt (u.ea u.idx) := by
        simp [State.blockSees, State.blockOthers, hu, pickValue]
      have e2 : ∀ s : State, s.blockSees [] (u.ea u.idx) =
          pickValue s.raceDraws (s.mem.byteAt (u.ea u.idx)) (racedAt s.hostRaced (u.ea u.idx)) := fun s => by
        simp [State.blockSees, State.blockOthers]
      have e3 := k.unraced u.idx hlt
      have e4 := k.mem u.idx hlt
      dsimp only at e3 e4
      obtain ⟨rfl, rfl⟩ := hl
      refine ⟨?_, ?_, k.3, k.4, k.5, k.6, hidx k.7⟩
      · exact congrArg Seq.txPut ((e2 _).trans (by rw [e1]; simp only [e3]; exact e4))
      · have hk := k.trace
        dsimp only at hk
        simp only [State.memRead, State.emit_trace, hk]
        rw [e1]
        exact congrArg (fun b => u.trace ++ [Event.memRead (u.ea u.idx) b]) ((e2 _).trans (by simp only [e3]; exact e4))
  | rxStore d hq hv =>
    have hq' := pos hq
    have e1 : u.hostRaced = [] → u.survivor (u.ea u.idx) d (racedAt u.hostRaced (u.ea u.idx)) = d := fun h => by
      simp [State.survivor, h]
    have e2 : ∀ s : State, racedAt s.hostRaced (u.ea u.idx) = [] →
        s.survivor (u.ea u.idx) d (racedAt s.hostRaced (u.ea u.idx)) = d := fun s h => by simp [State.survivor, h]
    refine ⟨_, .rxStore d hq' hv, ⟨rfl, .inl rfl, ?_⟩, fun k _ => ?_, fun k => ?_⟩
    · simp [State.memWrite, hlen]
    · have e3 := e2 _ (k.unraced u.idx (k.idxOk (by simp [hq, inDataPhase])))
      refine ⟨rfl, ?_, k.3, k.4, fun i hi => ?_, k.6, hidx k.7⟩
      · have hk := k.trace
        dsimp only at hk
        simp only [State.memWrite, State.emit_trace, hk]
        rfl
      · have hm : (Memory.setByte mm (u.ea u.idx) d).byteAt (u.ea i) = (u.mem.setByte (u.ea u.idx) d).byteAt (u.ea i) := by
          by_cases hx : u.ea i = u.ea u.idx
          · rw [hx]; simp
          · rw [Memory.byteAt_setByte_other _ _ hx, Memory.byteAt_setByte_other _ _ hx]
            exact k.mem i hi
        exact (congrArg (fun b => (Memory.setByte mm (u.ea u.idx) b).byteAt (u.ea i)) e3).trans
          (hm.trans (congrArg (fun b => (u.mem.setByte (u.ea u.idx) b).byteAt (u.ea i)) (e1 k.unraced')).symm)
    · have hr' : hr = [] := k.unraced
      have hm' : mm = u.mem := k.mem
      have e3 := e2 { u with
        seq := q, trace := tr, mem := mm, hostRaced := hr, blockRaced := br, ret := r, retByte := rb, inbox := ib
        raceDraws := rd } (by simp [hr', racedAt])
      exact ⟨hr', k.2, by
        exact (congrArg (Memory.setByte mm (u.ea u.idx)) e3).trans
          ((congrArg (fun m => Memory.setByte m (u.ea u.idx) d) hm').trans (congrArg (u.mem.setByte (u.ea u.idx)) (e1 k.unraced')).symm), k.4⟩
  | idle hq =>
    exact h₀.of_move (l := l) (.idle hq) (.idle (pos hq)) rfl ((pos hq).trans hq.symm)
      (noEvents _ _) (.inl ⟨rfl, rfl⟩) ⟨rfl, rfl⟩ ⟨rfl, rfl, rfl⟩
  | initPresc hq =>
    exact h₀.of_move (l := l) (.initPresc hq) (.initPresc (pos hq)) rfl rfl
      ⟨[_], rfl, rfl⟩ (.inl ⟨rfl, rfl⟩) ⟨rfl, rfl⟩ ⟨rfl, rfl, rfl⟩
  | initFlag hq =>
    exact h₀.of_move (l := l) (.initFlag hq) (.initFlag (pos hq)) rfl rfl
      (noEvents _ _) (.inl ⟨rfl, rfl⟩) ⟨rfl, rfl⟩ ⟨rfl, rfl, rfl⟩
  | initDone hq =>
    exact h₀.of_move (l := l) (.initDone hq) (.initDone (pos hq)) rfl rfl
      (noEvents _ _) (.inr ⟨rfl, rfl⟩) ⟨rfl, rfl⟩ ⟨rfl, rfl, rfl⟩
  | txnBegin hq =>
    exact h₀.of_move (l := l) (.txnBegin hq) (.txnBegin (pos hq)) rfl rfl
      (noEvents _ _) (.inl ⟨rfl, rfl⟩) ⟨rfl, rfl⟩ ⟨rfl, rfl, rfl⟩
  | startCtl hq =>
    exact h₀.of_move (l := l) (.startCtl hq) (.startCtl (pos hq)) rfl rfl
      ⟨[_], rfl, rfl⟩ (.inl ⟨rfl, rfl⟩) ⟨rfl, rfl⟩ ⟨rfl, rfl, rfl⟩
  | addrData hq =>
    exact h₀.of_move (l := l) (.addrData hq) (.addrData (pos hq)) rfl rfl
      ⟨[_], rfl, rfl⟩ (.inl ⟨rfl, rfl⟩) ⟨rfl, rfl⟩ ⟨rfl, rfl, rfl⟩
  | addrCtl hq =>
    exact h₀.of_move (l := l) (.addrCtl hq) (.addrCtl (pos hq)) rfl rfl
      ⟨[_], rfl, rfl⟩ (.inl ⟨rfl, rfl⟩) ⟨rfl, rfl⟩ ⟨rfl, rfl, rfl⟩
  | startOk hq =>
    exact h₀.of_move (l := l) (.startOk hq) (.startOk (pos hq)) rfl rfl
      (noEvents _ _) (.inl ⟨rfl, rfl⟩) ⟨rfl, rfl⟩ ⟨rfl, rfl, rfl⟩
  | addressOk hq =>
    exact h₀.of_move (l := l) (.addressOk hq) (.addressOk (pos hq)) rfl rfl
      (noEvents _ _) (.inl ⟨rfl, rfl⟩) ⟨rfl, rfl⟩ ⟨rfl, rfl, rfl⟩
  | txCtl hq =>
    exact h₀.of_move (l := l) (.txCtl hq) (.txCtl (pos hq)) rfl rfl
      ⟨[_], rfl, rfl⟩ (.inl ⟨rfl, rfl⟩) ⟨rfl, rfl⟩ ⟨rfl, rfl, rfl⟩
  | rxLast hq =>
    exact h₀.of_move (l := l) (.rxLast hq) (.rxLast (pos hq)) rfl rfl
      ⟨[_], rfl, rfl⟩ (.inl ⟨rfl, rfl⟩) ⟨rfl, rfl⟩ ⟨rfl, rfl, rfl⟩
  | rxMore hq =>
    exact h₀.of_move (l := l) (.rxMore hq) (.rxMore (pos hq)) rfl rfl
      ⟨[_], rfl, rfl⟩ (.inl ⟨rfl, rfl⟩) ⟨rfl, rfl⟩ ⟨rfl, rfl, rfl⟩
  | rxRead hq =>
    exact h₀.of_move (l := l) (.rxRead hq) (.rxRead (pos hq)) (by simp only [as, ds]) rfl
      ⟨[_], rfl, rfl⟩ (.inl ⟨rfl, rfl⟩) ⟨rfl, rfl⟩ ⟨rfl, rfl, rfl⟩
  | stopCtl hq =>
    exact h₀.of_move (l := l) (.stopCtl hq) (.stopCtl (pos hq)) rfl rfl
      ⟨[_], rfl, rfl⟩ (.inl ⟨rfl, rfl⟩) ⟨rfl, rfl⟩ ⟨rfl, rfl, rfl⟩
  | stopped hq =>
    exact h₀.of_move (l := l) (.stopped hq) (.stopped (pos hq)) rfl rfl
      (noEvents _ _) (.inl ⟨rfl, rfl⟩) ⟨rfl, rfl⟩ ⟨rfl, rfl, rfl⟩
  | finish hq =>
    exact h₀.of_move (l := l) (.finish hq) (.finish (pos hq)) rfl rfl
      (noEvents _ _) (.inr ⟨rfl, rfl⟩) ⟨rfl, rfl⟩ ⟨rfl, rfl, rfl⟩
  | initCheckIn hq hf =>
    exact h₀.of_move (l := l) (.initCheckIn hq hf) (.initCheckIn (pos hq) hf) rfl rfl
      (noEvents _ _) (.inl ⟨rfl, rfl⟩) ⟨rfl, rfl⟩ ⟨rfl, rfl, rfl⟩
  | initCheckOut hq hf =>
    exact h₀.of_move (l := l) (.initCheckOut hq hf) (.initCheckOut (pos hq) hf) rfl rfl
      (noEvents _ _) (.inr ⟨rfl, rfl⟩) ⟨rfl, rfl⟩ ⟨rfl, rfl, rfl⟩
  | initDiv d hq =>
    exact h₀.of_move (l := l) (.initDiv d hq) (.initDiv d (pos hq)) rfl rfl
      ⟨[_], rfl, rfl⟩ (.inl ⟨rfl, rfl⟩) ⟨rfl, rfl⟩ ⟨rfl, rfl, rfl⟩
  | notInitialized hq hf =>
    exact h₀.of_move (l := l) (.notInitialized hq hf) (.notInitialized (pos hq) hf) rfl rfl
      (noEvents _ _) (.inr ⟨rfl, rfl⟩) ⟨rfl, rfl⟩ ⟨rfl, rfl, rfl⟩
  | invalidBuffer hq hf hg =>
    exact h₀.of_move (l := l) (.invalidBuffer hq hf hg) (.invalidBuffer (pos hq) hf hg) rfl rfl
      (noEvents _ _) (.inr ⟨rfl, rfl⟩) ⟨rfl, rfl⟩ ⟨rfl, rfl, rfl⟩
  | precheckPass hq hf hg hh =>
    exact h₀.of_move (l := l) (.precheckPass hq hf hg hh) (.precheckPass (pos hq) hf hg hh) rfl rfl
      (noEvents _ _) (.inl ⟨rfl, rfl⟩) ⟨rfl, rfl⟩ ⟨rfl, rfl, rfl⟩
  | flagSet p hq hc hf =>
    exact h₀.of_move (l := l) (.flagSet p hq hc hf) (.flagSet p (pos hq) hc hf) (by simp only [as, ds]) rfl
      ⟨[_], rfl, rfl⟩ (.inl ⟨rfl, rfl⟩) ⟨rfl, rfl⟩ ⟨rfl, rfl, rfl⟩
  | flagClear p hq hc hf =>
    exact h₀.of_move (l := l) (.flagClear p hq hc hf) (.flagClear p (pos hq) hc hf) (by simp only [as, ds]) rfl
      ⟨[_], rfl, rfl⟩ (.inl ⟨rfl, rfl⟩) ⟨rfl, rfl⟩ ⟨rfl, rfl, rfl⟩
  | flagSpent p hq hc =>
    exact h₀.of_move (l := l) (.flagSpent p hq hc) (.flagSpent p (pos hq) hc) rfl rfl
      (noEvents _ _) (.inl ⟨rfl, rfl⟩) ⟨rfl, rfl⟩ ⟨rfl, rfl, rfl⟩
  | statusMatch p hq hc hf =>
    exact h₀.of_move (l := l) (.statusMatch p hq hc hf) (.statusMatch p (pos hq) hc hf) (by simp only [as, ds]) rfl
      ⟨[_], rfl, rfl⟩ (.inl ⟨rfl, rfl⟩) ⟨rfl, rfl⟩ ⟨rfl, rfl, rfl⟩
  | statusOther p hq hc hf =>
    exact h₀.of_move (l := l) (.statusOther p hq hc hf) (.statusOther p (pos hq) hc hf) (by simp only [as, ds]) rfl
      ⟨[_], rfl, rfl⟩ (.inl ⟨rfl, rfl⟩) ⟨rfl, rfl⟩ ⟨rfl, rfl, rfl⟩
  | statusSpent p hq hc =>
    exact h₀.of_move (l := l) (.statusSpent p hq hc) (.statusSpent p (pos hq) hc) rfl rfl
      (noEvents _ _) (.inl ⟨rfl, rfl⟩) ⟨rfl, rfl⟩ ⟨rfl, rfl, rfl⟩
  | dataOk last hq =>
    exact h₀.of_move (l := l) (.dataOk last hq) (.dataOk last (pos hq)) rfl rfl
      (noEvents _ _) (.inl ⟨rfl, rfl⟩) ⟨rfl, rfl⟩ ⟨rfl, rfl, rfl⟩
  | nextTx hq hf hg =>
    exact h₀.of_move (l := l) (.nextTx hq hf hg) (.nextTx (pos hq) hf hg) rfl rfl
      (noEvents _ _) (.inl ⟨rfl, rfl⟩) ⟨rfl, rfl⟩ ⟨rfl, rfl, rfl⟩
  | nextRx hq hf hg =>
    exact h₀.of_move (l := l) (.nextRx hq hf hg) (.nextRx (pos hq) hf hg) rfl rfl
      (noEvents _ _) (.inl ⟨rfl, rfl⟩) ⟨rfl, rfl⟩ ⟨rfl, rfl, rfl⟩
  | dataEnd hq hf =>
    exact h₀.of_move (l := l) (.dataEnd hq hf) (.dataEnd (pos hq) hf) rfl rfl
      (noEvents _ _) (.inl ⟨rfl, rfl⟩) ⟨rfl, rfl⟩ ⟨rfl, rfl, rfl⟩

end Sys2Proof.Machine
end

