-- ==== Sys2Proof/Laws/Encoding.lean ====
section
/-! SUPPORT. The fields of the code words that the encoder builds, read back by the extractions that the decoder makes. -/

namespace Sys2Proof

/-- The low part of a concatenation. -/
theorem extract_append_low {m n : Nat} (x : BitVec m) (y : BitVec n) : (x ++ y).extractLsb' 0 n = y := by
  ext j hj
  simp [BitVec.getLsbD_append, hj]

/-- The high part of a concatenation. -/
theorem extract_append_high {m n : Nat} (x : BitVec m) (y : BitVec n) : (x ++ y).extractLsb' n m = x := by
  ext j hj
  simp [BitVec.getLsbD_append, hj]

@[simp] theorem cmdWord_op (op : BitVec 3) (hi : BitVec 29) : (cmdWord op hi).extractLsb' 0 3 = op :=
  extract_append_low hi op

@[simp] theorem cmdWord_hi (op : BitVec 3) (hi : BitVec 29) : (cmdWord op hi).extractLsb' 3 29 = hi :=
  extract_append_high hi op

@[simp] theorem portWord_val (w : Bool) (reg : BitVec 3) (v : Byte) : (portWord w reg v).extractLsb' 0 8 = v :=
  extract_append_low (BitVec.ofBool w ++ reg) v

theorem portWord_high (w : Bool) (reg : BitVec 3) (v : Byte) : (portWord w reg v).extractLsb' 8 4 = BitVec.ofBool w ++ reg :=
  extract_append_high (BitVec.ofBool w ++ reg) v

@[simp] theorem portWord_reg (w : Bool) (reg : BitVec 3) (v : Byte) : (portWord w reg v).extractLsb' 8 3 = reg := by
  have h : (portWord w reg v).extractLsb' 8 3 = ((portWord w reg v).extractLsb' 8 4).extractLsb' 0 3 := by
    generalize portWord w reg v = x
    ext j hj
    simp; omega
  rw [h, portWord_high]
  exact extract_append_low (BitVec.ofBool w) reg

@[simp] theorem portWord_write (w : Bool) (reg : BitVec 3) (v : Byte) : (portWord w reg v).getLsbD 11 = w := by
  have h : (portWord w reg v).getLsbD 11 = ((portWord w reg v).extractLsb' 8 4).getLsbD 3 := by
    generalize portWord w reg v = x
    simp
  rw [h, portWord_high]
  clear h
  revert w reg
  decide

/-- The fields of an access descriptor. -/
theorem haOf_fields : ∀ (we : Bool) (sel : BitVec 3) (low : BitVec 2),
    (haOf we sel low).getLsbD 5 = we ∧ (haOf we sel low).extractLsb' 2 3 = sel ∧ (haOf we sel low).extractLsb' 0 2 = low := by
  decide

/-- Every access descriptor is made of its fields. -/
theorem haOf_of_fields : ∀ ha : BitVec 6, haOf (ha.getLsbD 5) (ha.extractLsb' 2 3) (ha.extractLsb' 0 2) = ha := by
  decide

/-- Every command word is made of its fields. -/
theorem cmdWord_of_fields (w : Word) : cmdWord (w.extractLsb' 0 3) (w.extractLsb' 3 29) = w := by
  apply BitVec.eq_of_getLsbD_eq
  intro i hi
  refine (BitVec.getLsbD_append).trans ?_
  split
  · next h => simp [h]
  · next h =>
    simp only [BitVec.getLsbD_extractLsb']
    have : 3 + (i - 3) = i := by omega
    simp [this]; omega

/-- Every port event word is made of its fields. -/
theorem portWord_of_fields (x : BitVec 12) : portWord (x.getLsbD 11) (x.extractLsb' 8 3) (x.extractLsb' 0 8) = x := by
  apply BitVec.eq_of_getLsbD_eq
  intro i hi
  refine (BitVec.getLsbD_append).trans ?_
  split
  · next h => simp [h]
  · next h =>
    refine (BitVec.getLsbD_append).trans ?_
    split
    · next h2 =>
      have : 8 + (i - 8) = i := by omega
      simp [h2, this]
    · next h2 =>
      have : i = 11 := by omega
      subst this
      simp

end Sys2Proof
end

