-- ==== Sys2Proof/Laws/Run.lean ====
section
/-! SUPPORT. Runs of the machine: the induction over steps, packaged once, and what a step is when no turn is left. -/

namespace Sys2Proof.Machine

theorem run_zero (s : State) : Host.Core.run core 0 s = .next s := rfl

theorem run_succ {s t : State} (n : Nat) (h : step s = .next t) :
    Host.Core.run core (n + 1) s = Host.Core.run core n t := by
  have h' : core.step s = .next t := h
  simp only [Host.Core.run, h']

/-- A run, one step at a time. -/
theorem run_step {s t : State} {n : Nat} {o : Result} (h : step s = .next t) (hn : Host.Core.run core n t = o) :
    Host.Core.run core (n + 1) s = o :=
  (run_succ n h).trans hn

/-- With no turn left a step is BLOCK's. -/
theorem step_block {s : State} (hw : s.cfg.wf = true) (hi : s.inbox = []) : step s = s.blockTurn [] := by
  simp [step, State.stepWith, hw, hi]

/-- With no turn left, a move of BLOCK is the step. -/
theorem BlockMove.step {s t : State} (hw : s.cfg.wf = true) (hi : s.inbox = []) (m : BlockMove s [] t) : step s = .next t :=
  (step_block hw hi).trans m.blockTurn

/-- With a turn left a step takes it. -/
theorem step_turn {s : State} (hw : s.cfg.wf = true) {t : Turn} {rest : List Turn} (hi : s.inbox = t :: rest) :
    step s = ({ s with inbox := rest } : State).takeTurn s.later t := by
  have e : s.popped = { s with inbox := rest } := by simp [State.popped, hi]
  simp [step, State.stepWith, hw, hi, e]

/-- At BLOCK's turn, a move of BLOCK is the step. -/
theorem BlockMove.stepTurn {s t : State} (hw : s.cfg.wf = true) {rest : List Turn} (hi : s.inbox = .block :: rest)
    (m : BlockMove { s with inbox := rest } s.later t) : Machine.step s = .next t := by
  rw [step_turn hw hi]
  simp only [State.takeTurn]
  rw [m.stuckAt]
  exact m.blockTurn

/-- A longer run has a first step. -/
theorem run_succ_next {s t : State} {n : Nat} (h : Host.Core.run core (n + 1) s = .next t) :
    ∃ u, step s = .next u ∧ Host.Core.run core n u = .next t := by
  cases hs : step s with
  | next u => exact ⟨u, rfl, by rwa [run_succ n hs] at h⟩
  | fault r =>
    have e : core.step s = .fault r := hs
    simp [Host.Core.run, e] at h
  | refused r =>
    have e : core.step s = .refused r := hs
    simp [Host.Core.run, e] at h

/-- A run after a run. -/
theorem run_add {n m : Nat} : ∀ {s t u : State}, Host.Core.run core n s = .next t → Host.Core.run core m t = .next u →
    Host.Core.run core (n + m) s = .next u := by
  induction n with
  | zero =>
    intro s t u h h'
    rw [run_zero] at h
    cases h
    rwa [Nat.zero_add]
  | succ n ih =>
    intro s t u h h'
    obtain ⟨v, hv, h⟩ := run_succ_next h
    rw [show n + 1 + m = n + m + 1 by omega]
    exact run_step hv (ih h h')

/-- What every step keeps, every run keeps. -/
theorem run_keeps (P : State → Prop) (hstep : ∀ s t, P s → step s = .next t → P t) :
    ∀ (n : Nat) (s t : State), P s → Host.Core.run core n s = .next t → P t := by
  intro n
  induction n with
  | zero =>
    intro s t hp h
    rw [run_zero] at h
    cases h
    exact hp
  | succ n ih =>
    intro s t hp h
    obtain ⟨u, hs, h⟩ := run_succ_next h
    exact ih u t (hstep s u hp hs) h

/-- At the idle point with no turn left, a run stays where it is (R203). -/
theorem run_idle {s t : State} {n : Nat} (hq : s.seq = .idle) (hw : s.cfg.wf = true) (hi : s.inbox = [])
    (h : Host.Core.run core n s = .next t) : s = t := by
  induction n with
  | zero =>
    rw [run_zero] at h
    cases h
    rfl
  | succ n ih => exact ih (run_succ n (BlockMove.step hw hi (.idle hq)) ▸ h)

/-- A state some run from `s` comes to. -/
def Reaches (s t : State) : Prop := ∃ n, Host.Core.run core n s = .next t

theorem Reaches.refl (s : State) : Reaches s s := ⟨0, rfl⟩

theorem Reaches.head {s t u : State} (h : step s = .next t) : Reaches t u → Reaches s u
  | ⟨n, hn⟩ => ⟨n + 1, (run_succ n h).trans hn⟩

theorem Reaches.trans {s t u : State} : Reaches s t → Reaches t u → Reaches s u
  | ⟨n, hn⟩, ⟨m, hm⟩ => ⟨n + m, run_add hn hm⟩

end Sys2Proof.Machine
end

