-- ==== Sys2Proof/Laws/Interleave.lean ====
section
/-! SUPPORT. HOST's turns during a command: what BLOCK does between them is what it does alone. `Follows s u` says that BLOCK stands
in `s`, where HOST has turns left, as in `u`, where none is left; `follows_run` carries a run of `u` over to `s`. -/

namespace Sys2Proof.Machine

/-- BLOCK stands alike in `s`, where HOST has turns left but no reset, and in `u`, where HOST has no turn left. -/
structure Follows (s u : State) : Prop where
  alike   : Alike s u
  alone   : u.inbox = []
  noReset : Turn.reset ∉ s.inbox

/-! ### `busyUntil` -/

theorem busyUntil_one {s : State} (h : s.busy = true) : busyUntil s 1 := by
  intro m hm u hu
  obtain rfl : m = 0 := by omega
  rw [run_zero] at hu
  cases hu
  exact h

theorem busyUntil_succ {s t : State} {n : Nat} (h : s.busy = true) (hs : step s = .next t) (ht : busyUntil t n) :
    busyUntil s (n + 1) := by
  intro m hm u hu
  cases m with
  | zero => exact busyUntil_one h 0 (by omega) u hu
  | succ m => exact ht m (by omega) u (run_succ m hs ▸ hu)

theorem busyUntil_add {s t : State} {n m : Nat} (h : busyUntil s n) (hr : Host.Core.run core n s = .next t) (ht : busyUntil t m) :
    busyUntil s (n + m) := by
  induction n generalizing s with
  | zero =>
    rw [run_zero] at hr
    cases hr
    rwa [Nat.zero_add]
  | succ n ih =>
    obtain ⟨u, hs, hr⟩ := run_succ_next hr
    rw [show n + 1 + m = n + m + 1 by omega]
    exact busyUntil_succ (h 0 (by omega) s rfl) hs
      (ih (fun k hk v hv => h (k + 1) (by omega) v (run_step hs hv)) hr)

/-- What every step of a command in progress keeps, the command keeps. -/
theorem run_busy (P : State → Prop) (hstep : ∀ s t, P s → s.busy = true → step s = .next t → P t) :
    ∀ (n : Nat) (s t : State), P s → busyUntil s n → Host.Core.run core n s = .next t → P t := by
  intro n
  induction n with
  | zero =>
    intro s t hp _ h
    rw [run_zero] at h
    cases h
    exact hp
  | succ n ih =>
    intro s t hp hb h
    obtain ⟨u, hs, h⟩ := run_succ_next h
    exact ih u t (hstep s u hp (hb 0 (by omega) s rfl) hs) (fun m hm v hv => hb (m + 1) (by omega) v (run_step hs hv)) h

/-! ### One step, and the whole command -/

/-- A move of BLOCK in `u` is the step of `s` at BLOCK's turn. -/
theorem Follows.blockStep {s u u' : State} (h : Follows s u) (hw : s.cfg.wf = true) (m : BlockMove u [] u') {rest : List Turn}
    (hin : s.inbox = [] ∨ s.inbox = .block :: rest) :
    ∃ s', step s = .next s' ∧ Follows s' u' ∧ (Quiet s u → Quiet s' u') ∧ (Still s u → Still s' u') := by
  have hnoRead : ∀ a, s.inbox.head? ≠ some (.bufRead a) := by rcases hin with hin | hin <;> simp [hin]
  have halone := m.inbox.trans h.alone
  rcases hin with hin | hin
  · obtain ⟨s', m', h1, h2, h3⟩ := h.alike.blockMove m []
    exact ⟨s', m'.step hw hin, ⟨h1, halone, m'.inbox ▸ h.noReset⟩, fun k => h2 k ⟨rfl, rfl⟩, h3⟩
  · let p : State := { s with inbox := rest }
    have sub : ∀ {t : Turn}, t ∈ p.inbox → t ∈ s.inbox := fun h => by rw [hin]; exact List.mem_cons_of_mem _ h
    have hp : Alike p u :=
      ⟨congrArg (fun x : State => ({ x with inbox := rest } : State)) h.alike.same, h.alike.position, h.alike.length⟩
    have quiet : Quiet s u → Quiet p u := fun k => ⟨k.1, k.2, k.3, k.4, k.5, fun i b hi hb => k.6 i b hi (sub hb), k.7⟩
    have still : Still s u → Still p u := fun k => ⟨k.1, k.2, k.3, fun a b hb => k.4 a b (sub hb)⟩
    have hl : Quiet p u → s.later = [] := fun k => State.later_nil (fun hq b hb => by
      have hu : u.seq = .txRead := k.position.symm.trans hq
      rw [h.alike.idx, h.alike.ea, hin] at hb
      rcases List.mem_cons.1 hb with hb | hb
      · cases hb
      · exact k.noWrite u.idx b (k.idxOk (by rw [hu]; rfl)) hb) hnoRead
    obtain ⟨s', m', h1, h2, h3⟩ := hp.blockMove m s.later
    exact ⟨s', m'.stepTurn hw hin, ⟨h1, halone, fun hr => h.noReset (sub (m'.inbox ▸ hr))⟩,
      fun k => h2 (quiet k) ⟨rfl, hl (quiet k)⟩, h3 ∘ still⟩

/-- What HOST's turns change is nothing BLOCK stands on. -/
theorem Follows.change {s s' u : State} (h : Follows s u)
    (hs : s' = { s with
      ret := s'.ret, retByte := s'.retByte, mem := s'.mem, hostRaced := s'.hostRaced, inbox := s'.inbox, raceDraws := s'.raceDraws })
    (hin : ∀ t ∈ s'.inbox, t ∈ s.inbox ∨ t = .block)
    (hm : ∀ x : Word, (∀ b, Turn.bufWrite x b ∉ s.inbox) →
      s'.mem.byteAt x = s.mem.byteAt x ∧ racedAt s'.hostRaced x = racedAt s.hostRaced x)
    (hstill : (∀ a b, Turn.bufWrite a b ∉ s.inbox) → s'.mem = s.mem ∧ s'.hostRaced = s.hostRaced) :
    Follows s' u ∧ (Quiet s u → Quiet s' u) ∧ (Still s u → Still s' u) := by
  have sub : ∀ {t : Turn}, t ≠ .block → t ∉ s.inbox → t ∉ s'.inbox := fun hb hn hx => (hin _ hx).elim hn hb
  have hseq : s'.seq = s.seq := by rw [hs]
  have htr : s'.trace = s.trace := by rw [hs]
  refine ⟨⟨⟨?_, hseq ▸ h.alike.position, htr ▸ h.alike.length⟩, h.alone, sub (by simp) h.noReset⟩, fun k => ?_, fun k => ?_⟩
  · rw [hs, h.alike.same]
  · have hm' := fun i hi => hm (u.ea i) (fun b => k.noWrite i b hi)
    exact ⟨hseq ▸ k.position, htr ▸ k.trace, fun i hi => (hm' i hi).2.trans (k.unraced i hi),
      k.unraced', fun i hi => (hm' i hi).1.trans (k.mem i hi), fun i b hi => sub (by simp) (k.noWrite i b hi), k.idxOk⟩
  · obtain ⟨h1, h2⟩ := hstill k.noWrite
    exact ⟨h2.trans k.unraced, k.unraced', h1.trans k.mem, fun a b => sub (by simp) (k.noWrite a b)⟩

/-- Any other turn of HOST during a command changes nothing of BLOCK. A poll that has not found its value gives BLOCK the next turn. -/
theorem Follows.hostStep {s u : State} (h : Follows s u) (hw : s.cfg.wf = true) (hb : u.busy = true) {t : Turn} {rest : List Turn}
    (hin : s.inbox = t :: rest) (ht : t ≠ .block) :
    ∃ s', step s = .next s' ∧ (Follows s' u ∧ (Quiet s u → Quiet s' u) ∧ (Still s u → Still s' u)) ∧
      (s'.inbox = rest ∨ s'.inbox = .block :: s.inbox) := by
  have sub : ∀ x ∈ rest, x ∈ s.inbox ∨ x = .block := fun x hx => .inl (by rw [hin]; exact List.mem_cons_of_mem _ hx)
  have hbs : ({ s with inbox := rest } : State).busy = true := h.alike.busy.trans hb
  rw [step_turn hw hin]
  cases t with
  | block => exact absurd rfl ht
  | access a =>
    obtain ⟨s', h1, h2⟩ := ({ s with inbox := rest } : State).accessTurn_move a
    refine ⟨s', h1, ?_⟩
    cases h2 with
    | nothing => exact ⟨h.change rfl sub (fun _ _ => ⟨rfl, rfl⟩) fun _ => ⟨rfl, rfl⟩, .inl rfl⟩
    | returns v => exact ⟨h.change rfl sub (fun _ _ => ⟨rfl, rfl⟩) fun _ => ⟨rfl, rfl⟩, .inl rfl⟩
    | freq v hi | addr v hi | buf v hi | len v hi | timeout v hi | accept o hi => rw [hbs] at hi; cases hi
  | poll off mask value =>
    obtain ⟨v, hv⟩ := ({ s with inbox := rest } : State).accessTurn_read off
    simp only [State.takeTurn, State.pollTurn, hv]
    split
    · exact ⟨_, rfl, h.change rfl sub (fun _ _ => ⟨rfl, rfl⟩) fun _ => ⟨rfl, rfl⟩, .inl rfl⟩
    · refine ⟨_, rfl, h.change rfl (fun x hx => ?_) (fun _ _ => ⟨rfl, rfl⟩) fun _ => ⟨rfl, rfl⟩, .inr (by rw [hin]; rfl)⟩
      rw [hin]
      rcases List.mem_cons.1 hx with hx | hx
      · exact .inr hx
      · exact .inl hx
  | bufRead a =>
    obtain ⟨b, n, e⟩ := ({ s with inbox := rest } : State).hostBufRead_eq s.later a
    exact ⟨_, rfl, by rw [e]; exact ⟨h.change rfl sub (fun _ _ => ⟨rfl, rfl⟩) fun _ => ⟨rfl, rfl⟩, .inl rfl⟩⟩
  | bufWrite a b =>
    obtain ⟨m, r, n, e, h1, h2⟩ := ({ s with inbox := rest } : State).hostBufWrite_eq a b
    have hmem : Turn.bufWrite a b ∈ s.inbox := by rw [hin]; exact List.mem_cons_self
    refine ⟨_, rfl, ?_⟩
    rw [e]
    exact ⟨h.change rfl sub (fun x hx => ⟨h1 x fun hxa => hx b (hxa ▸ hmem), h2 x fun hxa => hx b (hxa ▸ hmem)⟩)
      (fun hx => absurd hmem (hx a b)), .inl rfl⟩
  | reset => exact absurd (by rw [hin]; exact List.mem_cons_self) h.noReset

/-- BLOCK's next move comes after HOST's turns before it. -/
theorem Follows.next {u u' : State} (hb : u.busy = true) (m : BlockMove u [] u') : ∀ (l : List Turn) (s : State), s.inbox = l →
    Follows s u → s.cfg.wf = true →
    ∃ n s', Host.Core.run core (n + 1) s = .next s' ∧ busyUntil s (n + 1) ∧
      Follows s' u' ∧ (Quiet s u → Quiet s' u') ∧ (Still s u → Still s' u') := by
  have one : ∀ (s : State) (rest : List Turn), Follows s u → s.cfg.wf = true → (s.inbox = [] ∨ s.inbox = .block :: rest) →
      ∃ n s', Host.Core.run core (n + 1) s = .next s' ∧ busyUntil s (n + 1) ∧
        Follows s' u' ∧ (Quiet s u → Quiet s' u') ∧ (Still s u → Still s' u') := fun s rest h hw hin => by
    obtain ⟨s', h1, h2⟩ := h.blockStep hw m hin
    exact ⟨0, s', run_step h1 (run_zero s'), busyUntil_one (h.alike.busy.trans hb), h2⟩
  intro l
  induction l with
  | nil => exact fun s hin h hw => one s [] h hw (.inl hin)
  | cons t rest ih =>
    intro s hin h hw
    by_cases ht : t = .block
    · exact one s rest h hw (.inr (ht ▸ hin))
    · obtain ⟨s₁, h1, ⟨h2, h3, h4⟩, h5⟩ := h.hostStep hw hb hin ht
      have hw₁ : s₁.cfg.wf = true := by rw [h2.alike.cfg, ← h.alike.cfg]; exact hw
      obtain ⟨n, s', g1, g2, g3, g4, g5⟩ : ∃ n s', Host.Core.run core (n + 1) s₁ = .next s' ∧ busyUntil s₁ (n + 1) ∧
          Follows s' u' ∧ (Quiet s₁ u → Quiet s' u') ∧ (Still s₁ u → Still s' u') := by
        rcases h5 with h5 | h5
        · exact ih s₁ h5 h2 hw₁
        · exact one s₁ s.inbox h2 hw₁ (.inr h5)
      exact ⟨n + 1, s', run_step h1 g1, busyUntil_succ (h.alike.busy.trans hb) h1 g2, g3, g4 ∘ h3, g5 ∘ h4⟩

/-- A run of BLOCK alone from a command in progress to its end is followed between HOST's turns. -/
theorem follows_run : ∀ (n : Nat) (s u u' : State), Follows s u → s.cfg.wf = true → u.busy = true →
    Host.Core.run core n u = .next u' → u'.busy = false →
    ∃ m s', Host.Core.run core m s = .next s' ∧ busyUntil s m ∧
      Follows s' u' ∧ (Quiet s u → Quiet s' u') ∧ (Still s u → Still s' u') := by
  intro n
  induction n with
  | zero =>
    intro s u u' _ _ hb hr he
    rw [run_zero] at hr
    cases hr
    rw [hb] at he
    cases he
  | succ n ih =>
    intro s u u' h hw hb hr he
    have hw' : u.cfg.wf = true := h.alike.cfg ▸ hw
    obtain ⟨u₁, hs, hr⟩ := run_succ_next hr
    have m : BlockMove u [] u₁ := State.blockTurn_move (step_block hw' h.alone ▸ hs)
    obtain ⟨k, s₁, g1, g2, g3, g4, g5⟩ := Follows.next hb m s.inbox s rfl h hw
    by_cases hb₁ : u₁.busy = true
    · have hw₁ : s₁.cfg.wf = true := by rw [g3.alike.cfg, m.cfg, ← h.alike.cfg]; exact hw
      obtain ⟨j, s', f1, f2, f3, f4, f5⟩ := ih s₁ u₁ u' g3 hw₁ hb₁ hr he
      exact ⟨k + 1 + j, s', run_add g1 f1, busyUntil_add g2 g1 f2, f3, f4 ∘ g4, f5 ∘ g5⟩
    · have hidle : u₁.seq = .idle := m.ends hb (by simpa using hb₁)
      obtain rfl : u₁ = u' := run_idle hidle (by rw [m.cfg]; exact hw') g3.alone hr
      exact ⟨k + 1, s₁, g1, g2, g3, g4, g5⟩

end Sys2Proof.Machine
end

