-- ==== Sys2Proof/Laws/Later.lean ====
section
/-! SUPPORT. The racing values still to come (Lookahead.lean) as a run of the machine: the look-ahead and the run itself stand alike
at every step, so what the look-ahead finds is what the run goes on to do. -/

namespace Sys2Proof.Machine

/-- Alike, with the same turns to come. -/
structure Twins (s u : State) : Prop where
  alike : Alike s u
  inbox : s.inbox = u.inbox

theorem Twins.refl (s : State) : Twins s s := ⟨⟨rfl, .inl rfl, rfl⟩, rfl⟩

theorem Twins.symm {s u : State} (h : Twins s u) : Twins u s := by
  obtain ⟨⟨hs, hp, hl⟩, hi⟩ := h
  refine ⟨⟨?_, ?_, hl.symm⟩, hi.symm⟩
  · rw [hs]
  · rcases hp with hp | ⟨b, c, h1, h2⟩
    · exact .inl hp.symm
    · exact .inr ⟨c, b, h2, h1⟩

/-- What HOST's turns change leaves the states twins. -/
theorem Twins.change {s s' u u' : State} (h : Twins s u)
    (hs : s' = { s with
      ret := s'.ret, retByte := s'.retByte, mem := s'.mem, hostRaced := s'.hostRaced, inbox := s'.inbox, raceDraws := s'.raceDraws })
    (hu : u' = { u with
      ret := u'.ret, retByte := u'.retByte, mem := u'.mem, hostRaced := u'.hostRaced, inbox := u'.inbox, raceDraws := u'.raceDraws })
    (hi : s'.inbox = u'.inbox) : Twins s' u' := by
  obtain ⟨⟨h1, hp, hl⟩, -⟩ := h
  rw [hs, hu] at hi ⊢
  refine ⟨⟨?_, hp, hl⟩, hi⟩
  rw [h1]

/-- A HOST read of HOSTREG returns the same in twin states. -/
theorem Alike.accessTurn_read {s u : State} (h : Alike s u) (off : BitVec 5) :
    ∃ v, s.accessTurn (readAccess off) = .next (s.returns v) ∧ u.accessTurn (readAccess off) = .next (u.returns v) := by
  have e : ∀ x : State, x.accessTurn (readAccess off) = exec (decodeHostAccess (0#1 ++ off) 0) x := fun _ => rfl
  have hw : s.statusWord = u.statusWord := by rw [h.same]; rfl
  have hr : s.freq = u.freq ∧ s.addr = u.addr ∧ s.buf = u.buf ∧ s.len = u.len ∧ s.timeout = u.timeout ∧ s.cfg = u.cfg := by
    rw [h.same]; exact ⟨rfl, rfl, rfl, rfl, rfl, rfl⟩
  obtain ⟨h1, h2, h3, h4, h5, h6⟩ := hr
  rw [e, e]
  rcases decodeHostAccess_read off with ⟨_, _, hd⟩ | ⟨_, _, hd⟩ | ⟨_, _, hd⟩ | hd
  · rw [hd]; exact ⟨_, rfl, rfl⟩
  · rw [hd]; exact ⟨_, rfl, rfl⟩
  · rw [hd]; exact ⟨_, rfl, rfl⟩
  · simp only [List.mem_cons, List.not_mem_nil, or_false] at hd
    rcases hd with hd | hd | hd | hd | hd | hd | hd | hd <;> rw [hd]
    · exact ⟨_, rfl, rfl⟩
    · exact ⟨_, rfl, by rw [hw]; rfl⟩
    · exact ⟨_, rfl, by rw [h1]; rfl⟩
    · exact ⟨_, rfl, by rw [h2]; rfl⟩
    · exact ⟨_, rfl, by rw [h3, h6]; rfl⟩
    · exact ⟨_, rfl, by rw [h4, h6]; rfl⟩
    · exact ⟨_, rfl, by rw [h5, h6]; rfl⟩
    · exact ⟨_, rfl, rfl⟩

/-- An access to HOSTREG while BUSY = 1 changes at most what HOST last read. -/
theorem State.accessTurn_busy {s t : State} {a : HostAccess} (hb : s.busy = true) (h : s.accessTurn a = .next t) :
    t = { s with ret := t.ret } := by
  obtain ⟨t', h1, h2⟩ := s.accessTurn_move a
  rw [h1] at h
  cases h
  cases h2 with
  | nothing => rfl
  | returns v => rfl
  | freq v hi | addr v hi | buf v hi | len v hi | timeout v hi | accept o hi => rw [hb] at hi; cases hi

/-- While a command is in progress twin states step to twin states, whatever racing values each step sees. -/
theorem Twins.stepWith {s u u' : State} (h : Twins s u) (hb : u.busy = true) {l : List Byte} (later : List Byte)
    (hu : u.stepWith l = .next u') : ∃ s', s.stepWith later = .next s' ∧ Twins s' u' := by
  have block : ∀ {x y : State} {l : List Byte}, Alike x y → BlockMove y l u' →
      ∃ s', x.blockTurn later = .next s' ∧ (x.inbox = y.inbox → Twins s' u') := fun {x y l} hxy m => by
    obtain ⟨s', m', h', -⟩ := hxy.blockMove m later
    exact ⟨s', m'.blockTurn, fun hi => ⟨h', by rw [m'.inbox, m.inbox, hi]⟩⟩
  have hpop : Twins s.popped u.popped :=
    h.change rfl rfl (congrArg List.tail h.inbox)
  have hbs : s.busy = true := h.alike.busy.trans hb
  unfold State.stepWith at hu ⊢
  rw [h.alike.cfg, h.inbox]
  split at hu
  · next hw =>
    rw [if_pos hw]
    split at hu
    · obtain ⟨s', h1, h2⟩ := block h.alike (State.blockTurn_move hu)
      exact ⟨s', h1, h2 h.inbox⟩
    · next t rest hin =>
      cases t with
      | block =>
        simp only [State.takeTurn] at hu ⊢
        rw [hpop.alike.stuckAt]
        split at hu
        · cases hu
          exact ⟨_, rfl, hpop⟩
        · obtain ⟨s', h1, h2⟩ := block hpop.alike (State.blockTurn_move hu)
          exact ⟨s', h1, h2 hpop.inbox⟩
      | access a =>
        obtain ⟨s', h1, -⟩ := s.popped.accessTurn_move a
        have e1 := State.accessTurn_busy (s := s.popped) hbs h1
        have e2 := State.accessTurn_busy (s := u.popped) hb hu
        exact ⟨s', h1, hpop.change (by rw [e1]) (by rw [e2]) (by rw [e1, e2]; exact hpop.inbox)⟩
      | poll off mask value =>
        obtain ⟨v, h1, h2⟩ := hpop.alike.accessTurn_read off
        simp only [State.takeTurn, State.pollTurn, h1, h2] at hu ⊢
        split at hu
        · next hv =>
          cases hu
          exact ⟨_, if_pos hv, hpop.change rfl rfl hpop.inbox⟩
        · next hv =>
          cases hu
          exact ⟨_, if_neg hv, hpop.change rfl rfl (congrArg (fun i => Turn.block :: .poll off mask value :: i) hpop.inbox)⟩
      | bufRead a =>
        cases hu
        obtain ⟨b, n, e1⟩ := s.popped.hostBufRead_eq later a
        obtain ⟨c, m, e2⟩ := u.popped.hostBufRead_eq l a
        exact ⟨_, rfl, hpop.change (by rw [e1]) (by rw [e2]) (by rw [e1, e2]; exact hpop.inbox)⟩
      | bufWrite a b =>
        cases hu
        obtain ⟨_, _, _, e1, -⟩ := s.popped.hostBufWrite_eq a b
        obtain ⟨_, _, _, e2, -⟩ := u.popped.hostBufWrite_eq a b
        exact ⟨_, rfl, hpop.change (by rw [e1]) (by rw [e2]) (by rw [e1, e2]; exact hpop.inbox)⟩
      | reset =>
        cases hu
        refine ⟨_, rfl, ⟨?_, .inl rfl, hpop.alike.length⟩, hpop.inbox⟩
        rw [hpop.alike.same]
        rfl
  · cases hu

/-- What the look-ahead finds, the run goes on to do. -/
theorem mem_untilIdle {now : State → List Byte} (hnow : ∀ s u, Twins s u → now s = now u) (v : Byte) :
    ∀ (n : Nat) (s u : State), Twins s u →
      (v ∈ State.untilIdle now n u ↔
        ∃ k w, k < n ∧ Host.Core.run core k s = .next w ∧ busyUntil s (k + 1) ∧ v ∈ now w) := by
  intro n
  induction n with
  | zero => intro s u _; simp [State.untilIdle]
  | succ n ih =>
    intro s u h
    simp only [State.untilIdle]
    have later : ∀ {k w}, Host.Core.run core (k + 1) s = .next w → u.busy = true →
        ∃ s₁ u₁, step s = .next s₁ ∧ u.stepWith [] = .next u₁ ∧ Twins s₁ u₁ ∧ Host.Core.run core k s₁ = .next w := fun {k w} hr hb => by
      obtain ⟨s₁, hs, hr⟩ := run_succ_next hr
      obtain ⟨u₁, h1, h2⟩ := h.symm.stepWith (h.alike.busy.trans hb) [] hs
      exact ⟨s₁, u₁, hs, h1, h2.symm, hr⟩
    by_cases hb : u.busy = true
    · rw [if_pos hb, List.mem_append]
      have hbs : s.busy = true := h.alike.busy.trans hb
      constructor
      · rintro (hv | hv)
        · exact ⟨0, s, by omega, rfl, busyUntil_one hbs, (hnow s u h).symm ▸ hv⟩
        · split at hv
          · next u₁ hu =>
            obtain ⟨s₁, hs, h₁⟩ := h.stepWith hb s.later hu
            obtain ⟨k, w, hk, hr, hbk, hv⟩ := (ih s₁ u₁ h₁).1 hv
            exact ⟨k + 1, w, by omega, run_step hs hr, busyUntil_succ hbs hs hbk, hv⟩
          · cases hv
          · cases hv
      · rintro ⟨k, w, hk, hr, hbk, hv⟩
        cases k with
        | zero =>
          rw [run_zero] at hr
          cases hr
          exact .inl (hnow s u h ▸ hv)
        | succ k =>
          obtain ⟨s₁, u₁, hs, hu, h₁, hr⟩ := later hr hb
          rw [hu]
          exact .inr ((ih s₁ u₁ h₁).2 ⟨k, w, by omega, hr, fun m hm x hx => hbk (m + 1) (by omega) x (run_step hs hx), hv⟩)
    · rw [if_neg hb]
      constructor
      · intro hv; cases hv
      · rintro ⟨k, w, -, -, hbk, -⟩
        exact absurd (h.alike.busy ▸ hbk 0 (by omega) s rfl) hb

end Sys2Proof.Machine
end

