-- ==== Sys2Proof/Laws/PerInstr.lean ====
section
/-! SUPPORT. The family `TableRow`: the word the encoder gives an instruction has the format, and under the mask the pattern, of the
instruction's row of spec/opcode_table.json. Each row is copied from that file. -/

namespace Sys2Proof.Laws.TableRow

/-- The word of a row, with the row's mask and pattern, in one of the three formats. -/
inductive Row
  | hostAccess (mask pattern : BitVec 6)
  | cmd (mask pattern : BitVec 32)
  | portEvent (mask pattern : BitVec 12)

/-- The row's own check of a code word. -/
def Row.covers : Row → CodeWord → Prop
  | .hostAccess mask pattern, .hostAccess ha _ => ha &&& mask = pattern
  | .cmd mask pattern, .cmd w => w &&& mask = pattern
  | .portEvent mask pattern, .portEvent pe => pe &&& mask = pattern
  | _, _ => False

/-- The row of an instruction. -/
def row : Instr → Row
  | .rdCmd => .hostAccess 0x3F 0x00
  | .wrCmd _ => .hostAccess 0x3F 0x20
  | .rdStatus => .hostAccess 0x3F 0x04
  | .wrStatus _ => .hostAccess 0x3F 0x24
  | .rdFreq => .hostAccess 0x3F 0x08
  | .wrFreq _ => .hostAccess 0x3F 0x28
  | .rdAddr => .hostAccess 0x3F 0x0C
  | .wrAddr _ => .hostAccess 0x3F 0x2C
  | .rdBuf => .hostAccess 0x3F 0x10
  | .wrBuf _ => .hostAccess 0x3F 0x30
  | .rdLen => .hostAccess 0x3F 0x14
  | .wrLen _ => .hostAccess 0x3F 0x34
  | .rdTimeout => .hostAccess 0x3F 0x18
  | .wrTimeout _ => .hostAccess 0x3F 0x38
  | .rdRsvd1C => .hostAccess 0x3F 0x1C
  | .wrRsvd1C _ => .hostAccess 0x3F 0x3C
  | .illformedOff1 _ _ _ => .hostAccess 0x03 0x01
  | .illformedOff2 _ _ _ => .hostAccess 0x03 0x02
  | .illformedOff3 _ _ _ => .hostAccess 0x03 0x03
  | .init _ => .cmd 0x7 0x1
  | .send _ => .cmd 0x7 0x2
  | .recv _ => .cmd 0x7 0x3
  | .reservedCmd0 _ => .cmd 0x7 0x0
  | .reservedCmd4to7 _ _ => .cmd 0x4 0x4
  | .pwDiv _ => .portEvent 0xF00 0x800
  | .pwPresc => .portEvent 0xFFF 0x900
  | .pwData _ => .portEvent 0xF00 0xA00
  | .pwCtlStart => .portEvent 0xFFF 0xBA4
  | .pwCtlCont => .portEvent 0xFFF 0xB84
  | .pwCtlContAck => .portEvent 0xFFF 0xBC4
  | .pwCtlStop => .portEvent 0xFFF 0xB94
  | .prFlag _ => .portEvent 0xF00 0x300
  | .prStatus _ => .portEvent 0xF00 0x100
  | .prData _ => .portEvent 0xF00 0x200

/-- The encoded word is of the instruction's row. -/
def Statement (i : Instr) : Prop := (row i).covers (encode i)

/-- A mask over OP sees OP alone. -/
theorem cmdWord_mask (op m p : BitVec 3) (hi : BitVec 29) (h : op &&& m = p) :
    cmdWord op hi &&& m.setWidth 32 = p.setWidth 32 := by
  subst h
  apply BitVec.eq_of_getLsbD_eq
  intro j hj
  have hx : (cmdWord op hi).getLsbD j = if j < 3 then op.getLsbD j else hi.getLsbD (j - 3) := BitVec.getLsbD_append
  rw [BitVec.getLsbD_and, hx, BitVec.getLsbD_setWidth, BitVec.getLsbD_setWidth, BitVec.getLsbD_and]
  by_cases h3 : j < 3
  · rw [if_pos h3]
    cases decide (j < 32) <;> simp
  · rw [BitVec.getLsbD_of_ge m j (by omega)]
    simp

/-- A mask over W and REG sees them alone. -/
theorem portWord_mask (w : Bool) (reg : BitVec 3) (v : Byte) :
    portWord w reg v &&& 0xF00 = portWord w reg 0 := by
  apply BitVec.eq_of_getLsbD_eq
  intro j hj
  have hx : ∀ u : Byte, (portWord w reg u).getLsbD j = if j < 8 then u.getLsbD j else (BitVec.ofBool w ++ reg).getLsbD (j - 8) :=
    fun _ => BitVec.getLsbD_append
  have hm : ∀ j < 12, (0xF00 : BitVec 12).getLsbD j = decide (8 ≤ j) := by decide
  rw [BitVec.getLsbD_and, hx, hx, hm j hj]
  by_cases h : j < 8
  · rw [if_pos h, if_pos h]
    simp [h]
  · rw [if_neg h, if_neg h]
    simp [show 8 ≤ j by omega]

theorem rdCmd : Statement .rdCmd := rfl
theorem wrCmd (v : Word) : Statement (.wrCmd v) := rfl
theorem rdStatus : Statement .rdStatus := rfl
theorem wrStatus (v : Word) : Statement (.wrStatus v) := rfl
theorem rdFreq : Statement .rdFreq := rfl
theorem wrFreq (v : Word) : Statement (.wrFreq v) := rfl
theorem rdAddr : Statement .rdAddr := rfl
theorem wrAddr (v : Word) : Statement (.wrAddr v) := rfl
theorem rdBuf : Statement .rdBuf := rfl
theorem wrBuf (v : Word) : Statement (.wrBuf v) := rfl
theorem rdLen : Statement .rdLen := rfl
theorem wrLen (v : Word) : Statement (.wrLen v) := rfl
theorem rdTimeout : Statement .rdTimeout := rfl
theorem wrTimeout (v : Word) : Statement (.wrTimeout v) := rfl
theorem rdRsvd1C : Statement .rdRsvd1C := rfl
theorem wrRsvd1C (v : Word) : Statement (.wrRsvd1C v) := rfl
theorem illformedOff1 (we : Bool) (sel : BitVec 3) (v : Word) : Statement (.illformedOff1 we sel v) := by
  show haOf we sel 1 &&& 0x03 = _
  revert we sel
  decide
theorem illformedOff2 (we : Bool) (sel : BitVec 3) (v : Word) : Statement (.illformedOff2 we sel v) := by
  show haOf we sel 2 &&& 0x03 = _
  revert we sel
  decide
theorem illformedOff3 (we : Bool) (sel : BitVec 3) (v : Word) : Statement (.illformedOff3 we sel v) := by
  show haOf we sel 3 &&& 0x03 = _
  revert we sel
  decide
theorem init (hi : BitVec 29) : Statement (.init hi) := cmdWord_mask _ 7 _ hi rfl
theorem send (hi : BitVec 29) : Statement (.send hi) := cmdWord_mask _ 7 _ hi rfl
theorem recv (hi : BitVec 29) : Statement (.recv hi) := cmdWord_mask _ 7 _ hi rfl
theorem reservedCmd0 (hi : BitVec 29) : Statement (.reservedCmd0 hi) := cmdWord_mask _ 7 _ hi rfl
theorem reservedCmd4to7 (low : BitVec 2) (hi : BitVec 29) : Statement (.reservedCmd4to7 low hi) :=
  cmdWord_mask _ 4 4 hi (by revert low; decide)
theorem pwDiv (v : Byte) : Statement (.pwDiv v) := portWord_mask _ _ v
theorem pwPresc : Statement .pwPresc := rfl
theorem pwData (v : Byte) : Statement (.pwData v) := portWord_mask _ _ v
theorem pwCtlStart : Statement .pwCtlStart := rfl
theorem pwCtlCont : Statement .pwCtlCont := rfl
theorem pwCtlContAck : Statement .pwCtlContAck := rfl
theorem pwCtlStop : Statement .pwCtlStop := rfl
theorem prFlag (v : Byte) : Statement (.prFlag v) := portWord_mask _ _ v
theorem prStatus (v : Byte) : Statement (.prStatus v) := portWord_mask _ _ v
theorem prData (v : Byte) : Statement (.prData v) := portWord_mask _ _ v

end Sys2Proof.Laws.TableRow
end

