-- ==== Sys2Proof/Laws/Transaction.lean ====
section
/-! SUPPORT. Runs of a transaction against its pseudocode (Safety.lean): the wait steps of R140, the data phases and the STOP phase
of R124, each as one lemma about `Reaches`. -/

namespace Sys2Proof.Machine

/-- From now on PERIPH gives the answers `ans k`, `ans (k + 1)`, … -/
def AnswersFrom (s : State) (ans : Nat → Byte) (k : Nat) : Prop := ∀ j, s.answerAt j = ans (k + j)

/-- The next answer. -/
theorem AnswersFrom.now {s : State} {ans : Nat → Byte} {k : Nat} (h : AnswersFrom s ans k) : s.answer = ans k := by
  have := h 0
  unfold State.answerAt at this
  unfold State.answer
  cases ha : s.answers <;> simp [ha] at this ⊢ <;> exact this

/-- After an answer, the ones after it. -/
theorem AnswersFrom.of_answered {s t : State} {ans : Nat → Byte} {k : Nat} (h : AnswersFrom s ans k)
    (h1 : t.answers = s.answered.answers) (h2 : t.draws = s.answered.draws) : AnswersFrom t ans (k + 1) := by
  intro j
  rw [show k + 1 + j = k + (j + 1) by omega, ← h (j + 1)]
  unfold State.answerAt
  rw [h1, h2]
  unfold State.answered
  cases ha : s.answers with
  | nil => simp [Nat.add_assoc, Nat.add_comm 1 j]
  | cons a l => simp

/-- The answers depend on the tape and the draw counter alone. -/
theorem AnswersFrom.of_same {s t : State} {ans : Nat → Byte} {k : Nat} (h : AnswersFrom s ans k) (h1 : t.answers = s.answers)
    (h2 : t.draws = s.draws) : AnswersFrom t ans k := by
  intro j
  rw [← h j]
  unfold State.answerAt
  rw [h1, h2]

/-- A wait step takes between 0 and its budget of answers. -/
theorem refSample_ge (ans : Nat → Byte) (test : Byte → Bool) :
    ∀ n k, k ≤ (refSample ans test n k).2 ∧ (refSample ans test n k).2 ≤ k + n := by
  intro n
  induction n with
  | zero => intro k; simp [refSample]
  | succ n ih =>
    intro k
    simp only [refSample]
    split
    · simp
    · have := ih (k + 1)
      omega

/-- The first sample of a run of samples. -/
theorem refSamples_cons (r : PortReg) (ans : Nat → Byte) (k k' : Nat) (h : k + 1 ≤ k') :
    refSamples r ans k k' = .portRead r (ans k) :: refSamples r ans (k + 1) k' := by
  unfold refSamples
  rw [show k' - k = k' - (k + 1) + 1 by omega, List.range'_succ]
  simp

/-- FAILURE ENTRY with TIMEOUT (R176). -/
theorem State.raiseFail_code_timeout (s : State) :
    s.raiseFail .timeout = { s with seq := .stopCtl, err := some (s.err.getD .timeout) } := by
  unfold raiseFail
  cases s.err <;> rfl

/-- Step (a) of R140 as a run: it ends at step (b), or at the STOP phase with TIMEOUT. -/
theorem flag_loop (ans : Nat → Byte) (p : Phase) : ∀ (budget k : Nat) (s : State), s.cfg.wf = true → s.inbox = [] →
    s.seq = .flag p → s.timeout.toNat = s.cnt.toNat + budget → AnswersFrom s ans k →
    let a := refSample ans completionFlag budget k
    ∃ c as d, AnswersFrom { s with answers := as, draws := d } ans a.2 ∧
      Reaches s (if a.1 then
        { s with trace := s.trace ++ refSamples .cr ans k a.2, answers := as, draws := d, cnt := 0, seq := .status p }
      else { s with
        trace := s.trace ++ refSamples .cr ans k a.2, answers := as, draws := d, cnt := c, seq := .stopCtl
        err := some (s.err.getD .timeout) }) := by
  intro budget
  induction budget with
  | zero =>
    intro k s hw hin hq hc ha
    have hlt : ¬ s.cnt < s.timeout := by simp [BitVec.lt_def]; omega
    refine ⟨s.cnt, s.answers, s.draws, ha.of_same rfl rfl, .head (BlockMove.step hw hin (.flagSpent p hq hlt)) ?_⟩
    rw [s.raiseFail_code_timeout]
    simp [refSample, refSamples]
    exact .refl _
  | succ n ih =>
    intro k s hw hin hq hc ha
    have hlt : s.cnt < s.timeout := by simp [BitVec.lt_def]; omega
    simp only [refSample]
    rcases Bool.eq_false_or_eq_true (completionFlag (ans k)) with hf | hf
    · have hstep := BlockMove.step hw hin (.flagSet p hq hlt (by rw [ha.now]; exact hf))
      refine ⟨s.cnt, s.answered.answers, s.answered.draws, by simp only [hf]; exact ha.of_answered rfl rfl, .head hstep ?_⟩
      simp [hf, refSamples, ha.now]
      exact .refl _
    · have hstep := BlockMove.step hw hin (.flagClear p hq hlt (by rw [ha.now]; exact hf))
      have hcnt : (s.cnt + 1).toNat = s.cnt.toNat + 1 := by
        have := s.timeout.isLt
        simp [BitVec.toNat_add]
        omega
      obtain ⟨c, as, d, h1, h2⟩ := ih (k + 1)
        { s with
          trace := s.trace ++ [.portRead .cr s.answer], answers := s.answered.answers, draws := s.answered.draws
          cnt := s.cnt + 1, seq := .flag p }
        hw hin rfl (by simp only [hcnt]; omega) (ha.of_answered rfl rfl)
      refine ⟨c, as, d, by simp [hf]; exact h1.of_same rfl rfl, .head hstep ?_⟩
      have hs := refSamples_cons .cr ans k _ (refSample_ge ans completionFlag n (k + 1)).1
      simpa [hf, hs, ha.now, List.append_assoc] using h2

/-- Step (b) of R140 as a run: it ends after the match, or at the STOP phase with TIMEOUT. -/
theorem status_loop (ans : Nat → Byte) (p : Phase) : ∀ (budget k : Nat) (s : State), s.cfg.wf = true → s.inbox = [] →
    s.seq = .status p → s.timeout.toNat = s.cnt.toNat + budget → AnswersFrom s ans k →
    let a := refSample ans (fun v => matchesCode s.cfg v (expected s.cfg p s.dir)) budget k
    ∃ c as d, AnswersFrom { s with answers := as, draws := d } ans a.2 ∧
      Reaches s (if a.1 then
        { s with trace := s.trace ++ refSamples .psr ans k a.2, answers := as, draws := d, cnt := c, seq := afterMatch p s.dir }
      else { s with
        trace := s.trace ++ refSamples .psr ans k a.2, answers := as, draws := d, cnt := c, seq := .stopCtl
        err := some (s.err.getD .timeout) }) := by
  intro budget
  induction budget with
  | zero =>
    intro k s hw hin hq hc ha
    have hlt : ¬ s.cnt < s.timeout := by simp [BitVec.lt_def]; omega
    refine ⟨s.cnt, s.answers, s.draws, ha.of_same rfl rfl, .head (BlockMove.step hw hin (.statusSpent p hq hlt)) ?_⟩
    rw [s.raiseFail_code_timeout]
    simp [refSample, refSamples]
    exact .refl _
  | succ n ih =>
    intro k s hw hin hq hc ha
    have hlt : s.cnt < s.timeout := by simp [BitVec.lt_def]; omega
    simp only [refSample]
    rcases Bool.eq_false_or_eq_true (matchesCode s.cfg (ans k) (expected s.cfg p s.dir)) with hf | hf
    · have hstep := BlockMove.step hw hin (.statusMatch p hq hlt (by rw [ha.now]; exact hf))
      refine ⟨s.cnt + 1, s.answered.answers, s.answered.draws, by simp only [hf]; exact ha.of_answered rfl rfl, .head hstep ?_⟩
      simp [hf, refSamples, ha.now]
      exact .refl _
    · have hstep := BlockMove.step hw hin (.statusOther p hq hlt (by rw [ha.now]; exact hf))
      have hcnt : (s.cnt + 1).toNat = s.cnt.toNat + 1 := by
        have := s.timeout.isLt
        simp [BitVec.toNat_add]
        omega
      obtain ⟨c, as, d, h1, h2⟩ := ih (k + 1)
        { s with
          trace := s.trace ++ [.portRead .psr s.answer], answers := s.answered.answers, draws := s.answered.draws
          cnt := s.cnt + 1, seq := .status p }
        hw hin rfl (by simp only [hcnt]; omega) (ha.of_answered rfl rfl)
      refine ⟨c, as, d, by simp [hf]; exact h1.of_same rfl rfl, .head hstep ?_⟩
      have hs := refSamples_cons .psr ans k _ (refSample_ge ans (fun v => matchesCode s.cfg v (expected s.cfg p s.dir)) n (k + 1)).1
      simpa [hf, hs, ha.now, List.append_assoc] using h2

/-- The registers hold the operands of a transaction (R79). -/
structure HoldsOperands (s : State) (o : TxnOperands) : Prop where
  cfg    : s.cfg = o.cfg
  addr   : s.addr = o.addr
  buf    : s.buf = o.buf
  budget : s.timeout.toNat = o.budget
  dir    : s.dir = o.dir

/-- The whole of `Wait(e)` (R140) as a run. -/
theorem wait_loop (ans : Nat → Byte) (p : Phase) (k : Nat) (s : State) (o : TxnOperands) (ho : HoldsOperands s o)
    (hw : s.cfg.wf = true) (hin : s.inbox = []) (hq : s.seq = .flag p) (hc : s.cnt = 0) (he : s.err = none)
    (ha : AnswersFrom s ans k) (w : Bool × List Event × Nat)
    (hwait : refWait o.cfg o.budget ans (expected o.cfg p o.dir) k = w) :
    ∃ c as d, AnswersFrom { s with answers := as, draws := d } ans w.2.2 ∧
      Reaches s { s with
        trace := s.trace ++ w.2.1, answers := as, draws := d, cnt := c
        seq := if w.1 then afterMatch p s.dir else .stopCtl, err := if w.1 then none else some .timeout } := by
  obtain ⟨e1, -, -, e4, e5⟩ := ho
  rw [← e1, ← e4, ← e5] at hwait
  subst hwait
  obtain ⟨c, as, d, h1, h2⟩ := flag_loop ans p s.timeout.toNat k s hw hin hq (by simp [hc]) ha
  simp only [refWait]
  rcases Bool.eq_false_or_eq_true (refSample ans completionFlag s.timeout.toNat k).1 with hf | hf
  · simp only [hf, if_true] at h2 ⊢
    obtain ⟨c', as', d', h1', h2'⟩ := status_loop ans p s.timeout.toNat _
      { s with
        trace := s.trace ++ refSamples .cr ans k (refSample ans completionFlag s.timeout.toNat k).2
        answers := as, draws := d, cnt := 0, seq := .status p }
      hw hin rfl (by simp) (h1.of_same rfl rfl)
    refine ⟨c', as', d', h1', h2.trans ?_⟩
    rcases Bool.eq_false_or_eq_true (refSample ans (fun v => matchesCode s.cfg v (expected s.cfg p s.dir)) s.timeout.toNat
      (refSample ans completionFlag s.timeout.toNat k).2).1 with hg | hg <;>
    simpa [hg, he, List.append_assoc] using h2'
  · simp [hf, he] at h2 ⊢
    exact ⟨c, as, d, h1, h2⟩

/-- A run up to a wait goes on through it. -/
theorem Reaches.wait {s₀ s : State} (h : Reaches s₀ s) (ans : Nat → Byte) (p : Phase) (k : Nat) (o : TxnOperands)
    (ho : HoldsOperands s o) (hw : s.cfg.wf = true) (hin : s.inbox = []) (hq : s.seq = .flag p) (hc : s.cnt = 0) (he : s.err = none)
    (ha : AnswersFrom s ans k) (w : Bool × List Event × Nat)
    (hwait : refWait o.cfg o.budget ans (expected o.cfg p o.dir) k = w) :
    ∃ c as d, AnswersFrom { s with answers := as, draws := d } ans w.2.2 ∧
      Reaches s₀ { s with
        trace := s.trace ++ w.2.1, answers := as, draws := d, cnt := c
        seq := if w.1 then afterMatch p s.dir else .stopCtl, err := if w.1 then none else some .timeout } :=
  let ⟨c, as, d, h1, h2⟩ := wait_loop ans p k s o ho hw hin hq hc he ha w hwait
  ⟨c, as, d, h1, h.trans h2⟩

/-- The STOP phase and the completion after it are three steps (R124, R149, R177). -/
theorem stop_run (s : State) (hw : s.cfg.wf = true) (hin : s.inbox = []) (hq : s.seq = .stopCtl) :
    Host.Core.run core 3 s = .next { s with
      trace := s.trace ++ [.portWrite .cr s.cfg.ctlStop], txState := .stopped, result := s.err.getD .ok, done := true
      busy := false, op := .none, seq := .idle, hostRaced := [], blockRaced := [] } :=
  run_step (BlockMove.step hw hin (.stopCtl hq)) <| run_step (BlockMove.step hw hin (.stopped rfl)) <|
    run_step (BlockMove.step hw hin (.finish rfl)) (run_zero _)

/-- The current byte is the last one exactly when no byte remains after it. -/
theorem isLast_iff (s : State) (n : Nat) (hn : s.idx.toNat + (n + 1) = s.len.toNat) : s.isLast = (n == 0) := by
  have hl := s.len.isLt
  have h : s.idx = s.len - 1#32 ↔ n = 0 := by
    constructor
    · intro h
      have := congrArg BitVec.toNat h
      simp [BitVec.toNat_sub] at this
      omega
    · intro h
      apply BitVec.eq_of_toNat_eq
      simp [BitVec.toNat_sub]
      omega
  rw [State.isLast, Bool.eq_iff_iff]
  simpa using h

/-- A run from `s` comes to the STOP phase at `t`, having done what `r` says. -/
structure StopsWith (s : State) (r : TxnResult) (t : State) : Prop where
  run   : Reaches s t
  err   : t.err = if r.ok then none else some .timeout
  trace : t.trace = s.trace ++ r.events
  mem   : t.mem = r.mem
  init  : t.initialized = s.initialized
  args  : sameArguments s t
  seq   : t.seq = .stopCtl
  inbox : t.inbox = []
  cfg   : t.cfg = s.cfg

/-- What was done before it comes first. -/
theorem StopsWith.after {s u t : State} {r : TxnResult} (hg : StopsWith u r t) (es : List Event) (next : Nat) (h : Reaches s u)
    (ht : u.trace = s.trace ++ es) (hi : u.initialized = s.initialized) (ha : sameArguments s u) (hc : u.cfg = s.cfg) :
    StopsWith s { ok := r.ok, events := es ++ r.events, next := next, mem := r.mem } t where
  run   := h.trans hg.run
  err   := hg.err
  trace := by rw [hg.trace, ht, List.append_assoc]
  mem   := hg.mem
  init  := hg.init.trans hi
  args  := by
    obtain ⟨a1, a2, a3, a4, a5⟩ := ha
    obtain ⟨b1, b2, b3, b4, b5⟩ := hg.args
    exact ⟨b1.trans a1, b2.trans a2, b3.trans a3, b4.trans a4, b5.trans a5⟩
  seq   := hg.seq
  inbox := hg.inbox
  cfg   := hg.cfg.trans hc

/-- BUFMEM validity depends on the configuration, BUF and LEN alone. -/
theorem State.bufferValid.of_same {s t : State} (h : s.bufferValid) (hc : t.cfg = s.cfg) (hb : t.buf = s.buf) (hl : t.len = s.len) :
    t.bufferValid := by
  intro i hi
  have := h i (hl ▸ hi)
  rwa [hc, State.ea, hc, hb]

/-- The events of a SEND data phase before its wait (R147). -/
def txHead (p : Params) (a : Word) (b : Byte) : List Event := [.memRead a b, .portWrite .dr b, .portWrite .cr p.ctlCont]

/-- A SEND data phase up to its wait (R147). -/
theorem tx_head_run (s : State) (n : Nat) (b : Byte) (hw : s.cfg.wf = true) (hin : s.inbox = []) (hq : s.seq = .dataHead)
    (hd : s.dir = false) (hlt : s.idx < s.len) (hval : s.cfg.bufmemValid (s.ea s.idx) = true) (hr : s.hostRaced = [])
    (hlast : s.isLast = (n == 0)) (hb : s.mem.byteAt (s.ea s.idx) = b) :
    Reaches s { s with trace := s.trace ++ txHead s.cfg (s.ea s.idx) b, cnt := 0, seq := .flag (.data (n == 0)) } := by
  have hsees : ({ s with seq := .txRead } : State).blockSees [] (s.ea s.idx) = b := by
    simp [State.blockSees, State.blockOthers, hr, racedAt, pickValue, hb]
  have hea : ({ s with seq := .txRead } : State).ea s.idx = s.ea s.idx := rfl
  refine .head (BlockMove.step hw hin (.nextTx hq hlt hd)) ?_
  refine .head (BlockMove.step (s := { s with seq := .txRead }) hw hin (.txRead rfl hval)) ?_
  refine .head (BlockMove.step (by exact hw) (by exact hin) (.txPut _ (by rfl))) ?_
  refine .head (BlockMove.step (by exact hw) (by exact hin) (.txCtl (by rfl))) ?_
  have hll : ∀ x : State, x.idx = s.idx → x.len = s.len → x.isLast = (n == 0) := by
    intro x h1 h2
    rw [← hlast]
    simp [State.isLast, h1, h2]
  rw [hll _ (by rfl) (by rfl)]
  have hrace : ({ s with seq := .txRead } : State).blockOthers [] (s.ea s.idx) = [] := by simp [State.blockOthers, hr, racedAt]
  simp only [hea, hsees, hrace, State.memRead, State.emit, State.portWrite, State.enterWait, drawsAfterPick, List.isEmpty_nil,
    if_true, List.append_assoc, List.cons_append, List.nil_append]
  exact .refl _

/-- A RECV data phase up to its wait (R148). -/
theorem rx_head_run (s : State) (n : Nat) (hw : s.cfg.wf = true) (hin : s.inbox = []) (hq : s.seq = .dataHead)
    (hd : s.dir = true) (hlt : s.idx < s.len) (hlast : s.isLast = (n == 0)) :
    Reaches s { s with
      trace := s.trace ++ [.portWrite .cr (if n == 0 then s.cfg.ctlCont else s.cfg.ctlContAck)]
      cnt := 0, seq := .flag (.data (n == 0)) } := by
  refine .head (BlockMove.step hw hin (.nextRx hq hlt hd)) ?_
  rw [hlast]
  rcases Bool.eq_false_or_eq_true (n == 0) with hl | hl
  · simp only [hl, if_true]
    exact .head (BlockMove.step (by exact hw) (by exact hin) (.rxLast (by rfl))) (.refl _)
  · simp only [hl, Bool.false_eq_true, if_false]
    exact .head (BlockMove.step (by exact hw) (by exact hin) (.rxMore (by rfl))) (.refl _)

/-- The end of a RECV data phase: the byte is read and stored, and the next one begins (R148). -/
theorem rx_store_run (u : State) (a : Word) (d : Byte) (hw : u.cfg.wf = true) (hin : u.inbox = []) (hq : u.seq = .rxRead)
    (hea : u.ea u.idx = a) (hval : u.cfg.bufmemValid a = true) (hr : u.hostRaced = []) (hd : u.answer = d) :
    Reaches u { u with
      trace := u.trace ++ [.portRead .dr d, .memWrite a d]
      answers := u.answered.answers, draws := u.answered.draws, seq := .dataHead
      mem := u.mem.setByte a d, txState := .dataByte, idx := u.idx + 1
      blockRaced := (a.toNat, u.mem.byteAt a) :: u.blockRaced } := by
  subst hea hd
  let v : State := { u with
    trace := u.trace ++ [.portRead .dr u.answer], answers := u.answered.answers, draws := u.answered.draws
    seq := .rxStore u.answer }
  have e : ({ (v.memWrite (u.ea u.idx) u.answer) with seq := .phaseOk (.data u.isLast) } : State).setTxState .dataByte =
      { u with
        trace := u.trace ++ [.portRead .dr u.answer, .memWrite (u.ea u.idx) u.answer]
        answers := u.answered.answers, draws := u.answered.draws, seq := .phaseOk (.data u.isLast)
        mem := u.mem.setByte (u.ea u.idx) u.answer, txState := .dataByte
        blockRaced := ((u.ea u.idx).toNat, u.mem.byteAt (u.ea u.idx)) :: u.blockRaced } := by
    simp [v, State.memWrite, State.emit, State.setTxState, hr, racedAt, State.survivor, State.displaced, drawsAfterPick]
  refine .head (BlockMove.step hw hin (.rxRead hq)) ?_
  refine .head (BlockMove.step (s := v) hw hin (.rxStore u.answer rfl hval)) ?_
  refine .head (BlockMove.step (by exact hw) (by exact hin) (.dataOk _ (by rfl))) ?_
  have e' := congrArg (fun x : State => ({ x with idx := u.idx + 1, seq := .dataHead } : State)) e
  exact e' ▸ .refl _

/-- The data phases of R124 as a run. -/
theorem bytes_run (ans : Nat → Byte) (o : TxnOperands) : ∀ (n idx k : Nat) (m : Memory) (s : State), HoldsOperands s o →
    s.bufferValid → s.cfg.wf = true → s.inbox = [] → s.seq = .dataHead → s.idx.toNat = idx → idx + n = s.len.toNat → s.mem = m →
    AnswersFrom s ans k → s.err = none → s.hostRaced = [] → ∃ t, StopsWith s (refBytes o ans n idx k m) t := by
  intro n
  induction n with
  | zero =>
    intro idx k m s _ _ hw hin hq hidx hn hm _ he _
    refine ⟨_, .head (BlockMove.step hw hin (.dataEnd hq (by simp [BitVec.lt_def]; omega))) (.refl _), ?_, ?_, ?_, rfl, ?_, rfl,
      hin, rfl⟩ <;> simp [refBytes, he, hm, sameArguments]
  | succ n ih =>
    intro idx k m s ho hv hw hin hq hidx hn hm ha he hr
    have hlt : s.idx < s.len := by simp [BitVec.lt_def]; omega
    have hea : s.ea s.idx = keepBits s.cfg.addrW (o.buf + BitVec.ofNat 32 idx) := by simp [State.ea, ho.buf, ← hidx]
    have hlast := isLast_iff s n (by omega)
    have hval : s.cfg.bufmemValid (keepBits s.cfg.addrW (o.buf + BitVec.ofNat 32 idx)) = true := hea ▸ hv s.idx hlt
    have hidx1 : (s.idx + 1).toNat = idx + 1 := by
      have hl := s.len.isLt
      simp [BitVec.toNat_add]
      omega
    generalize hwq : refWait o.cfg o.budget ans (expected o.cfg (.data (n == 0)) o.dir) k = w
    simp only [refBytes, hwq]
    rw [← ho.cfg]
    generalize keepBits s.cfg.addrW (o.buf + BitVec.ofNat 32 idx) = a at hea hval ⊢
    have hds := ho.dir
    rcases Bool.eq_false_or_eq_true o.dir with hd | hd
    · rw [hd] at hds
      have hpre := rx_head_run s n hw hin hq hds hlt hlast
      obtain ⟨c, as, d, h1, h2⟩ := hpre.wait ans (.data (n == 0)) k o ⟨ho.1, ho.2, ho.3, ho.4, ho.5⟩ hw hin rfl rfl he
        (ha.of_same rfl rfl) w hwq
      rcases Bool.eq_false_or_eq_true w.1 with hw1 | hw1
      · have haft : afterMatch (.data (n == 0)) s.dir = .rxRead := by simp [afterMatch, hds]
        simp only [hd, hw1, if_true, haft] at h2 ⊢
        obtain ⟨u, hu, hue⟩ : ∃ u, Reaches s u ∧ u = _ := ⟨_, h2, rfl⟩
        have hansu : AnswersFrom u ans w.2.2 := h1.of_same (by rw [hue]) (by rw [hue])
        obtain ⟨v, hv', hve⟩ : ∃ v, Reaches s v ∧ v = _ := ⟨_, hu.trans (rx_store_run u a (ans w.2.2) (by rw [hue]; exact hw)
          (by rw [hue]; exact hin) (by rw [hue]) (by rw [hue]; exact hea) (by rw [hue]; exact hval) (by rw [hue]; exact hr)
          hansu.now), rfl⟩
        have hans : AnswersFrom v ans (w.2.2 + 1) := hansu.of_answered (by rw [hve]) (by rw [hve])
        clear hansu h2 hpre
        subst hue
        obtain ⟨t, ht⟩ := ih (idx + 1) (w.2.2 + 1) (m.setByte a (ans w.2.2)) v
          (by rw [hve]; exact ⟨ho.1, ho.2, ho.3, ho.4, hds.trans hd.symm⟩)
          (hv.of_same (by rw [hve]) (by rw [hve]) (by rw [hve]))
          (by rw [hve]; exact hw) (by rw [hve]; exact hin) (by rw [hve]) (by rw [hve]; exact hidx1)
          (by rw [hve]; exact (by omega : idx + 1 + n = s.len.toNat)) (by rw [hve]; exact hm ▸ rfl) hans (by rw [hve])
          (by rw [hve]; exact hr)
        have := ht.after (.portWrite .cr (if n == 0 then s.cfg.ctlCont else s.cfg.ctlContAck) :: w.2.1 ++
          [.portRead .dr (ans w.2.2), .memWrite a (ans w.2.2)])
          (refBytes o ans n (idx + 1) (w.2.2 + 1) (m.setByte a (ans w.2.2))).next hv'
          (by rw [hve]; simp) (by rw [hve]) (by rw [hve]; exact ⟨rfl, rfl, rfl, rfl, rfl⟩) (by rw [hve])
        exact ⟨t, by simpa using this⟩
      · simp only [hd, hw1, if_true, Bool.false_eq_true, if_false] at h2 ⊢
        exact ⟨_, h2, rfl, by simp, hm, rfl, ⟨rfl, rfl, rfl, rfl, rfl⟩, rfl, hin, rfl⟩
    · rw [hd] at hds
      have hpre := tx_head_run s n (m.byteAt a) hw hin hq hds hlt (hea ▸ hval) hr hlast (by rw [hm, hea])
      rw [hea] at hpre
      obtain ⟨c, as, d, h1, h2⟩ := hpre.wait ans (.data (n == 0)) k o ⟨ho.1, ho.2, ho.3, ho.4, ho.5⟩ hw hin rfl rfl he
        (ha.of_same rfl rfl) w hwq
      rcases Bool.eq_false_or_eq_true w.1 with hw1 | hw1
      · have haft : afterMatch (.data (n == 0)) s.dir = .phaseOk (.data (n == 0)) := by simp [afterMatch, hds]
        simp only [hd, hw1, if_true, haft, Bool.false_eq_true, if_false] at h2 ⊢
        obtain ⟨v, hv', hve⟩ : ∃ v, Reaches s v ∧ v = _ :=
          ⟨_, h2.trans (.head (BlockMove.step (by exact hw) (by exact hin) (.dataOk (n == 0) (by rfl))) (.refl _)), rfl⟩
        have hans : AnswersFrom v ans w.2.2 := h1.of_same (by rw [hve]; rfl) (by rw [hve]; rfl)
        obtain ⟨t, ht⟩ := ih (idx + 1) w.2.2 m v
          (by rw [hve]; exact ⟨ho.1, ho.2, ho.3, ho.4, hds.trans hd.symm⟩)
          (hv.of_same (by rw [hve]; rfl) (by rw [hve]; rfl) (by rw [hve]; rfl))
          (by rw [hve]; exact hw) (by rw [hve]; exact hin) (by rw [hve]) (by rw [hve]; exact hidx1)
          (by rw [hve]; exact (by omega : idx + 1 + n = s.len.toNat)) (by rw [hve]; exact hm) hans (by rw [hve]; rfl)
          (by rw [hve]; exact hr)
        have := ht.after (txHead s.cfg a (m.byteAt a) ++ w.2.1) (refBytes o ans n (idx + 1) w.2.2 m).next hv'
          (by rw [hve]; simp) (by rw [hve]; rfl) (by rw [hve]; exact ⟨rfl, rfl, rfl, rfl, rfl⟩) (by rw [hve]; rfl)
        exact ⟨t, by simpa [txHead] using this⟩
      · simp only [hd, hw1, Bool.false_eq_true, if_false] at h2 ⊢
        exact ⟨_, h2, rfl, by simp [txHead], hm, rfl, ⟨rfl, rfl, rfl, rfl, rfl⟩, rfl, hin, rfl⟩

end Sys2Proof.Machine
end

