-- ==== Sys2Proof/Tests/Slice0.lean ====
section
/-! SUPPORT. Tests: well-formedness, the decoding of words written out from the spec's encodings, one step of each instruction with
its expected result from the rules and from the vectors of 95_test_vectors.md, and for each statement a state that meets its
hypotheses. -/

namespace Sys2Proof.Tests

open Sys2Proof.Machine

/-! ### Helpers -/

/-- What a result shows of its next state. -/
def shows {α : Type} (r : Result) (f : State → α) : Option α :=
  match r with
  | .next s => some (f s)
  | .fault _ => none
  | .refused _ => none

/-- The instruction a code word decodes to. -/
def decoded (w : CodeWord) : Option Instr :=
  match decode w with
  | .ok i => some i
  | .error _ => none

/-- The name under which a code word is rejected. -/
def rejected (w : CodeWord) : Option DecodeError :=
  match decode w with
  | .ok _ => none
  | .error e => some e

/-- All of BUFMEM is memory, and the default budget is a number. -/
def params : Params := { Config.hardware with bufmemRegions := [⟨0, 65536⟩], timeoutDefault := 5 }

/-- After reset, with a budget of 3 samples. -/
def base : State := { State.reset with cfg := params, timeout := 3 }

/-- Initialised, with a buffer of one byte. -/
def ready : State :=
  { base with initialized := true, freq := 100000, addr := 0x70, buf := 0x0100, len := 1, mem := [(0x0100, 0x35)] }

/-- A transaction in progress at a position. -/
def running (o : Op) (q : Seq) : State := { ready with busy := true, op := o, dir := o == .recv, seq := q }

/-! ### Well-formedness: the check refuses an ill-formed term -/

theorem test_wf_refuses_read_with_data_off1 : (Instr.illformedOff1 false 2 5).wf = false := by decide
theorem test_wf_refuses_read_with_data_off2 : (Instr.illformedOff2 false 2 5).wf = false := by decide
theorem test_wf_refuses_read_with_data_off3 : (Instr.illformedOff3 false 2 5).wf = false := by decide
theorem test_wf_accepts_write_with_data : (Instr.illformedOff2 true 2 0xFFFF).wf = true := by decide
theorem test_wf_refuses_read_word_with_data : (CodeWord.hostAccess 0x04 1).wf = false := by decide
theorem test_params_wf_hardware : params.wf = true := by decide
theorem test_params_wf_refuses_zero :
    ({ params with supportedFreqs := [100000, 0, 1, 2, 3, 4] } : Params).wf = false := by decide
theorem test_params_wf_refuses_duplicate :
    ({ params with supportedFreqs := [100000, 400000, 1, 2, 100000, 4] } : Params).wf = false := by decide
theorem test_params_wf_refuses_five_entries :
    ({ params with supportedFreqs := [1, 2, 3, 4, 5] } : Params).wf = false := by decide
theorem test_params_wf_refuses_no_clock : ({ params with coreClockHz := 0 } : Params).wf = false := by decide
theorem test_params_wf_refuses_ratio_zero : ({ params with prescaler := 0 } : Params).wf = false := by decide
theorem test_params_wf_refuses_wide_divisor : ({ params with divW := 33 } : Params).wf = false := by decide
theorem test_params_wf_refuses_wide_registers :
    ({ params with timeoutW := 33 } : Params).wf = false ∧ ({ params with addrW := 33 } : Params).wf = false ∧
      ({ params with lenW := 33 } : Params).wf = false := by decide

/-! ### Decoding (R71 to R75). `HA` is WE, then OFF[4:2], then OFF[1:0]. -/

theorem test_decode_rdCmd : decoded (.hostAccess 0b000000 0) = some .rdCmd := by decide
theorem test_decode_wrCmd : decoded (.hostAccess 0b100000 0xFFFFFFF9) = some (.wrCmd 0xFFFFFFF9) := by decide
theorem test_decode_rdStatus : decoded (.hostAccess 0b000100 0) = some .rdStatus := by decide
theorem test_decode_wrStatus : decoded (.hostAccess 0b100100 2) = some (.wrStatus 2) := by decide
theorem test_decode_rdFreq : decoded (.hostAccess 0b001000 0) = some .rdFreq := by decide
theorem test_decode_wrFreq : decoded (.hostAccess 0b101000 0x00061A80) = some (.wrFreq 400000) := by decide
theorem test_decode_rdAddr : decoded (.hostAccess 0b001100 0) = some .rdAddr := by decide
theorem test_decode_wrAddr : decoded (.hostAccess 0b101100 0x70) = some (.wrAddr 0x70) := by decide
theorem test_decode_rdBuf : decoded (.hostAccess 0b010000 0) = some .rdBuf := by decide
theorem test_decode_wrBuf : decoded (.hostAccess 0b110000 0x100) = some (.wrBuf 0x100) := by decide
theorem test_decode_rdLen : decoded (.hostAccess 0b010100 0) = some .rdLen := by decide
theorem test_decode_wrLen : decoded (.hostAccess 0b110100 2) = some (.wrLen 2) := by decide
theorem test_decode_rdTimeout : decoded (.hostAccess 0b011000 0) = some .rdTimeout := by decide
theorem test_decode_wrTimeout : decoded (.hostAccess 0b111000 3) = some (.wrTimeout 3) := by decide
theorem test_decode_rdRsvd1C : decoded (.hostAccess 0b011100 0) = some .rdRsvd1C := by decide
theorem test_decode_wrRsvd1C : decoded (.hostAccess 0b111100 1) = some (.wrRsvd1C 1) := by decide
theorem test_decode_illformedOff1 : decoded (.hostAccess 0b011101 0) = some (.illformedOff1 false 7 0) := by decide
theorem test_decode_illformedOff2 : decoded (.hostAccess 0b101010 0xFFFF) = some (.illformedOff2 true 2 0xFFFF) := by decide
theorem test_decode_illformedOff3 : decoded (.hostAccess 0b000011 0) = some (.illformedOff3 false 0 0) := by decide
theorem test_decode_init : decoded (.cmd 0xFFFFFFF9) = some (.init 0x1FFFFFFF) := by decide
theorem test_decode_send : decoded (.cmd 0b010) = some (.send 0) := by decide
theorem test_decode_recv : decoded (.cmd 0b1011) = some (.recv 1) := by decide
theorem test_decode_reservedCmd0 : decoded (.cmd 0b10000) = some (.reservedCmd0 2) := by decide
theorem test_decode_reservedCmd4 : decoded (.cmd 0b100) = some (.reservedCmd4to7 0 0) := by decide
theorem test_decode_reservedCmd7 : decoded (.cmd 0b111) = some (.reservedCmd4to7 3 0) := by decide
theorem test_decode_pwDiv : decoded (.portEvent 0b1_000_01001000) = some (.pwDiv 0x48) := by decide
theorem test_decode_pwPresc : decoded (.portEvent 0b1_001_00000000) = some .pwPresc := by decide
theorem test_decode_pwData : decoded (.portEvent 0b1_010_11100000) = some (.pwData 0xE0) := by decide
theorem test_decode_pwCtlStart : decoded (.portEvent 0b1_011_10100100) = some .pwCtlStart := by decide
theorem test_decode_pwCtlCont : decoded (.portEvent 0b1_011_10000100) = some .pwCtlCont := by decide
theorem test_decode_pwCtlContAck : decoded (.portEvent 0b1_011_11000100) = some .pwCtlContAck := by decide
theorem test_decode_pwCtlStop : decoded (.portEvent 0b1_011_10010100) = some .pwCtlStop := by decide
theorem test_decode_prFlag : decoded (.portEvent 0b0_011_10000000) = some (.prFlag 0x80) := by decide
theorem test_decode_prStatus : decoded (.portEvent 0b0_001_00011001) = some (.prStatus 0x19) := by decide
theorem test_decode_prData : decoded (.portEvent 0b0_010_01100110) = some (.prData 0x66) := by decide

theorem test_reject_register4 : rejected (.portEvent 0b1_100_00000000) = some .noSuchPortRegister := by decide
theorem test_reject_register7_read : rejected (.portEvent 0b0_111_00000000) = some .noSuchPortRegister := by decide
theorem test_reject_divisor_read : rejected (.portEvent 0b0_000_00000000) = some .divisorIsNeverRead := by decide
theorem test_reject_prescaler_code : rejected (.portEvent 0b1_001_00000001) = some .notThePrescalerCode := by decide
theorem test_reject_control_word : rejected (.portEvent 0b1_011_10000101) = some .notAControlWord := by decide

/-- R75: TWINT is bit 7, TWEA 6, TWSTA 5, TWSTO 4, TWEN 2. -/
theorem test_control_words_from_bits :
    Config.ctlStart = 1#8 <<< 7 ||| 1#8 <<< 5 ||| 1#8 <<< 2 ∧ Config.ctlCont = 1#8 <<< 7 ||| 1#8 <<< 2 ∧
    Config.ctlContAck = 1#8 <<< 7 ||| 1#8 <<< 6 ||| 1#8 <<< 2 ∧ Config.ctlStop = 1#8 <<< 7 ||| 1#8 <<< 4 ||| 1#8 <<< 2 := by decide

/-- Table words of 8, 16, 32 and 40 bits. -/
theorem test_table_words :
    decodeTableWord 8 0x2C = some (.wrAddr 0) ∧ decodeTableWord 8 2 = some (.send 0) ∧
    decodeTableWord 16 0xBA4 = some .pwCtlStart ∧ decodeTableWord 32 3 = some (.recv 0) ∧
    decodeTableWord 40 0x702C = some (.wrAddr 0x70) := by decide

/-! ### Host accesses (vectors V-HA and the examples of R90 to R106) -/

theorem test_rdCmd_busy : shows (exec .rdCmd (running .send .txCtl)) State.ret = some 0 := by decide
/-- V-HA-12: Started, DONE 0, INIT 1, BUSY 1. -/
theorem test_rdStatus_started :
    shows (exec .rdStatus { running .send (.flag .address) with txState := .started }) State.ret = some 0x103 := by decide
/-- R107: Stopped, TIMEOUT, DONE, INIT. -/
theorem test_rdStatus_timeout :
    shows (exec .rdStatus { ready with txState := .stopped, result := .timeout, done := true }) State.ret = some 0x426 := by decide
theorem test_rdFreq : shows (exec .rdFreq { base with freq := 123 }) State.ret = some 123 := by decide
theorem test_rdAddr : shows (exec .rdAddr { base with addr := 0x70 }) State.ret = some 0x70 := by decide
theorem test_rdBuf : shows (exec .rdBuf { base with buf := 0x2345 }) State.ret = some 0x2345 := by decide
theorem test_rdLen_busy : shows (exec .rdLen { running .send .txCtl with len := 6 }) State.ret = some 6 := by decide
theorem test_rdTimeout : shows (exec .rdTimeout base) State.ret = some 3 := by decide
theorem test_rdRsvd1C : shows (exec .rdRsvd1C { ready with ret := 9 }) State.ret = some 0 := by decide
theorem test_wrStatus : shows (exec (.wrStatus 2) base) State.statusWord = some 0 := by decide
theorem test_wrFreq_unchecked : shows (exec (.wrFreq 123) base) State.freq = some 123 := by decide
/-- V-HA-2. -/
theorem test_wrAddr_keeps_seven_bits : shows (exec (.wrAddr 0xF0) base) State.addr = some 0x70 := by decide
/-- V-HA-13. -/
theorem test_wrBuf_null : shows (exec (.wrBuf 0x10000) ready) State.buf = some 0 := by decide
/-- V-HA-4. -/
theorem test_wrLen_keeps_sixteen_bits : shows (exec (.wrLen 0x10003) base) State.len = some 3 := by decide
/-- V-HA-11. -/
theorem test_wrLen_busy : shows (exec (.wrLen 5) (running .send .txCtl)) State.len = some 1 := by decide
theorem test_wrTimeout_zero : shows (exec (.wrTimeout 0) base) State.timeout = some 0 := by decide
theorem test_wrRsvd1C : shows (exec (.wrRsvd1C 1) base) id = some base := by decide
/-- V-HA-9. -/
theorem test_wrCmd_ignores_high_bits :
    shows (exec (.wrCmd 0xFFFFFFF9) base) (fun s => (s.op, s.busy, s.seq)) = some (.init, true, .initCheck) := by decide
/-- V-HA-8. -/
theorem test_wrCmd_reserved : shows (exec (.wrCmd 4) base) id = some base := by decide
theorem test_illformedOff1_read : shows (exec (.illformedOff1 false 2 0) { ready with ret := 9 }) State.ret = some 0 := by decide
/-- V-HA-7. -/
theorem test_illformedOff2_write : shows (exec (.illformedOff2 true 2 0xFFFF) base) State.freq = some 0 := by decide
theorem test_illformedOff3_write : shows (exec (.illformedOff3 true 3 5) base) State.addr = some 0 := by decide

/-! ### Commands -/

theorem test_init_accepted :
    shows (exec (.init 0) { ready with done := true }) (fun s => (s.busy, s.done, s.op)) = some (true, false, .init) := by decide
theorem test_send_accepted :
    shows (exec (.send 7) ready) (fun s => (s.busy, s.op, s.seq)) = some (true, .send, .precheck) := by decide
theorem test_send_busy : shows (exec (.send 0) (running .recv .rxRead)) State.op = some .recv := by decide
theorem test_recv_clears_counters :
    shows (exec (.recv 0) { ready with idx := 4, cnt := 5, err := some .timeout }) (fun s => (s.idx, s.cnt, s.err)) =
      some (0, 0, none) := by decide
theorem test_reservedCmd0 : shows (exec (.reservedCmd0 1) { ready with done := true }) State.done = some true := by decide
theorem test_reservedCmd7 : shows (exec (.reservedCmd4to7 3 0) ready) State.busy = some false := by decide

/-! ### Port operations -/

theorem test_pwDiv :
    shows (exec (.pwDiv 0x48) (running .init (.initDiv 0x48))) (fun s => (s.trace, s.seq)) =
      some ([.portWrite .divr 0x48], .initPresc) := by decide
theorem test_pwPresc : shows (exec .pwPresc (running .init .initPresc)) State.trace = some [.portWrite .psr 0x00] := by decide
theorem test_pwData_address :
    shows (exec (.pwData 0xE0) (running .send .addrData)) (fun s => (s.trace, s.seq)) =
      some ([.portWrite .dr 0xE0], .addrCtl) := by decide
theorem test_pwData_byte : shows (exec (.pwData 0x35) (running .send (.txPut 0x35))) State.seq = some .txCtl := by decide
theorem test_pwCtlStart :
    shows (exec .pwCtlStart { running .send .startCtl with cnt := 9 }) (fun s => (s.trace, s.cnt, s.seq)) =
      some ([.portWrite .cr 0xA4], 0, .flag .start) := by decide
theorem test_pwCtlCont_last_recv_byte :
    shows (exec .pwCtlCont (running .recv (.rxCtl true))) (fun s => (s.trace, s.seq)) =
      some ([.portWrite .cr 0x84], .flag (.data true)) := by decide
theorem test_pwCtlCont_send_byte :
    shows (exec .pwCtlCont { running .send .txCtl with len := 2 }) State.seq = some (.flag (.data false)) := by decide
theorem test_pwCtlContAck :
    shows (exec .pwCtlContAck (running .recv (.rxCtl false))) (fun s => (s.trace, s.seq)) =
      some ([.portWrite .cr 0xC4], .flag (.data false)) := by decide
theorem test_pwCtlStop :
    shows (exec .pwCtlStop (running .send .stopCtl)) (fun s => (s.trace, s.seq)) =
      some ([.portWrite .cr 0x94], .stopped) := by decide
/-- V-WAIT-7: bit 7 clear. -/
theorem test_prFlag_clear :
    shows (exec (.prFlag 0x7F) (running .send (.flag .start))) (fun s => (s.cnt, s.seq)) = some (1, .flag .start) := by decide
/-- P4 of 95_test_vectors.md: the third sample of the START wait, 0x84, is a set flag. -/
theorem test_prFlag_set :
    shows (exec (.prFlag 0x84) { running .send (.flag .start) with cnt := 2 }) (fun s => (s.cnt, s.seq)) =
      some (0, .status .start) := by decide
/-- V-WAIT-6: 0x0B matches 0x08 under the mask. -/
theorem test_prStatus_masked :
    shows (exec (.prStatus 0x0B) (running .send (.status .start))) State.seq = some (.phaseOk .start) := by decide
/-- V-RECV-4: the write code does not match in a RECV. -/
theorem test_prStatus_wrong_direction :
    shows (exec (.prStatus 0x18) (running .recv (.status .address))) (fun s => (s.cnt, s.seq)) =
      some (1, .status .address) := by decide
theorem test_prData : shows (exec (.prData 0x66) (running .recv .rxRead)) State.seq = some (.rxStore 0x66) := by decide

/-! ### BLOCK's internal steps -/

/-- V-INIT-4. -/
theorem test_step_init_divisor_wraps :
    shows (step { running .init .initCheck with freq := 1700000 }) State.seq = some (.initDiv 0xFC) := by decide
/-- V-INIT-13: a configured frequency above the clock. -/
theorem test_divisor_above_clock : divisor params 20000000 = 0xF8 := by decide
/-- R111 with a ratio of 4: 144 / 8 = 18. -/
theorem test_divisor_prescaled : divisor { params with prescaler := 4 } 100000 = 18 := by decide
/-- V-INIT-10. -/
theorem test_step_init_rejected :
    shows (step { running .init .initCheck with freq := 123 }) State.statusWord = some 0x016 := by decide
/-- V-PRE-2: INIT = 0 is tested first. -/
theorem test_step_precheck_not_initialized :
    shows (step { running .recv .precheck with initialized := false, buf := 0, len := 0 }) State.statusWord = some 0x014 := by decide
/-- V-PRE-6. -/
theorem test_step_precheck_invalid_buffer :
    shows (step { running .recv .precheck with buf := 0, txState := .stopped }) State.statusWord = some 0x436 := by decide
/-- V-WAIT-1: no sample with a budget of 0. -/
theorem test_step_zero_budget :
    shows (step { running .send (.flag .start) with timeout := 0 }) (fun s => (s.trace, s.err, s.seq)) =
      some ([], some .timeout, .stopCtl) := by decide
theorem test_step_memRead :
    shows (step { running .send .txRead with answers := [0, 0, 0] }) (fun s => (s.trace, s.seq)) =
      some ([.memRead 0x0100 0x35], .txPut 0x35) := by decide
/-- V-RECV-7: the buffer address wraps to 0. -/
theorem test_step_memWrite_wraps :
    shows (step { running .recv (.rxStore 0x34) with buf := 0xFFFF, len := 2, idx := 1 }) (fun s => (s.trace, s.mem)) =
      some ([.memWrite 0x0000 0x34], [(0, 0x34), (0x0100, 0x35)]) := by decide
/-- R52: stuck at an address that holds no memory. -/
theorem test_step_stuck :
    (match step { running .send .txRead with cfg := { params with bufmemRegions := [⟨0, 256⟩] } } with
      | .fault r => some r
      | _ => none) = some (.bufmemStuck 0x0100) := by decide
/-- V-RST-2. -/
theorem test_step_reset_keeps_bufmem :
    shows (step { running .recv .rxRead with inbox := [.reset] }) (fun s => (s.statusWord, s.trace, s.mem)) =
      some (0, [], [(0x0100, 0x35)]) := by decide
/-- R62: a HOST write while BUSY = 1 keeps the byte it displaced as the other value of the race. -/
theorem test_step_host_write_races :
    shows (step { running .send .txRead with inbox := [.bufWrite 0x0100 9] }) (fun s => (s.mem, s.hostRaced)) =
      some ([(0x0100, 9)], [(0x0100, 0x35)]) := by decide
/-- R62: the value HOST writes later in the command is one that BLOCK's read may see. -/
theorem test_later_host_write :
    { running .send .txRead with answers := [0, 0, 0], inbox := [.block, .bufWrite 0x0100 9] }.later = [9] := by decide
/-- R62: the byte BLOCK stores later in the command is one that HOST's read may see. -/
theorem test_later_block_write :
    { running .recv .rxRead with answers := [0x66, 0, 0, 0], inbox := [.bufRead 0x0100] }.later = [0x66] := by decide
/-- R68: a HOST write where there is no memory changes nothing, and nothing faults. -/
theorem test_step_host_write_without_memory :
    shows (step { ready with cfg := { params with bufmemRegions := [] }, inbox := [.bufWrite 0x0200 9] }) State.mem =
      some [(0x0100, 0x35)] := by decide
theorem test_step_host_reads_bufmem :
    shows (step { ready with inbox := [.bufRead 0x0100] }) State.retByte = some 0x35 := by decide
theorem test_poll_gives_block_a_turn :
    shows (step { running .send .startCtl with inbox := [Script.awaitDone] }) State.inbox =
      some [.block, Script.awaitDone] := by decide

/-! ### Witnesses: for each statement, a state and operands that meet its hypotheses -/

theorem inv_base : Inv base := by constructor <;> decide
theorem inv_ready : Inv ready := by constructor <;> decide
theorem inv_initFlag : Inv (running .init .initFlag) := by constructor <;> decide
theorem inv_finish : Inv { running .send .finish with txState := .stopped, idx := 1 } := by constructor <;> decide
theorem inv_startOk : Inv (running .send (.phaseOk .start)) := by constructor <;> decide
theorem inv_rxStore : Inv { running .recv (.rxStore 7) with txState := .addressSent } := by constructor <;> decide

theorem ready_bufferValid : ready.bufferValid := by
  intro i _
  have h : (ready.ea i).toNat < 65536 := keepBits_lt 16 _
  show params.bufmemValid (ready.ea i) = true
  simp [params, Params.bufmemValid, Config.hardware, h]

theorem witness_DecodeEncodeRoundTrip : (Instr.illformedOff2 true 2 0xFFFF).wf = true := by decide
theorem witness_EncodeDecodeRoundTrip : ∃ (w : CodeWord) (i : Instr), w.wf = true ∧ decode w = .ok i :=
  ⟨.portEvent 0x848, .pwDiv 0x48, rfl, rfl⟩
theorem witness_CommandUpperBitsIgnored : (0xFFFFFFF9 : Word).extractLsb' 0 3 = (1 : Word).extractLsb' 0 3 := by decide
theorem witness_WritesWhileBusyAreIgnored : (running .send .txCtl).busy = true := by decide
theorem witness_IllFormedAccessesHaveNoEffect :
    ∃ (s t : State) (a b : HostAccess), s.cfg.wf = true ∧ t.cfg.wf = true ∧ s.inbox = [.access a] ∧ t.inbox = [.access b] ∧
      a.width ≠ 32 ∧ b.width = 32 ∧ b.ha.toNat % 4 ≠ 0 :=
  ⟨{ base with inbox := [.access ⟨16, 0x28, 5⟩] }, { base with inbox := [.access ⟨32, 0x2A, 5⟩] }, _, _, by decide, by decide, rfl,
    rfl, by decide, rfl, by decide⟩
theorem witness_CommandWriteAccepts :
    base.busy = false ∧ (9 : Word).toNat % 8 = 1 ∧ (2 : Word).toNat % 8 = 2 ∧ (3 : Word).toNat % 8 = 3 ∧ (0 : Word).toNat % 8 = 0 ∧
      4 ≤ (4 : Word).toNat % 8 ∧ 4 ≤ (7 : Word).toNat % 8 ∧ (running .send .txCtl).busy = true := by decide
theorem witness_CommandsAreAccepted : base.busy = false ∧ (running .send .txCtl).busy = true := by decide
theorem witness_PortWritesMoveOn :
    (running .init (.initDiv 1)).seq = .initDiv 1 ∧ (running .init .initPresc).seq = .initPresc ∧
    (running .send .addrData).seq = .addrData ∧ (running .send (.txPut 1)).seq = .txPut 1 ∧
    (running .send .startCtl).seq = .startCtl ∧ (running .send .addrCtl).seq = .addrCtl ∧ (running .send .txCtl).seq = .txCtl ∧
    (running .recv (.rxCtl true)).seq = .rxCtl true ∧ (running .recv (.rxCtl false)).seq = .rxCtl false ∧
    (running .send .stopCtl).seq = .stopCtl := by decide
theorem witness_FlagSampleOfStepA :
    (running .send (.flag .start)).seq = .flag .start ∧ 128 ≤ (0x80 : Byte).toNat ∧ ¬ 128 ≤ (0x7F : Byte).toNat := by decide
theorem witness_StatusSampleOfStepB :
    let s := running .recv (.status (.data true))
    s.seq = .status (.data true) ∧ s.dir = true ∧ 0x59 &&& s.cfg.statusMask = expected s.cfg (.data true) s.dir ∧
      ¬ 0x50 &&& s.cfg.statusMask = expected s.cfg (.data true) s.dir := by decide
theorem witness_DataReadCarriesItsByte : (running .recv .rxRead).seq = .rxRead := by decide
theorem witness_BufferAddressWraps : base.cfg.wf = true := by decide
theorem witness_DivisorFormula :
    (1000000 : Word) ≠ 0 ∧ params.coreClockHz.toNat / (1000000 : Word).toNat = 16 ∧
    params.coreClockHz.toNat / (1700000 : Word).toNat < 16 ∧ params.prescaler = 1 ∧ params.divW = 8 ∧
    params.coreClockHz.toNat < (20000000 : Word).toNat := by decide
theorem witness_InitAcceptedRuns :
    ready.cfg.wf = true ∧ ready.busy = false ∧ ready.inbox = [] ∧ ready.cfg.supportedFreqs.contains ready.freq = true ∧
      exec (.init 0) ready = .next (ready.accept .init) := ⟨by decide, rfl, rfl, by decide, rfl⟩
theorem witness_InitRejectedChangesNothing :
    base.cfg.wf = true ∧ base.busy = false ∧ base.inbox = [] ∧ base.cfg.supportedFreqs.contains base.freq = false ∧
      exec (.init 0) base = .next (base.accept .init) := ⟨by decide, rfl, rfl, by decide, rfl⟩
theorem witness_OnlyInitSets :
    ∃ s t : State, Inv s ∧ step s = .next t ∧ s.initialized = false ∧ t.initialized = true :=
  ⟨{ running .init .initFlag with initialized := false }, _, by constructor <;> decide, rfl, rfl, rfl⟩
theorem witness_OnlyResetClears :
    ∃ s t : State, Inv s ∧ step s = .next t ∧ s.initialized = true ∧ t.initialized = false :=
  ⟨{ ready with inbox := [.reset] }, _, by constructor <;> decide, rfl, rfl, rfl⟩
theorem witness_PrecheckFailuresTouchNothing :
    let s := running .send .precheck
    s.cfg.wf = true ∧ s.inbox = [] ∧ s.seq = .precheck ∧ s.initialized = true ∧ s.buf ≠ 0 ∧ s.len ≠ 0 ∧
      { s with initialized := false }.initialized = false ∧ { s with buf := 0 }.buf = 0 ∧ { s with len := 0 }.len = 0 := by decide
theorem witness_SpentBudgetEntersTheFailure :
    let s := { running .send (.flag .start) with cnt := 3 }
    s.cfg.wf = true ∧ s.inbox = [] ∧ s.seq = .flag .start ∧ s.timeout ≤ s.cnt ∧
      { s with seq := .status .start }.seq = .status .start := by decide
theorem witness_CompletionIsOneStep :
    (running .send .finish).cfg.wf = true ∧ (running .send .finish).inbox = [] ∧ (running .send .finish).seq = .finish := by decide
/-- `ready` with turns of HOST to come during the command: a read of STATUS, a write that is ignored, accesses to BUFMEM outside the
buffer and a read of it, and a poll. -/
def meanwhile : State :=
  { ready with inbox :=
      [Script.rd .status, .block, Script.wr .len 5, .bufWrite 0x0200 9, .bufRead 0x0100, .block, Script.awaitDone] }

theorem inv_meanwhile : Inv meanwhile := by constructor <;> decide

theorem witness_TransactionFollowsThePseudocode :
    Inv meanwhile ∧ meanwhile.cfg.wf = true ∧ meanwhile.busy = false ∧
      (∀ u ∈ meanwhile.inbox, u ≠ .reset ∧ ∀ b, ∀ i : Word, i < meanwhile.len → u ≠ .bufWrite (meanwhile.ea i) b) ∧
      meanwhile.prechecksPass = true ∧ meanwhile.bufferValid ∧
      exec (.send 0) meanwhile = .next (meanwhile.accept .send) ∧ exec (.recv 0) meanwhile = .next (meanwhile.accept .recv) := by
  refine ⟨inv_meanwhile, by decide, rfl, fun u hu => ⟨?_, fun b i hi h => ?_⟩, by decide, ready_bufferValid, rfl, rfl⟩
  · have : ∀ u ∈ meanwhile.inbox, u ≠ .reset := by decide
    exact this u hu
  · have h0 : i = 0 := by
      have hi' : i < 1#32 := hi
      bv_omega
    subst h0 h
    have : ∀ u ∈ meanwhile.inbox, ∀ a b, u = Turn.bufWrite a b → a = 0x0200 := by
      simp [meanwhile, Script.rd, Script.wr, Script.awaitDone, Script.poll]
    exact absurd (this _ hu _ b rfl) (by decide)
theorem witness_EveryCommandEndsWithinItsBound :
    let s := { meanwhile with inbox := .bufWrite 0x0100 9 :: meanwhile.inbox }
    Inv s ∧ s.cfg.wf = true ∧ s.busy = false ∧ .reset ∉ s.inbox ∧ Op.send ≠ .none ∧ Op.recv ≠ .none ∧
      s.prechecksPass = true ∧ s.bufferValid :=
  ⟨by constructor <;> decide, by decide, rfl, by decide, by decide, by decide, by decide, ready_bufferValid⟩
/-- Without any memory: an INIT, and a SEND that fails its prechecks. -/
theorem witness_EveryCommandEndsWithinItsBound_without_memory :
    let s := { base with cfg := { params with bufmemRegions := [] } }
    Inv s ∧ s.cfg.wf = true ∧ s.busy = false ∧ .reset ∉ s.inbox ∧ Op.init ≠ .none ∧ ¬ (Op.init = .send ∨ Op.init = .recv) ∧
      s.prechecksPass = false :=
  ⟨by constructor <;> decide, by decide, rfl, by decide, by decide, by decide, by decide⟩

/-- `ready` with a budget of 0 (V-WAIT-1). -/
def zeroBudget : State := { ready with timeout := 0 }

/-- A run of which every state before the last is busy. -/
theorem busyUntil_of_shows {s : State} {n : Nat} (h : ∀ m < n, shows (Host.Core.run core m s) State.busy = some true) :
    busyUntil s n := by
  intro m hm u hu
  have h := h m hm
  rw [hu] at h
  exact Option.some.inj h

/-- `zeroBudget` with turns of HOST during the command: a read of STATUS and a write of the buffer. -/
def zeroBudgetMeanwhile : State :=
  { zeroBudget with inbox := [.block, Script.rd .status, .block, .bufWrite 0x0100 9, .block] }

theorem witness_StopIsWrittenExactlyOnce :
    let s := zeroBudgetMeanwhile
    ∃ t, Inv s ∧ s.busy = false ∧ .reset ∉ s.inbox ∧ s.cfg.stopIsOwn = true ∧
      Host.Core.run core 9 (s.accept .send) = .next t ∧ busyUntil (s.accept .send) 9 ∧ t.busy = false ∧ s.prechecksPass = true :=
  ⟨_, by constructor <;> decide, rfl, by decide, by decide, rfl, busyUntil_of_shows (by decide), rfl, by decide⟩
theorem witness_StopIsWrittenExactlyOnce_precheck :
    let s := { base with inbox := [Script.rd .status] }
    ∃ t, Inv s ∧ s.busy = false ∧ .reset ∉ s.inbox ∧ s.cfg.stopIsOwn = true ∧
      Host.Core.run core 2 (s.accept .recv) = .next t ∧ busyUntil (s.accept .recv) 2 ∧ t.busy = false ∧ s.prechecksPass = false :=
  ⟨_, by constructor <;> decide, rfl, by decide, by decide, rfl, busyUntil_of_shows (by decide), rfl, by decide⟩
theorem witness_ZeroBudgetIsStartThenStop :
    zeroBudget.cfg.wf = true ∧ zeroBudget.busy = false ∧ zeroBudget.inbox = [] ∧ zeroBudget.prechecksPass = true ∧
      zeroBudget.timeout = 0 ∧ exec (.send 0) zeroBudget = .next (zeroBudget.accept .send) :=
  ⟨by decide, rfl, rfl, by decide, rfl, rfl⟩
theorem witness_TransactionStateMovesAsR120Says :
    ∃ s t : State, Inv s ∧ step s = .next t ∧ t.txState ≠ s.txState :=
  ⟨running .send (.phaseOk .start), _, inv_startOk, rfl, by decide⟩
theorem witness_BlockStoresOnlyTheCurrentByte :
    ∃ s t : State, Inv s ∧ s.inbox.head? = none ∧ step s = .next t ∧ s.op = .recv :=
  ⟨_, _, inv_rxStore, rfl, rfl, rfl⟩
theorem witness_BlockStoresOnlyTheCurrentByte_send :
    ∃ s t : State, Inv s ∧ s.inbox.head? = some .block ∧ step s = .next t ∧ s.op ≠ .recv :=
  ⟨{ running .send (.phaseOk .start) with inbox := [.block] }, _, by constructor <;> decide, rfl, rfl, by decide⟩
theorem witness_BlockStoresOnlyTheCurrentByte_elsewhere :
    ∃ s t : State, Inv s ∧ s.inbox.head? = none ∧ step s = .next t ∧ s.op = .recv ∧ ∀ d, s.seq ≠ .rxStore d :=
  ⟨running .recv (.phaseOk .start), _, by constructor <;> decide, rfl, rfl, rfl, fun _ h => by cases h⟩
theorem witness_RecvByteIsStored :
    let s := { running .recv (.rxStore 7) with txState := .addressSent }
    s.cfg.wf = true ∧ s.inbox = [] ∧ s.seq = .rxStore 7 ∧ s.cfg.bufmemValid (s.ea s.idx) = true ∧
      racedAt s.hostRaced (s.ea s.idx) = [] := by decide
theorem witness_SendByteIsRead :
    let s := running .send .txRead
    s.cfg.wf = true ∧ s.inbox = [] ∧ s.seq = .txRead ∧ s.cfg.bufmemValid (s.ea s.idx) = true ∧
      racedAt s.hostRaced (s.ea s.idx) = [] := by decide
theorem witness_InvalidBufferAddressIsStuck :
    let s := { running .send .txRead with cfg := { params with bufmemRegions := [] } }
    s.cfg.wf = true ∧ s.seq = .txRead ∧ s.cfg.bufmemValid (s.ea s.idx) = false ∧ s.inbox = [] ∧
      { s with inbox := [.block] }.inbox = [.block] := by decide
theorem witness_RacingReadsSeeOldOrNew :
    let s := running .send .txRead
    let r := running .recv (.rxStore 7)
    s.cfg.wf = true ∧ s.busy = true ∧ s.cfg.bufmemValid 0x0100 = true ∧
      { s with inbox := [.bufRead 0x0100] }.inbox = [.bufRead 0x0100] ∧ s.seq = .txRead ∧ s.ea s.idx = 0x0100 ∧ s.inbox = [] ∧
      { s with inbox := [.block] }.inbox = [.block] ∧ { s with inbox := [.bufWrite 0x0100 9] }.inbox = [.bufWrite 0x0100 9] ∧
      r.cfg.wf = true ∧ r.busy = true ∧ r.seq = .rxStore 7 ∧ r.ea r.idx = 0x0100 ∧ r.inbox = [] := by decide
/-- The four accesses at a byte that the other agent wrote during the command. -/
theorem witness_RacingReadsSeeOldOrNew_raced :
    let host := { running .recv .rxRead with blockRaced := [(0x0100, 0x11)] }
    let send := { running .send .txRead with hostRaced := [(0x0100, 0x22)] }
    let recv := { running .recv (.rxStore 7) with hostRaced := [(0x0100, 0x22)] }
    (host.cfg.wf = true ∧ host.busy = true ∧ host.cfg.bufmemValid 0x0100 = true ∧ racedAt host.blockRaced 0x0100 = [0x11] ∧
      { host with inbox := [.bufRead 0x0100] }.inbox = [.bufRead 0x0100] ∧
      { host with inbox := [.bufWrite 0x0100 9] }.inbox = [.bufWrite 0x0100 9]) ∧
    (send.cfg.wf = true ∧ send.busy = true ∧ racedAt send.hostRaced 0x0100 = [0x22] ∧ send.seq = .txRead ∧
      send.ea send.idx = 0x0100 ∧ send.inbox = []) ∧
    (recv.cfg.wf = true ∧ recv.busy = true ∧ racedAt recv.hostRaced 0x0100 = [0x22] ∧ recv.seq = .rxStore 7 ∧
      recv.ea recv.idx = 0x0100 ∧ recv.inbox = []) := by decide
/-- Such records arise: BLOCK's store of 7 keeps the old byte for HOST's reads. -/
theorem test_step_store_keeps_old_byte :
    shows (step (running .recv (.rxStore 7))) (fun t => (t.mem.byteAt 0x0100, racedAt t.blockRaced 0x0100)) =
      some (7, [0x35]) := by decide
theorem witness_LaterValuesAreThoseWrittenLater :
    let s := { running .recv .rxRead with answers := [0x66, 0, 0, 0], inbox := [.bufRead 0x0100] }
    let r := { running .send .txRead with answers := [0, 0, 0], inbox := [.block, .bufWrite 0x0100 9] }
    (s.busy = true ∧ s.inbox.head? = some (.bufRead 0x0100) ∧ 0x66 ∈ s.later) ∧
      (r.busy = true ∧ r.seq = .txRead ∧ r.ea r.idx = 0x0100 ∧ r.blockIsNext = true ∧ 9 ∈ r.later) := by decide
theorem witness_IdleBufferAccessesAreExact :
    Inv ready ∧ ready.cfg.wf = true ∧ ready.busy = false ∧ ready.cfg.bufmemValid 0xFFFF = true ∧
      ready.cfg.bufmemValid 0x10000 = false ∧
      { ready with inbox := [.bufRead 0xFFFF] }.inbox = [.bufRead 0xFFFF] ∧
      { ready with inbox := [.bufWrite 0xFFFF 1] }.inbox = [.bufWrite 0xFFFF 1] :=
  ⟨inv_ready, by decide, rfl, by decide, by decide, rfl, rfl⟩
theorem witness_StepKeepsInvariant : ∃ s t : State, Inv s ∧ step s = .next t ∧ t ≠ s :=
  ⟨running .init .initFlag, _, inv_initFlag, rfl, by decide⟩
theorem witness_BlockStepRunsItsPortOperation :
    let s := running .send .startCtl
    s.cfg.wf = true ∧ s.portOp = some .pwCtlStart ∧ s.inbox = [] ∧ { s with inbox := [.block] }.inbox = [.block] := by decide
theorem witness_HostStepRunsTheDecodedInstruction :
    base.cfg.wf = true ∧ { base with inbox := [.access ⟨32, 0x2C, 0xF0⟩] }.inbox = [.access ⟨32, 0x2C, 0xF0⟩] := by decide
theorem witness_PlacedWordRunsNext :
    base.cfg.wf = true ∧ decodeTableWord 16 0xBA4 = some .pwCtlStart ∧ decodeTableWord 8 0x20 = some (.wrCmd 0) := by decide
theorem witness_AtMostOneEventPerStep : ∃ t, step (running .send .startCtl) = .next t ∧ t.trace = [.portWrite .cr 0xA4] :=
  ⟨_, rfl, rfl⟩
theorem witness_PortOperationsPerformTheirWord : base.cfg.tableWords = true ∧ encode .pwCtlStart = .portEvent 0xBA4 := by decide
theorem witness_PortEventsHaveTheirShapes :
    ∃ t, step (running .send .startCtl) = .next t ∧ .portWrite .cr 0xA4 ∈ newEvents (running .send .startCtl) t ∧
      (running .send .startCtl).cfg.tableWords = true ∧ (Event.portWrite .cr 0xA4).portWord = some 0xBA4 :=
  ⟨_, rfl, by decide, by decide, rfl⟩
theorem witness_ArgumentsConstantDuringCommand :
    ∃ s t : State, s.busy = true ∧ s.inbox.head? ≠ some .reset ∧ step s = .next t :=
  ⟨{ running .send .startCtl with inbox := [.access ⟨32, 0x34, 5⟩] }, _, rfl, by decide, rfl⟩
theorem witness_BusyRises : ∃ s t : State, Inv s ∧ step s = .next t ∧ s.busy = false ∧ t.busy = true :=
  ⟨{ ready with inbox := [.access ⟨32, 0x20, 2⟩] }, _, by constructor <;> decide, rfl, rfl, rfl⟩
theorem witness_BusyFalls : ∃ s t : State, Inv s ∧ step s = .next t ∧ s.busy = true ∧ t.busy = false :=
  ⟨_, _, inv_finish, rfl, rfl, rfl⟩
theorem witness_ResultChanges :
    ∃ s t : State, Inv s ∧ step s = .next t ∧ s.inbox.head? ≠ some .reset ∧ t.result ≠ s.result :=
  ⟨{ running .send .finish with txState := .stopped, err := some .timeout }, _, by constructor <;> decide, rfl, by decide, by decide⟩
theorem witness_DoneFalls :
    ∃ s t : State, Inv s ∧ step s = .next t ∧ s.inbox.head? ≠ some .reset ∧ s.done = true ∧ t.done = false :=
  ⟨{ ready with done := true, inbox := [.access ⟨32, 0x20, 2⟩] }, _, by constructor <;> decide, rfl, by decide, rfl, rfl⟩
theorem witness_ResetInputAbandonsTheCommand :
    let s := { running .recv .rxRead with inbox := [.reset] }
    s.cfg.wf = true ∧ s.inbox = [.reset] := by decide
theorem witness_ConfigurationIsCheckedAndFixed :
    0 ∈ ({ params with supportedFreqs := [0, 1, 2, 3, 4, 5] } : Params).supportedFreqs ∧
      ¬ ({ params with supportedFreqs := [1, 1, 2, 3, 4, 5] } : Params).supportedFreqs.Nodup ∧
      32 < ({ params with divW := 33 } : Params).divW ∧ ∃ t, step base = .next t :=
  ⟨by decide, by decide, by decide, _, rfl⟩
theorem witness_IdleMachineStaysAsItIs :
    Inv ready ∧ ready.cfg.wf = true ∧ ready.busy = false ∧ ready.inbox = [] := ⟨inv_ready, by decide, rfl, rfl⟩
theorem witness_InitScriptReturnsItsResult :
    ∃ s : State, Inv s ∧ s.cfg.wf = true ∧ s.busy = false ∧ s.inbox = Script.init 100000 :=
  ⟨{ ready with inbox := Script.init 100000 }, by constructor <;> decide, by decide, rfl, rfl⟩

end Sys2Proof.Tests
end

section
/-! SUPPORT. The scope of a step: it adds at most one event to the trace, keeps the configuration, and runs the instruction that
stands at BLOCK's position or that HOST's word decodes to. -/

namespace Sys2Proof.Machine

/-! ### The trace (R15) -/

/-- A move of BLOCK performs the one event of its position, or none. -/
theorem BlockMove.trace {s t : State} {later : List Byte} (m : BlockMove s later t) :
    t.trace = s.trace ∨ ∃ e, t.trace = s.trace ++ [e] := by
  cases m with
  | initDiv | initPresc | startCtl | addrData | addrCtl | txPut | txCtl | rxLast | rxMore | stopCtl => exact .inr ⟨_, rfl⟩
  | flagSet | flagClear | statusMatch | statusOther | rxRead => exact .inr ⟨_, rfl⟩
  | txRead | rxStore => exact .inr ⟨_, rfl⟩
  | _ => exact .inl rfl

/-- An access to HOSTREG performs no event. -/
theorem HostMove.trace {s t : State} (m : HostMove s t) : t.trace = s.trace := by
  cases m <;> rfl

@[simp] theorem State.hostBufRead_trace (s : State) (later : List Byte) (a : Word) :
    (s.hostBufRead later a).trace = s.trace := by
  obtain ⟨_, _, h⟩ := s.hostBufRead_eq later a
  rw [h]

@[simp] theorem State.hostBufWrite_trace (s : State) (a : Word) (b : Byte) : (s.hostBufWrite a b).trace = s.trace := by
  obtain ⟨_, _, _, h, -, -⟩ := s.hostBufWrite_eq a b
  rw [h]

/-- Only BLOCK's moves perform an event. -/
theorem TurnMove.trace {s t : State} {later : List Byte} (m : TurnMove s later t) :
    t.trace = s.trace ∨ ∃ e, t.trace = s.trace ++ [e] := by
  cases m with
  | block t _ hm => exact hm.trace
  | blockTurn t _ hm => exact hm.trace
  | access a t _ _ hm => exact .inl hm.trace
  | bufRead a => exact .inl (by simp)
  | bufWrite a b => exact .inl (by simp)
  | blockStuck | pollDone | pollAgain | reset => exact .inl rfl

/-- Settles O50: of the moves a step can be, BLOCK's alone perform an event, and each of these at most one. -/
theorem atMostOneEventPerStep : Obligations.AtMostOneEventPerStep :=
  fun _ _ h => (step_move h).2.trace

/-! ### The configuration (R7) -/

theorem HostMove.cfg {s t : State} (m : HostMove s t) : t.cfg = s.cfg := by
  cases m <;> rfl

@[simp] theorem State.hostBufRead_cfg (s : State) (later : List Byte) (a : Word) :
    (s.hostBufRead later a).cfg = s.cfg := by
  obtain ⟨_, _, h⟩ := s.hostBufRead_eq later a
  rw [h]

@[simp] theorem State.hostBufWrite_cfg (s : State) (a : Word) (b : Byte) : (s.hostBufWrite a b).cfg = s.cfg := by
  obtain ⟨_, _, _, h, -, -⟩ := s.hostBufWrite_eq a b
  rw [h]

/-- No turn changes the configuration. -/
theorem TurnMove.cfg {s t : State} {later : List Byte} (m : TurnMove s later t) : t.cfg = s.cfg := by
  cases m with
  | block t _ hm => exact hm.cfg
  | blockTurn t _ hm => exact hm.cfg
  | access a t _ _ hm => exact hm.cfg
  | bufRead a => simp
  | bufWrite a b => simp
  | blockStuck | pollDone | pollAgain | reset => rfl

theorem distinct_iff_nodup (l : List Word) : distinct l = true ↔ l.Nodup := by
  induction l with
  | nil => simp [distinct]
  | cons x xs ih => simp [distinct, ih]

/-- What a configuration that is accepted meets of R7. -/
theorem frequencies_of_wf {p : Params} (h : p.wf = true) :
    0 ∉ p.supportedFreqs ∧ p.supportedFreqs.Nodup ∧ p.divW ≤ 32 := by
  simp only [Params.wf, Bool.and_eq_true, Bool.not_eq_true', decide_eq_true_eq, distinct_iff_nodup] at h
  obtain ⟨⟨⟨⟨⟨⟨⟨⟨-, hzero⟩, hnodup⟩, -⟩, -⟩, hdivW⟩, -⟩, -⟩, -⟩ := h
  exact ⟨by simpa using hzero, hnodup, hdivW⟩

/-- A configuration that breaks R7 is refused. -/
theorem step_badConfiguration {s : State} (h : s.cfg.wf = false) : step s = .refused .badConfiguration := by
  simp [step, State.stepWith, h]

/-- Settles O58: each of the three breaks contradicts a clause of the check, and every move keeps the configuration. -/
theorem configurationIsCheckedAndFixed : Obligations.ConfigurationIsCheckedAndFixed := by
  intro s
  refine ⟨fun hbad => step_badConfiguration (Bool.eq_false_iff.mpr fun hw => ?_), fun t h => (step_move h).2.cfg⟩
  obtain ⟨hzero, hnodup, hdivW⟩ := frequencies_of_wf hw
  rcases hbad with h | h | h
  · exact hzero h
  · exact h hnodup
  · omega

/-! ### The parameters of this hardware (R7, R75, R77, R146) -/

/-- Settles O23: the code table, the mask and the parameters are read off the definitions, direction by direction. -/
theorem expectedCodesOfThisHardware : Obligations.ExpectedCodesOfThisHardware :=
  ⟨fun _ => rfl, rfl, rfl, fun _ => rfl, rfl, rfl, fun _ _ => rfl, rfl, rfl, rfl, rfl, rfl, rfl, rfl, rfl, rfl, rfl⟩

/-- The default budget is one more than a remainder below `2 ^ 32 - 1`, so it does not wrap (R7, D23). -/
theorem timeoutCountDefault_toNat :
    Config.timeoutCountDefault.toNat = Config.timeoutDefaultSeed % 4294967295 + 1 := by
  have hlt : Config.timeoutDefaultSeed % 4294967295 < 4294967295 := Nat.mod_lt _ (by decide)
  rw [Config.timeoutCountDefault, BitVec.toNat_ofNat]
  omega

/-- Settles O57: whatever the open number is, the budget is a successor. -/
theorem defaultBudgetIsPositive : Obligations.DefaultBudgetIsPositive :=
  ⟨timeoutCountDefault_toNat ▸ Nat.succ_pos _, rfl⟩

/-! ### What a step runs (R15, R57, R71) -/

/-- At a port operation BLOCK is not stuck: only its BUFMEM accesses can be (R52). -/
theorem State.stuckAt_of_portOp {s : State} {i : Instr} (h : s.portOp = some i) : s.stuckAt = none := by
  cases hq : s.seq with
  | txRead | rxStore d => simp [State.portOp, hq] at h
  | _ => simp [State.stuckAt, hq]

/-- At a port operation BLOCK's turn runs it. -/
theorem State.blockTurn_of_portOp {s : State} {i : Instr} (h : s.portOp = some i) (later : List Byte) :
    s.blockTurn later = exec i (if i.isPortRead then s.answered else s) := by
  simp [State.blockTurn, h, State.forPortOp]

/-- Settles O47: with no turn left the step is BLOCK's, and at a BLOCK turn it is too, for BLOCK is not stuck there. -/
theorem blockStepRunsItsPortOperation : Obligations.BlockStepRunsItsPortOperation := by
  intro s i hw hop
  refine ⟨fun hi => ?_, fun rest hi => ?_⟩
  · rw [step_block hw hi]
    exact State.blockTurn_of_portOp hop []
  · have hop' : ({ s with inbox := rest } : State).portOp = some i := hop
    rw [step_turn hw hi]
    simp only [State.takeTurn, State.stuckAt_of_portOp hop']
    exact State.blockTurn_of_portOp hop' s.later

theorem decodeRegister_wf (we : Bool) (sel : BitVec 3) (v : Word) : (decodeRegister we sel v).wf = true := by
  unfold decodeRegister
  repeat' split
  all_goals rfl

/-- A data word dropped unless it is a write's fits (R71). -/
theorem dataFits_of_write (we : Bool) (v : Word) : dataFits we (if we then v else 0) = true := by
  cases we <;> rfl

/-- Every access decodes to a well-formed instruction: a read's data word is dropped (R71). -/
theorem decodeHostAccess_wf (ha : BitVec 6) (d : Word) : (decodeHostAccess ha d).wf = true := by
  unfold decodeHostAccess decodeAccess
  dsimp only
  split
  · exact decodeRegister_wf _ _ _
  · split
    · exact dataFits_of_write _ d
    · split <;> exact dataFits_of_write _ d

/-- A 32-bit access runs what its word decodes to. -/
theorem State.accessTurn_word (s : State) (ha : BitVec 6) (d : Word) :
    s.accessTurn { width := 32, ha := ha, d := d } = exec (decodeHostAccess ha d) s := rfl

/-- Settles O48: every `HA` is a form, so the access turn has an instruction to run. -/
theorem hostStepRunsTheDecodedInstruction : Obligations.HostStepRunsTheDecodedInstruction :=
  fun _ ha d _ hw hi =>
    ⟨decodeHostAccess ha d, rfl, decodeHostAccess_wf ha d, (step_turn hw hi).trans (State.accessTurn_word _ ha d)⟩

end Sys2Proof.Machine
end

section
/-! SUPPORT. The invariant of the machine, kept by every step (R32, R35 to R38, R90, R120, R127): the idle point and HOST's turns
first, then BLOCK's moves, one lemma a clause. -/

namespace Sys2Proof.Machine

/-! ### The idle point and HOST's turns -/

/-- Without a command in progress BLOCK is at the idle point (R32, R36). -/
theorem Inv.seq_idle {s : State} (h : Inv s) (hb : s.busy = false) : s.seq = .idle := by
  by_contra hq
  exact absurd (h.busyIff.2 hq) (by simp [hb])

/-- At the idle point the invariant is what it says of BUFMEM, the widths, `op`, `err` and the races. -/
theorem inv_of_idle {s : State} (hq : s.seq = .idle) (hb : s.busy = false) (ho : s.op = .none)
    (hm : s.mem.wf s.cfg.addrW = true)
    (hw : s.buf.toNat < 2 ^ s.cfg.addrW ∧ s.len.toNat < 2 ^ s.cfg.lenW ∧ s.timeout.toNat < 2 ^ s.cfg.timeoutW)
    (he : s.err = none ∨ s.err = some .timeout) (hr : s.hostRaced = [] ∧ s.blockRaced = []) : Inv s where
  memWf       := hm
  widths      := hw
  busyIff     := by simp [hq, hb]
  opOk        := by simp [hq, ho, opFits]
  doneOk      := by simp [hb]
  initOk      := by simp [hq, inAcceptedInit]
  divisorOk   := by simp [hq]
  prechecked  := by simp [hq, inTransaction]
  dirOk       := by simp [hq, inBody, inTransaction]
  dirPosition := by simp [hq, dirFits]
  cntOk       := by simp [hq, inWait]
  idxOk       := by simp [hq, inDataPhase]
  idxHead     := by simp [hq]
  lastOk      := by simp [hq, lastFits]
  txStateOk   := by simp [hq, txStateFits, inDataPhase]
  errOk       := he
  errStop     := by simp [hb]
  idxStop     := by simp [hq, inStop]
  raceFree    := fun _ => hr

/-- The invariant does not speak of what HOST last read, of the inputs and of the counts of free choices. -/
theorem Inv.inputs {s : State} (h : Inv s) (r : Word) (b : Byte) (i : List Turn) (n : Nat) :
    Inv { s with ret := r, retByte := b, inbox := i, raceDraws := n } := { h with }

theorem Inv.popped {s : State} (h : Inv s) : Inv s.popped := h.inputs _ _ _ _

theorem Inv.hostBufWrite {s : State} (h : Inv s) (a : Word) (b : Byte) : Inv (s.hostBufWrite a b) := by
  unfold State.hostBufWrite
  split
  · exact h
  · next hv =>
    have hwf : ∀ b, (s.mem.setByte a b).wf s.cfg.addrW = true := fun b =>
      Memory.wf_setByte b (bufmemValid_lt (by simpa using hv)) h.memWf
    split
    · next hb => exact { h with memWf := hwf _, raceFree := fun hb' => absurd hb (by simpa using hb') }
    · exact { h with memWf := hwf _ }

/-- The reset input ends at the idle point, with a TIMEOUT of its width (R190 to R192). -/
theorem Inv.resetBlock {s : State} (h : Inv s) : Inv s.resetBlock :=
  inv_of_idle rfl rfl rfl h.memWf ⟨Nat.two_pow_pos _, Nat.two_pow_pos _, keepBits_lt _ _⟩ (.inl rfl) ⟨rfl, rfl⟩

/-- A completion ends at the idle point (R107). -/
theorem Inv.complete {s : State} (h : Inv s) (c : ResultCode) : Inv (s.complete c) :=
  inv_of_idle rfl rfl rfl h.memWf h.widths h.errOk ⟨rfl, rfl⟩

/-- The entry point of a command is before every test (R91, R110, R123). -/
theorem Inv.accept {s : State} (h : Inv s) {o : Op} (ho : o ≠ .none) : Inv (s.accept o) := by
  constructor
  case memWf => exact h.memWf
  case widths => exact h.widths
  case raceFree => simp
  all_goals
    cases o <;>
      simp [Op.entry, opFits, inAcceptedInit, inTransaction, inBody, dirFits, inWait, inDataPhase, lastFits, txStateFits,
        inStop] at ho ⊢

/-- An access to HOSTREG keeps the invariant: what it writes it writes at the idle point (R90). -/
theorem HostMove.inv {s t : State} (m : HostMove s t) (h : Inv s) : Inv t := by
  obtain ⟨hbuf, hlen, htimeout⟩ := h.widths
  have idle : ∀ hb : s.busy = false, s.seq = .idle ∧ s.op = .none := fun hb =>
    ⟨h.seq_idle hb, by simpa [opFits, h.seq_idle hb] using h.opOk⟩
  cases m with
  | nothing => exact h
  | returns v => exact h.inputs _ _ _ _
  | freq v hb | addr v hb =>
    exact inv_of_idle (idle hb).1 hb (idle hb).2 h.memWf h.widths h.errOk (h.raceFree hb)
  | buf v hb hv => exact inv_of_idle (idle hb).1 hb (idle hb).2 h.memWf ⟨hv, hlen, htimeout⟩ h.errOk (h.raceFree hb)
  | len v hb hv => exact inv_of_idle (idle hb).1 hb (idle hb).2 h.memWf ⟨hbuf, hv, htimeout⟩ h.errOk (h.raceFree hb)
  | timeout v hb hv => exact inv_of_idle (idle hb).1 hb (idle hb).2 h.memWf ⟨hbuf, hlen, hv⟩ h.errOk (h.raceFree hb)
  | accept o hb ho => exact h.accept ho

/-! ### BLOCK's moves, clause by clause -/

/-- No move of BLOCK writes an argument register (R31, R79). -/
theorem BlockMove.sameArguments {s t : State} {later : List Byte} (m : BlockMove s later t) : sameArguments s t := by
  cases m <;> exact ⟨rfl, rfl, rfl, rfl, rfl⟩

/-- A matched status leads past the wait, or to the data read of a RECV (R124, R148). -/
theorem afterMatch_cases (p : Phase) (d : Bool) : afterMatch p d = .phaseOk p ∨ (afterMatch p d = .rxRead ∧ d = true) := by
  cases p <;> cases d <;> simp [afterMatch]

/-- BLOCK rests at the idle point, goes on within its command, or completes it (R32, R35, R107). -/
theorem BlockMove.progress {s t : State} {later : List Byte} (m : BlockMove s later t) :
    t = s ∨
    (s.seq ≠ .idle ∧ t.seq ≠ .idle ∧ t.busy = s.busy ∧ t.done = s.done ∧ t.result = s.result) ∨
    (s.seq ≠ .idle ∧ ∃ c, t = s.complete c) := by
  cases m with
  | idle => exact .inl rfl
  | initCheckOut hq | initDone hq | notInitialized hq | invalidBuffer hq | finish hq =>
    exact .inr (.inr ⟨by simp [hq], _, rfl⟩)
  | statusMatch p hq =>
    refine .inr (.inl ⟨by simp [hq], ?_, rfl, rfl, rfl⟩)
    rcases afterMatch_cases p s.dir with ha | ⟨ha, -⟩ <;> simp [ha]
  | _ => exact .inr (.inl ⟨by simp_all, Seq.noConfusion, rfl, rfl, rfl⟩)

/-! ### The positions of a wait -/

@[simp] theorem lastFits_flag (p : Phase) (l : Bool) : lastFits (.flag p) l = lastFits (.phaseOk p) l := by cases p <;> rfl
@[simp] theorem lastFits_status (p : Phase) (l : Bool) : lastFits (.status p) l = lastFits (.phaseOk p) l := by cases p <;> rfl
@[simp] theorem txStateFits_flag (p : Phase) (x : TxState) : txStateFits (.flag p) x = txStateFits (.phaseOk p) x := by
  cases p <;> rfl
@[simp] theorem txStateFits_status (p : Phase) (x : TxState) : txStateFits (.status p) x = txStateFits (.phaseOk p) x := by
  cases p <;> rfl

/-- The data read of a RECV is in the data phase, so STATE fits it as it fits the wait. -/
@[simp] theorem txStateFits_afterMatch (p : Phase) (d : Bool) (x : TxState) :
    txStateFits (afterMatch p d) x = txStateFits (.phaseOk p) x := by
  cases p <;> cases d <;> rfl

theorem word_succ_le_of_lt {x y : Word} (h : x < y) : x + 1 ≤ y := by bv_omega

/-- No phase waits in STATE Stopped. -/
theorem txStateFits_wait_ne_stopped {p : Phase} {x : TxState} (h : txStateFits (.phaseOk p) x = true) : x ≠ .stopped := by
  rintro rfl
  cases p <;> simp [txStateFits, inDataPhase] at h

section
variable {s t : State} {later : List Byte}

theorem BlockMove.inv_memWf (m : BlockMove s later t) (h : Inv s) : t.mem.wf t.cfg.addrW = true := by
  cases m with
  | rxStore d hq hv => exact Memory.wf_setByte _ (bufmemValid_lt hv) h.memWf
  | _ => exact h.memWf

theorem BlockMove.inv_widths (m : BlockMove s later t) (h : Inv s) :
    t.buf.toNat < 2 ^ t.cfg.addrW ∧ t.len.toNat < 2 ^ t.cfg.lenW ∧ t.timeout.toNat < 2 ^ t.cfg.timeoutW := by
  obtain ⟨-, -, hbuf, hlen, htimeout⟩ := m.sameArguments
  rw [hbuf, hlen, htimeout, m.cfg]
  exact h.widths

theorem BlockMove.inv_opOk (m : BlockMove s later t) (h : Inv s) : opFits t.seq t.op = true := by
  have := h.opOk
  cases m with
  | statusMatch p hq => rcases afterMatch_cases p s.dir with ha | ⟨ha, -⟩ <;> simpa [hq, ha, opFits] using this
  | _ => simp_all [opFits, State.memRead, State.memWrite]

theorem BlockMove.inv_initOk (m : BlockMove s later t) (h : Inv s) :
    inAcceptedInit t.seq = true → t.cfg.supportedFreqs.contains t.freq = true := by
  have := h.initOk
  cases m with
  | initCheckIn hq hf => exact fun _ => hf
  | statusMatch p hq => rcases afterMatch_cases p s.dir with ha | ⟨ha, -⟩ <;> simp [ha, inAcceptedInit]
  | _ => simp_all [inAcceptedInit]

theorem BlockMove.inv_divisorOk (m : BlockMove s later t) (h : Inv s) :
    ∀ d, t.seq = .initDiv d → d = divisor t.cfg t.freq := by
  cases m with
  | idle hq => exact h.divisorOk
  | initCheckIn hq hf => rintro d ⟨⟩; rfl
  | statusMatch p hq => rcases afterMatch_cases p s.dir with ha | ⟨ha, -⟩ <;> simp [ha]
  | _ => exact nofun

theorem BlockMove.inv_prechecked (m : BlockMove s later t) (h : Inv s) :
    inTransaction t.seq = true → t.initialized = true ∧ t.buf ≠ 0 ∧ t.len ≠ 0 := by
  have := h.prechecked
  cases m with
  | precheckPass hq hi hb hl => exact fun _ => ⟨hi, hb, hl⟩
  | _ => simp_all [inTransaction, State.memRead, State.memWrite]

theorem BlockMove.inv_dirOk (m : BlockMove s later t) (h : Inv s) : inBody t.seq = true → t.dir = (t.op == .recv) := by
  have := h.dirOk
  cases m with
  | txnBegin => exact fun _ => rfl
  | _ => simp_all [inBody, inTransaction, State.memRead, State.memWrite]

theorem BlockMove.inv_dirPosition (m : BlockMove s later t) (h : Inv s) : dirFits t.seq t.dir = true := by
  have := h.dirPosition
  cases m with
  | statusMatch p hq =>
    rcases afterMatch_cases p s.dir with ha | ⟨ha, hd⟩
    · simp [ha, dirFits]
    · simpa [ha, dirFits] using hd
  | _ => simp_all [dirFits, State.memRead]

theorem BlockMove.inv_cntOk (m : BlockMove s later t) (h : Inv s) : inWait t.seq = true → t.cnt ≤ t.timeout := by
  cases m with
  | flagClear p hq hc | statusOther p hq hc | statusMatch p hq hc => exact fun _ => word_succ_le_of_lt hc
  | startCtl | addrCtl | flagSet | txCtl | rxLast | rxMore => exact fun _ => Nat.zero_le _
  | idle hq => exact h.cntOk
  | _ => exact nofun

theorem BlockMove.inv_idxHead (m : BlockMove s later t) (h : Inv s) : t.seq = .dataHead → t.idx ≤ t.len := by
  cases m with
  | addressOk => exact fun _ => Nat.zero_le _
  | dataOk l hq => exact fun _ => word_succ_le_of_lt (h.idxOk (by simp [hq, inDataPhase]))
  | idle hq => exact h.idxHead
  | statusMatch p hq => rcases afterMatch_cases p s.dir with ha | ⟨ha, -⟩ <;> simp [ha]
  | _ => exact nofun

theorem BlockMove.inv_lastOk (m : BlockMove s later t) (h : Inv s) : lastFits t.seq t.isLast = true := by
  have := h.lastOk
  unfold State.isLast at this ⊢
  cases m with
  | flagSet p hq | flagClear p hq | statusOther p hq => simpa [hq] using this
  | statusMatch p hq =>
    rcases afterMatch_cases p s.dir with ha | ⟨ha, -⟩
    · simpa [hq, ha] using this
    · simp [ha, lastFits]
  | _ => simp_all [lastFits, State.isLast, State.memWrite]

theorem BlockMove.inv_txStateOk (m : BlockMove s later t) (h : Inv s) : txStateFits t.seq t.txState = true := by
  have := h.txStateOk
  cases m with
  | flagSet p hq | flagClear p hq | statusMatch p hq | statusOther p hq => simpa [hq] using this
  | flagSpent p hq | statusSpent p hq =>
    have : s.txState ≠ .stopped := txStateFits_wait_ne_stopped (p := p) (by simpa [hq] using this)
    simpa [txStateFits] using this
  | dataEnd hq =>
    have : s.txState = .addressSent ∨ s.txState = .dataByte := by simpa [hq, txStateFits] using this
    rcases this with hx | hx <;> simp [hx, txStateFits]
  | _ => simp_all [txStateFits, inDataPhase, State.memRead, State.memWrite]

theorem BlockMove.inv_errOk (m : BlockMove s later t) (h : Inv s) : t.err = none ∨ t.err = some .timeout := by
  cases m with
  | txnBegin => exact .inl rfl
  | flagSpent p | statusSpent p =>
    right
    rcases h.errOk with he | he <;> simp [he]
  | _ => exact h.errOk

theorem BlockMove.inv_errStop (m : BlockMove s later t) (h : Inv s) : t.busy = true → inStop t.seq = false → t.err = none := by
  have := h.errStop
  cases m with
  | txnBegin => exact fun _ _ => rfl
  | flagSpent | statusSpent => exact nofun
  | _ => simp_all [inStop, State.memRead, State.memWrite]

theorem BlockMove.inv_idxStop (m : BlockMove s later t) (h : Inv s) : inStop t.seq = true → t.err = none → t.idx = t.len := by
  have := h.idxStop
  cases m with
  | flagSpent | statusSpent => simp
  | dataEnd hq hi => exact fun _ _ => BitVec.le_antisymm (h.idxHead hq) (BitVec.not_lt.1 hi)
  | statusMatch p hq => rcases afterMatch_cases p s.dir with ha | ⟨ha, -⟩ <;> simp [ha, inStop]
  | _ => simp_all [inStop]

end

/-- A move of BLOCK keeps the invariant. -/
theorem BlockMove.inv {s t : State} {later : List Byte} (m : BlockMove s later t) (h : Inv s) : Inv t := by
  rcases m.progress with rfl | ⟨hq, hq', hb, hd, -⟩ | ⟨-, c, rfl⟩
  · exact h
  · have hbusy : s.busy = true := h.busyIff.2 hq
    exact {
      memWf       := m.inv_memWf h
      widths      := m.inv_widths h
      busyIff     := by simp [hb, hbusy, hq']
      opOk        := m.inv_opOk h
      doneOk      := fun _ => hd.trans (h.doneOk hbusy)
      initOk      := m.inv_initOk h
      divisorOk   := m.inv_divisorOk h
      prechecked  := m.inv_prechecked h
      dirOk       := m.inv_dirOk h
      dirPosition := m.inv_dirPosition h
      cntOk       := m.inv_cntOk h
      idxOk       := m.idx_lt h.idxOk
      idxHead     := m.inv_idxHead h
      lastOk      := m.inv_lastOk h
      txStateOk   := m.inv_txStateOk h
      errOk       := m.inv_errOk h
      errStop     := m.inv_errStop h
      idxStop     := m.inv_idxStop h
      raceFree    := by simp [hb, hbusy] }
  · exact h.complete c

/-- Every turn keeps the invariant. -/
theorem TurnMove.inv {s t : State} {later : List Byte} (m : TurnMove s later t) (h : Inv s) : Inv t := by
  cases m with
  | block t _ hm => exact hm.inv h
  | blockTurn t _ hm => exact hm.inv h.popped
  | blockStuck => exact h.popped
  | access a t _ _ hm => exact hm.inv h.popped
  | pollDone off mask value v => exact h.inputs v _ _ _
  | pollAgain off mask value v => exact h.inputs v _ _ _
  | bufRead a =>
    obtain ⟨b, n, e⟩ := s.popped.hostBufRead_eq later a
    rw [e]
    exact h.popped.inputs _ b _ n
  | bufWrite a b => exact h.popped.hostBufWrite a b
  | reset => exact h.popped.resetBlock

/-- Settles O45: a step is one of the turns, and each keeps every clause. -/
theorem stepKeepsInvariant : Obligations.StepKeepsInvariant :=
  fun _ _ h hs => (step_move hs).2.inv h

end Sys2Proof.Machine
end

section
/-! SUPPORT. What a step does to the registers HOST can read (R21): who may change an argument register or a field of STATUS, and
when (R30 to R35, R39, R79); and the samples of a wait (R140 to R142). -/

namespace Sys2Proof.Machine

/-! ### What each agent's turn does to the registers -/

/-- While BUSY = 1 an access to HOSTREG changes no register (R90). -/
theorem HostMove.sameHostRegs_of_busy {s t : State} (m : HostMove s t) (hb : s.busy = true) : sameHostRegs s t := by
  cases m with
  | nothing | returns => exact ⟨⟨rfl, rfl, rfl, rfl, rfl⟩, rfl, rfl, rfl, rfl, rfl⟩
  | freq _ hb' | addr _ hb' | buf _ hb' | len _ hb' | timeout _ hb' | accept _ hb' => simp [hb] at hb'

/-- Of the flags of STATUS an access to HOSTREG changes BUSY and DONE alone, and these at acceptance alone (R39, R91). -/
theorem HostMove.flags {s t : State} (m : HostMove s t) :
    t.initialized = s.initialized ∧ t.result = s.result ∧
      ((t.busy = s.busy ∧ t.done = s.done) ∨ (s.busy = false ∧ t.busy = true)) := by
  cases m with
  | accept o hb => exact ⟨rfl, rfl, .inr ⟨hb, rfl⟩⟩
  | _ => exact ⟨rfl, rfl, .inl ⟨rfl, rfl⟩⟩

/-- BLOCK writes INIT at one position, and sets it there (R30, R110). -/
theorem BlockMove.initialized {s t : State} {later : List Byte} (m : BlockMove s later t) :
    t.initialized = s.initialized ∨ (s.seq = .initFlag ∧ t.initialized = true) := by
  cases m with
  | initFlag hq => exact .inr ⟨hq, rfl⟩
  | _ => exact .inl rfl

/-- What a step does to the registers: BLOCK moves, HOST accesses HOSTREG, nothing happens to them, or the block is reset. -/
theorem TurnMove.registers {s t : State} {later : List Byte} (m : TurnMove s later t) :
    (∃ i, BlockMove { s with inbox := i } later t) ∨
    (∃ a, s.inbox.head? = some (.access a) ∧ s.popped.accessTurn a = .next t ∧ HostMove s.popped t) ∨
    sameHostRegs s t ∨
    (s.inbox.head? = some .reset ∧ t = s.popped.resetBlock) := by
  cases m with
  | block t _ hm => exact .inl ⟨s.inbox, hm⟩
  | blockTurn t _ hm => exact .inl ⟨s.inbox.tail, hm⟩
  | access a t hi hx hm => exact .inr (.inl ⟨a, hi, hx, hm⟩)
  | blockStuck | pollDone | pollAgain => exact .inr (.inr (.inl ⟨⟨rfl, rfl, rfl, rfl, rfl⟩, rfl, rfl, rfl, rfl, rfl⟩))
  | bufRead a =>
    obtain ⟨b, n, e⟩ := s.popped.hostBufRead_eq later a
    exact .inr (.inr (.inl (e ▸ ⟨⟨rfl, rfl, rfl, rfl, rfl⟩, rfl, rfl, rfl, rfl, rfl⟩)))
  | bufWrite a b =>
    obtain ⟨_, _, _, e, -, -⟩ := s.popped.hostBufWrite_eq a b
    exact .inr (.inr (.inl (e ▸ ⟨⟨rfl, rfl, rfl, rfl, rfl⟩, rfl, rfl, rfl, rfl, rfl⟩)))
  | reset hi => exact .inr (.inr (.inr ⟨hi, rfl⟩))

/-! ### The argument registers (R31, R79, R90) -/

/-- Settles O52: BLOCK writes no argument register, and HOST's writes are ignored while BUSY = 1. -/
theorem argumentsConstantDuringCommand : Obligations.ArgumentsConstantDuringCommand := by
  intro s t hb hr hs
  rcases (step_move hs).2.registers with ⟨_, hm⟩ | ⟨_, _, _, hm⟩ | hsame | ⟨hi, _⟩
  · exact hm.sameArguments
  · exact (hm.sameHostRegs_of_busy hb).1
  · exact hsame.1
  · exact absurd hi hr

/-! ### INIT (R30) -/

/-- Settles O29: BLOCK alone sets INIT, at a position of INIT behind its test, and the reset alone clears it. -/
theorem onlyInitSetsAndOnlyResetClearsInitialized : Obligations.OnlyInitSetsAndOnlyResetClearsInitialized := by
  refine ⟨rfl, fun s t h hs => ?_⟩
  rcases (step_move hs).2.registers with ⟨_, hm⟩ | ⟨_, _, _, hm⟩ | ⟨-, -, hinit, -⟩ | ⟨hi, rfl⟩
  · rcases hm.initialized with hinit | ⟨hq, hset⟩
    · simp +contextual [hinit]
    · have hq : s.seq = .initFlag := hq
      exact ⟨fun _ _ => ⟨by simpa [hq, opFits] using h.opOk, h.initOk (by simp [hq, inAcceptedInit])⟩, by simp [hset]⟩
  · have hinit : t.initialized = s.initialized := hm.flags.1
    simp +contextual [hinit]
  · simp +contextual [hinit]
  · exact ⟨fun _ hset => absurd hset Bool.false_ne_true, fun _ _ => hi⟩

/-! ### Acceptance (R32, R91) -/

/-- A dispatched word that raises BUSY has OP 1, 2 or 3 (R73, R80). -/
theorem State.dispatch_accepts {s : State} {v : Word} (hb : s.busy = false) (ht : (s.dispatch v).busy = true) :
    1 ≤ v.toNat % 8 ∧ v.toNat % 8 ≤ 3 := by
  have hop : (v.extractLsb' 0 3).toNat = v.toNat % 8 := by simp
  unfold State.dispatch at ht
  dsimp only at ht
  rw [← hop]
  split at ht
  · next h => simp [h]
  · split at ht
    · next h => simp [h]
    · split at ht
      · next h => simp [h]
      · simp [hb] at ht

/-- The one host access that raises BUSY is a write to CMD of OP 1, 2 or 3. -/
theorem exec_hostAccess_accepts {i : Instr} {s t : State} (hi : i.isHostAccess = true) (hb : s.busy = false)
    (h : exec i s = .next t) (ht : t.busy = true) : ∃ v, i = .wrCmd v ∧ 1 ≤ v.toNat % 8 ∧ v.toNat % 8 ≤ 3 := by
  cases i with
  | wrCmd v =>
    cases h
    exact ⟨v, rfl, State.dispatch_accepts hb (by simpa [State.gated, hb] using ht)⟩
  | wrFreq | wrAddr | wrBuf | wrLen | wrTimeout =>
    cases h
    simp [State.gated, hb] at ht
  | illformedOff1 we | illformedOff2 we | illformedOff3 we =>
    cases h
    cases we <;> simp [State.illformedAccess, hb] at ht
  | rdCmd | rdStatus | rdFreq | rdAddr | rdBuf | rdLen | rdTimeout | rdRsvd1C | wrStatus | wrRsvd1C =>
    cases h
    simp [hb] at ht
  | _ => cases hi

theorem decodeRegister_eq_wrCmd {we : Bool} {sel : BitVec 3} {d v : Word} (h : decodeRegister we sel d = .wrCmd v) :
    we = true ∧ sel = 0 ∧ d = v := by
  unfold decodeRegister at h
  split_ifs at h with hsel hwe
  cases h
  exact ⟨hwe, hsel, rfl⟩

theorem decodeAccess_eq_wrCmd {we : Bool} {sel : BitVec 3} {low : BitVec 2} {d v : Word}
    (h : decodeAccess we sel low d = .wrCmd v) : we = true ∧ sel = 0 ∧ low = 0 ∧ d = v := by
  unfold decodeAccess at h
  split_ifs at h with hlow
  obtain ⟨hwe, hsel, hd⟩ := decodeRegister_eq_wrCmd h
  exact ⟨hwe, hsel, hlow, hd⟩

/-- A write to CMD is decoded from the descriptor 0x20 alone, with its data (R71). -/
theorem decodeHostAccess_eq_wrCmd {ha : BitVec 6} {d v : Word} (h : decodeHostAccess ha d = .wrCmd v) : ha = 0x20 ∧ d = v := by
  have hbits : ∀ ha : BitVec 6, ha.getLsbD 5 = true → ha.extractLsb' 2 3 = 0 → ha.extractLsb' 0 2 = 0 → ha = 0x20 := by
    decide
  obtain ⟨hwe, hsel, hlow, hd⟩ := decodeAccess_eq_wrCmd h
  exact ⟨hbits ha hwe hsel hlow, by simpa only [hwe, if_true] using hd⟩

/-- An access that raises BUSY is a 32-bit write to CMD of OP 1, 2 or 3. -/
theorem State.accessTurn_accepts {s t : State} {a : HostAccess} (hb : s.busy = false) (h : s.accessTurn a = .next t)
    (ht : t.busy = true) : ∃ v, a = { width := 32, ha := 0x20, d := v } ∧ 1 ≤ v.toNat % 8 ∧ v.toNat % 8 ≤ 3 := by
  obtain ⟨width, ha, d⟩ := a
  unfold State.accessTurn at h
  split at h
  · next hw =>
    obtain ⟨v, hv, hop⟩ := exec_hostAccess_accepts (decodeHostAccess_isHostAccess ha d) hb h ht
    obtain ⟨rfl, rfl⟩ := decodeHostAccess_eq_wrCmd hv
    exact ⟨d, by rw [show width = 32 from hw], hop⟩
  · cases h
    dsimp only at ht
    generalize ha.getLsbD 5 = we at ht
    cases we <;> simp [State.illformedAccess, hb] at ht

/-- Settles O53: with BUSY = 0 BLOCK is at rest, so BUSY rises by HOST; with BUSY = 1 HOST changes nothing, so it falls where BLOCK
completes. -/
theorem busyRisesAtAcceptanceFallsAtCompletion : Obligations.BusyRisesAtAcceptanceFallsAtCompletion := by
  intro s t h hs
  rcases (step_move hs).2.registers with ⟨_, hm⟩ | ⟨a, hi, hx, hm⟩ | ⟨-, hbusy, -⟩ | ⟨hi, rfl⟩
  · rcases hm.progress with rfl | ⟨_, _, hbusy, _⟩ | ⟨_, c, rfl⟩
    · simp +contextual
    · simp +contextual [hbusy]
    · exact ⟨fun _ ht => absurd ht Bool.false_ne_true, fun _ _ => .inr ⟨rfl, rfl, rfl⟩⟩
  · refine ⟨fun hb ht => ?_, fun hb ht => ?_⟩
    · obtain ⟨v, rfl, hop⟩ := State.accessTurn_accepts (s := s.popped) hb hx ht
      exact ⟨v, hi, hop⟩
    · obtain ⟨-, hbusy, -⟩ := hm.sameHostRegs_of_busy hb
      exact absurd (hbusy.symm.trans ht) (by simp [hb])
  · simp +contextual [hbusy]
  · exact ⟨fun _ ht => absurd ht Bool.false_ne_true, fun _ _ => .inl hi⟩

/-! ### RESULT and DONE (R34, R35, R39, R107) -/

/-- Settles O54: BLOCK writes RESULT and DONE at completion alone, HOST clears DONE at acceptance alone. -/
theorem resultChangesOnlyAtCompletion : Obligations.ResultChangesOnlyAtCompletion := by
  intro s t h hs hr
  rcases (step_move hs).2.registers with ⟨_, hm⟩ | ⟨_, _, _, hm⟩ | ⟨-, -, -, hdone, hresult, -⟩ | ⟨hi, _⟩
  · rcases hm.progress with rfl | ⟨_, _, _, hdone, hresult⟩ | ⟨hq, c, rfl⟩
    · simp +contextual
    · simp +contextual [hdone, hresult]
    · exact ⟨fun _ => ⟨h.busyIff.2 hq, rfl, rfl⟩, fun _ ht => absurd ht.symm Bool.false_ne_true⟩
  · obtain ⟨-, hresult, ⟨hbusy, hdone⟩ | hacc⟩ := hm.flags
    · simp +contextual [hdone, hresult]
    · exact ⟨fun hne => absurd hresult hne, fun _ _ => hacc⟩
  · simp +contextual [hdone, hresult]
  · exact absurd hi hr

/-! ### CMD (R22, R72) -/

/-- Dispatch reads OP alone. -/
theorem State.dispatch_congr (s : State) {v w : Word} (h : v.extractLsb' 0 3 = w.extractLsb' 0 3) :
    s.dispatch v = s.dispatch w := by
  simp only [State.dispatch, h]

/-- Settles O5: the busy gate does not look at the word, and dispatch reads its OP alone. -/
theorem commandUpperBitsIgnored : Obligations.CommandUpperBitsIgnored :=
  fun _ _ _ h => congrArg (fun f => Host.Outcome.next (State.gated _ f)) (funext fun s => s.dispatch_congr h)

/-! ### The samples of a wait (R140 to R142) -/

/-- The completion flag is the top bit of the sample (R76). -/
theorem completionFlag_iff (v : Byte) : completionFlag v = true ↔ 128 ≤ v.toNat := by
  have h : completionFlag v = v.msb := rfl
  rw [h, BitVec.msb_eq_decide]
  simp

theorem matchesCode_iff (p : Params) (v e : Byte) : matchesCode p v e = true ↔ v &&& p.statusMask = e := by
  simp [matchesCode]

/-- The data phase of a RECV goes on to its data read, every other phase has succeeded (R124, R148). -/
theorem afterMatch_eq (p : Phase) (d : Bool) :
    afterMatch p d = if d = true ∧ (p = .data true ∨ p = .data false) then .rxRead else .phaseOk p := by
  cases d with
  | false => cases p <;> rfl
  | true =>
    cases p with
    | start | address => rfl
    | data last => cases last <;> rfl

/-- Settles O20: the flag is the top bit of the sample. -/
theorem flagSampleOfStepA : Obligations.FlagSampleOfStepA := by
  intro s p v hq
  simp [← completionFlag_iff, exec, execPrFlag, hq]

/-- Settles O21: the sample is compared under the mask, and a match leads where the phase and the direction say. -/
theorem statusSampleOfStepB : Obligations.StatusSampleOfStepB := by
  intro s p v hq
  simp [← matchesCode_iff, ← afterMatch_eq, exec, execPrStatus, hq]

end Sys2Proof.Machine
end

section
/-! SUPPORT. The words written to CMD, misaligned accesses, and the accesses of HOST and BLOCK to BUFMEM: at a quiet byte, at a byte
that both agents use during a command, and where there is no memory (R50 to R62, R195). -/

namespace Sys2Proof.Machine

/-! ### Words written to CMD, misaligned accesses (R73, R91, R108) -/

/-- A write to CMD does what the instruction of the word does. -/
theorem exec_wrCmd (s : State) (v : Word) : exec (.wrCmd v) s = exec (decodeCmd v) s := by
  unfold decodeCmd
  dsimp only
  split_ifs with hinit hsend hrecv hres
  · simp [exec, execWrCmd, execInit, State.dispatch, hinit]
  · simp [exec, execWrCmd, execSend, State.dispatch, hsend]
  · simp [exec, execWrCmd, execRecv, State.dispatch, hrecv]
  · simp [exec, execWrCmd, execReservedCmd0, State.dispatch, State.gated, hres]
  · simp only [exec, execWrCmd, execReservedCmd4to7, State.dispatch, State.gated, if_neg hinit, if_neg hsend, if_neg hrecv,
      ite_self]

/-- Settles O14: dispatch and the decoder split on the same OP. -/
theorem commandWriteIsItsCommand : Obligations.CommandWriteIsItsCommand :=
  fun s v => ⟨decodeCmd v, rfl, exec_wrCmd s v⟩

/-- Settles O11: the meaning of an ill-formed access looks at WE alone. -/
theorem misalignedAccessesHaveNoEffect : Obligations.MisalignedAccessesHaveNoEffect :=
  fun _ _ _ => ⟨rfl, rfl, rfl, rfl, rfl, rfl⟩

/-! ### Buffer addresses (R58) -/

theorem addrW_le_of_wf {p : Params} (h : p.wf = true) : p.addrW ≤ 32 := by
  simp only [Params.wf, Bool.and_eq_true, decide_eq_true_eq] at h
  obtain ⟨⟨-, haddrW⟩, -⟩ := h
  exact haddrW

theorem keepBits_toNat (w : Nat) (v : Word) : (keepBits w v).toNat = v.toNat % 2 ^ w := by
  rw [keepBits, BitVec.toNat_ofNat]
  exact Nat.mod_eq_of_lt (lt_of_le_of_lt (Nat.mod_le _ _) v.isLt)

/-- Settles O25: a sum that wraps at 32 bits wraps alike at the `ADDR_W` bits below. -/
theorem bufferAddressWraps : Obligations.BufferAddressWraps := by
  refine ⟨rfl, fun s i hw => ?_⟩
  have hdvd : 2 ^ s.cfg.addrW ∣ 2 ^ 32 := Nat.pow_dvd_pow 2 (addrW_le_of_wf hw)
  rw [State.ea, keepBits_toNat, BitVec.toNat_add, Nat.mod_mod_of_dvd _ hdvd]

/-! ### BLOCK's turn -/

theorem State.popped_of_inbox_nil {s : State} (h : s.inbox = []) : s.popped = s := by
  cases s
  cases h
  rfl

theorem State.blockIsNext_iff (s : State) : s.blockIsNext = true ↔ s.inbox = [] ∨ s.inbox.head? = some .block := by
  unfold State.blockIsNext
  split
  · next hi => simp [hi]
  · next hi => simp [hi]
  · next hnil hblock =>
    cases hi : s.inbox with
    | nil => exact absurd hi hnil
    | cons u rest => simpa using fun hu : u = .block => hblock rest (hu ▸ hi)

/-- Where BLOCK moves next, with a turn left or not, its move is the step. -/
theorem BlockMove.stepNext {s t : State} (hw : s.cfg.wf = true) (hb : s.blockIsNext = true)
    (m : BlockMove s.popped s.later t) : Machine.step s = .next t := by
  cases hi : s.inbox with
  | nil =>
    rw [State.popped_of_inbox_nil hi, State.later_of_inbox_nil hi] at m
    exact m.step hw hi
  | cons u rest =>
    obtain rfl : u = .block := by simpa [State.blockIsNext_iff, hi] using hb
    have e : s.popped = { s with inbox := rest } := by simp [State.popped, hi]
    exact BlockMove.stepTurn hw hi (e ▸ m)

/-- Before a BUFMEM access at an address without memory BLOCK is stuck (R52). -/
theorem State.stuckAt_of_invalid {s : State} (hq : s.seq = .txRead ∨ ∃ d, s.seq = .rxStore d)
    (hv : s.cfg.bufmemValid (s.ea s.idx) = false) : s.stuckAt = some (s.ea s.idx) := by
  rcases hq with hq | ⟨d, hq⟩ <;> simp [State.stuckAt, hq, hv]

/-- Where BLOCK is stuck its own step is the fault. -/
theorem State.blockTurn_of_stuckAt {s : State} {a : Word} (h : s.stuckAt = some a) (later : List Byte) :
    s.blockTurn later = .fault (.bufmemStuck a) := by
  cases hq : s.seq with
  | txRead | rxStore d =>
    simp only [State.stuckAt, hq] at h
    split at h
    · cases h
    · next hv =>
      cases h
      simp [State.blockTurn, State.portOp, hq, State.internalStep, State.atValid, hv]
  | _ => simp [State.stuckAt, hq] at h

/-- Settles O41: the access is stuck, which is a fault with no turn left and passes at a turn of BLOCK. -/
theorem invalidBufferAddressIsStuck : Obligations.InvalidBufferAddressIsStuck := by
  intro s hw hq hv
  refine ⟨fun hi => ?_, fun rest hi => ?_⟩
  · rw [step_block hw hi]
    exact State.blockTurn_of_stuckAt (State.stuckAt_of_invalid hq hv) []
  · have hstuck : ({ s with inbox := rest } : State).stuckAt = some (s.ea s.idx) := State.stuckAt_of_invalid hq hv
    rw [step_turn hw hi]
    simp only [State.takeTurn, hstuck]

/-! ### Accesses without a race (R61, R66, R147, R148) -/

@[simp] theorem State.survivor_unraced (s : State) (a : Word) (b : Byte) : s.survivor a b [] = b := rfl

/-- Where HOST does not write the byte, BLOCK reads what is there, and nothing is drawn. -/
theorem State.memRead_unraced {s : State} {a : Word} (h : racedAt s.hostRaced a = []) :
    s.blockSees [] a = s.mem.byteAt a ∧ s.memRead [] a = s.emit (.memRead a (s.mem.byteAt a)) := by
  simp [State.memRead, State.blockSees, State.blockOthers, h, pickValue, drawsAfterPick]

/-- Settles O40: with no turn left no racing value is to come, and none is recorded, so the pick is the byte there. -/
theorem sendByteIsRead : Obligations.SendByteIsRead := by
  intro s hw hi hq hv hr
  obtain ⟨hsees, hread⟩ := State.memRead_unraced hr
  rw [BlockMove.step hw hi (.txRead hq hv), hsees, hread]
  rfl

/-- Settles O39: no write of HOST is recorded at the byte, so the byte stored is the one left. -/
theorem recvByteIsStored : Obligations.RecvByteIsStored := by
  intro s d hw hi hq hv hr
  have m : BlockMove s [] { s.memWrite (s.ea s.idx) d with seq := .phaseOk (.data s.isLast) } := .rxStore d hq hv
  refine ⟨_, m.step hw hi, rfl, ?_, fun a ha => ?_, ⟨m.sameArguments, rfl, rfl, rfl, rfl, rfl⟩, rfl⟩
  · simp [State.memWrite, hr]
  · exact s.mem.byteAt_setByte_other _ ha

/-- HOST's write of a byte of BUFMEM is the step of its turn. -/
theorem step_bufWrite {s t : State} {a : Word} {b : Byte} {rest : List Turn} (hw : s.cfg.wf = true)
    (hi : s.inbox = .bufWrite a b :: rest) (h : ({ s with inbox := rest } : State).hostBufWrite a b = t) : step s = .next t :=
  (step_turn hw hi).trans (congrArg Host.Outcome.next h)

theorem State.untilIdle_of_idle (now : State → List Byte) (n : Nat) {s : State} (h : s.busy = false) :
    State.untilIdle now n s = [] := by
  cases n <;> simp [State.untilIdle, h]

/-- Without a command in progress no racing value is to come. -/
theorem State.later_of_idle {s : State} (h : s.busy = false) : s.later = [] := by
  unfold State.later
  split
  · exact State.untilIdle_of_idle _ _ h
  · split
    · exact State.untilIdle_of_idle _ _ h
    · rfl

/-- A HOST read of a byte that BLOCK does not write gives the byte there, and nothing is drawn. -/
theorem State.hostBufRead_unraced {s : State} {a : Word} (hv : s.cfg.bufmemValid a = true) (hr : s.blockRaced = []) :
    s.hostBufRead [] a = { s with retByte := s.mem.byteAt a } := by
  simp [State.hostBufRead, hv, State.hostSees, State.hostOthers, hr, pickValue, drawsAfterPick]

theorem State.hostBufWrite_idle {s : State} {a : Word} (hv : s.cfg.bufmemValid a = true) (hb : s.busy = false) (b : Byte) :
    s.hostBufWrite a b = { s with mem := s.mem.setByte a b } := by
  simp [State.hostBufWrite, hv, hb]

theorem State.hostBufWrite_invalid {s : State} {a : Word} (hv : s.cfg.bufmemValid a = false) (b : Byte) :
    s.hostBufWrite a b = s := by
  simp [State.hostBufWrite, hv]

/-- Settles O44: no race outlives its command, so an idle access is plain; where there is no memory a read draws its byte. -/
theorem idleBufferAccessesAreExact : Obligations.IdleBufferAccessesAreExact := by
  intro s a b rest h hw
  refine ⟨fun hb hv => ⟨fun hi => ?_, fun hi => ?_⟩, fun hv => ⟨fun hi => ?_, fun hi => ?_⟩⟩
  · rw [step_turn hw hi, State.later_of_idle hb]
    exact congrArg Host.Outcome.next (State.hostBufRead_unraced hv (h.raceFree hb).2)
  · exact ⟨_, step_bufWrite hw hi (State.hostBufWrite_idle (s := { s with inbox := rest }) hv hb b),
      s.mem.byteAt_setByte_self a b, fun x hx => s.mem.byteAt_setByte_other b hx, rfl⟩
  · obtain ⟨v, n, e⟩ := ({ s with inbox := rest } : State).hostBufRead_eq s.later a
    exact ⟨_, (step_turn hw hi).trans (congrArg Host.Outcome.next e), rfl⟩
  · exact step_bufWrite hw hi (State.hostBufWrite_invalid (s := { s with inbox := rest }) hv b)

/-! ### Racing accesses (R62, R195) -/

/-- A HOST write at a byte of memory during a command leaves one byte and records the other. -/
theorem State.hostBufWrite_busy {s : State} {a : Word} (hv : s.cfg.bufmemValid a = true) (hb : s.busy = true) (b : Byte) :
    s.hostBufWrite a b = { s with
      mem       := s.mem.setByte a (s.survivor a b (racedAt s.blockRaced a))
      hostRaced := (a.toNat, s.displaced a b (s.survivor a b (racedAt s.blockRaced a))) :: s.hostRaced
      raceDraws := drawsAfterPick s.raceDraws (racedAt s.blockRaced a) } := by
  simp [State.hostBufWrite, hv, hb]

/-- Of the byte there and the byte written, a racing write leaves one and records the other, its own being left unless the other
agent wrote there (`others`). -/
theorem racingWrite_leaves (s : State) (a : Word) (b : Byte) (others : List Byte) (record : List Host.Cell) :
    let left := s.survivor a b others
    let m := s.mem.setByte a left
    let r := (a.toNat, s.displaced a b left) :: record
    (m.byteAt a = b ∧ racedAt r a = s.mem.byteAt a :: racedAt record a) ∨
      (others ≠ [] ∧ m.byteAt a = s.mem.byteAt a ∧ racedAt r a = b :: racedAt record a) := by
  dsimp only
  rw [Memory.byteAt_setByte_self, racedAt_cons_self]
  rcases s.survivor_cases a b others with ⟨hl, hd⟩ | ⟨ho, hl, hd⟩
  · exact .inl ⟨hl, by rw [hd]⟩
  · exact .inr ⟨ho, hl, by rw [hd]⟩

/-- Where the other agent wrote the byte, which of the two is left is one draw over both. -/
theorem racingWrite_draws (s : State) (a : Word) (b : Byte) {others : List Byte} (h : others ≠ []) :
    (s.mem.setByte a (s.survivor a b others)).byteAt a =
        [b, s.mem.byteAt a].getD (Config.raceDraw s.raceDraws % 2) (s.mem.byteAt a) ∧
      drawsAfterPick s.raceDraws others = s.raceDraws + 1 := by
  have hlt : Config.raceDraw s.raceDraws % 2 < [b, s.mem.byteAt a].length := Nat.mod_lt _ (by decide)
  refine ⟨?_, by simp [drawsAfterPick, h]⟩
  rw [Memory.byteAt_setByte_self, State.survivor_raced s a b h, List.getD_eq_getElem _ _ hlt, List.getD_eq_getElem _ _ hlt]

/-- A racing write touches no other byte and no other record. -/
theorem racingWrite_frame (m : Memory) (record : List Host.Cell) {a x : Word} (left kept : Byte) (h : x ≠ a) :
    (m.setByte a left).byteAt x = m.byteAt x ∧ racedAt ((a.toNat, kept) :: record) x = racedAt record x :=
  ⟨m.byteAt_setByte_other left h, racedAt_cons_other record kept h⟩

/-- Settles O42: a read picks over the whole list of candidates, a write leaves one of two bytes and records the other. -/
theorem racingReadsSeeOldOrNew : Obligations.RacingReadsSeeOldOrNew := by
  intro s a b rest hw hb hv now pick draws hostSees blockSees
  have blockNext : s.inbox = [] ∨ s.inbox = .block :: rest → s.blockIsNext = true := fun hi =>
    s.blockIsNext_iff.2 (hi.imp_right fun hi => by simp [hi])
  refine ⟨fun hi => ?_, fun hq ha hi => ?_, fun hi => ?_, fun hq ha hi => ?_⟩
  · rw [step_turn hw hi]
    simp only [State.takeTurn, State.hostBufRead, if_pos hv, State.hostSees, State.hostOthers, pickValue_eq,
      drawsAfterPick_eq _ now]
    rfl
  · subst ha
    rw [BlockMove.stepNext hw (blockNext hi) (.txRead hq hv)]
    simp only [State.memRead, State.blockSees, State.blockOthers, pickValue_eq, drawsAfterPick_eq _ now]
    rfl
  · exact ⟨_, step_bufWrite hw hi (State.hostBufWrite_busy (s := { s with inbox := rest }) hv hb b),
      racingWrite_leaves s a b _ _, racingWrite_draws s a b, fun x hx => racingWrite_frame _ _ _ _ hx, rfl⟩
  · subst ha
    exact ⟨_, BlockMove.stepNext hw (blockNext hi) (.rxStore b hq hv),
      racingWrite_leaves s _ b _ _, racingWrite_draws s _ b, fun x hx => racingWrite_frame _ _ _ _ hx, rfl⟩

/-! ### The racing values still to come (R62) -/

theorem State.mem_hostWriteNow (s : State) (a : Word) (v : Byte) :
    v ∈ s.hostWriteNow a ↔ s.inbox.head? = some (.bufWrite a v) := by
  unfold State.hostWriteNow
  split
  · next x b rest hi =>
    by_cases hx : x = a
    · simp [hi, hx, eq_comm]
    · simp [hi, hx]
  · next hno =>
    cases hi : s.inbox with
    | nil => simp
    | cons u rest =>
      simp only [List.not_mem_nil, List.head?_cons, Option.some.injEq, false_iff]
      exact fun hu => hno a v rest (hu ▸ hi)

theorem State.mem_blockWriteNow (s : State) (a : Word) (v : Byte) :
    v ∈ s.blockWriteNow a ↔
      s.seq = .rxStore v ∧ s.blockIsNext = true ∧ s.ea s.idx = a ∧ s.cfg.bufmemValid a = true := by
  unfold State.blockWriteNow
  split
  · next d hq =>
    simp only [hq, Seq.rxStore.injEq]
    split
    · next h => simp_all [eq_comm (a := v)]
    · next h => simp_all
  · next hno => simpa using fun hq => absurd hq (hno v)

/-- What HOST writes next is the same in twin states. -/
theorem Twins.hostWriteNow {s u : State} (h : Twins s u) (a : Word) : s.hostWriteNow a = u.hostWriteNow a := by
  unfold State.hostWriteNow
  rw [h.inbox]

/-- What BLOCK writes next is the same in twin states: they differ in what BLOCK sends, not in what it stores. -/
theorem Twins.blockWriteNow {s u : State} (h : Twins s u) (a : Word) : s.blockWriteNow a = u.blockWriteNow a := by
  rcases h.alike.position with hq | ⟨b, c, hs, hu⟩
  · unfold State.blockWriteNow State.blockIsNext
    rw [hq, h.inbox, h.alike.idx, h.alike.ea, h.alike.cfg]
  · simp [State.blockWriteNow, hs, hu]

/-- BLOCK's one move with a MemWrite is the store of a RECV byte. -/
theorem BlockMove.of_memWrite {s t : State} {later : List Byte} {a : Word} {v : Byte} (m : BlockMove s later t)
    (h : t.trace = s.trace ++ [.memWrite a v]) : s.seq = .rxStore v ∧ s.ea s.idx = a ∧ s.cfg.bufmemValid a = true := by
  cases m with
  | rxStore d hq hv =>
    simp only [State.memWrite, State.emit_trace, List.append_cancel_left_eq, List.cons.injEq, Event.memWrite.injEq, and_true] at h
    obtain ⟨rfl, rfl⟩ := h
    exact ⟨hq, rfl, hv⟩
  | _ => simp [State.memRead] at h

/-- A step with a MemWrite is BLOCK's store. -/
theorem mem_blockWriteNow_of_step {s t : State} {a : Word} {v : Byte} (hs : step s = .next t)
    (h : t.trace = s.trace ++ [.memWrite a v]) : v ∈ s.blockWriteNow a := by
  rw [State.mem_blockWriteNow, State.blockIsNext_iff]
  cases (step_move hs).2 with
  | block t hi m =>
    obtain ⟨hq, ha, hv⟩ := m.of_memWrite h
    exact ⟨hq, .inl hi, ha, hv⟩
  | blockTurn t hi m =>
    obtain ⟨hq, ha, hv⟩ := m.of_memWrite h
    exact ⟨hq, .inr hi, ha, hv⟩
  | access a t hi hx m => simp [m.trace] at h
  | reset => simp [State.resetBlock] at h
  | _ => simp at h

/-- BLOCK's store is a step with its MemWrite. -/
theorem step_of_mem_blockWriteNow {s : State} {a : Word} {v : Byte} (hw : s.cfg.wf = true) (h : v ∈ s.blockWriteNow a) :
    ∃ t, step s = .next t ∧ t.trace = s.trace ++ [.memWrite a v] := by
  obtain ⟨hq, hb, rfl, hv⟩ := (s.mem_blockWriteNow a v).1 h
  exact ⟨_, BlockMove.stepNext hw hb (.rxStore v hq hv), rfl⟩

/-- No run changes the configuration. -/
theorem run_cfg {n : Nat} {s t : State} (h : Host.Core.run core n s = .next t) : t.cfg = s.cfg :=
  run_keeps (fun u => u.cfg = s.cfg) (fun _ _ hu hs => (step_move hs).2.cfg.trans hu) n s t rfl h

/-- At a HOST read the racing values still to come are those that BLOCK stores there on the run to the end of the command. -/
theorem State.mem_later_of_bufRead {s : State} {a : Word} (v : Byte) (h : s.inbox.head? = some (.bufRead a)) :
    v ∈ s.later ↔
      ∃ n u, n < s.fuel ∧ Host.Core.run core n s = .next u ∧ busyUntil s (n + 1) ∧ v ∈ u.blockWriteNow a := by
  obtain ⟨rest, hi⟩ := List.head?_eq_some_iff.1 h
  have e : s.later = State.untilIdle (fun u => u.blockWriteNow a) s.fuel s := by simp [State.later, hi]
  rw [e]
  exact mem_untilIdle (fun _ _ h => h.blockWriteNow a) v s.fuel s s (Twins.refl s)

/-- At BLOCK's MemRead the racing values still to come are those that HOST writes there on the run to the end of the command. -/
theorem State.mem_later_of_txRead {s : State} (v : Byte) (hq : s.seq = .txRead) (hb : s.blockIsNext = true) :
    v ∈ s.later ↔
      ∃ n u, n < s.fuel ∧ Host.Core.run core n s = .next u ∧ busyUntil s (n + 1) ∧ v ∈ u.hostWriteNow (s.ea s.idx) := by
  have e : s.later = State.untilIdle (fun u => u.hostWriteNow (s.ea s.idx)) s.fuel s := by
    unfold State.later
    split
    · next hi => simp [State.blockIsNext, hi] at hb
    · exact if_pos ⟨hq, hb⟩
  rw [e]
  exact mem_untilIdle (fun _ _ h => h.hostWriteNow _) v s.fuel s s (Twins.refl s)

/-- A run from HOST's read to a store of BLOCK has a first step, so its configuration is sound. -/
theorem wf_of_run_to_store {n : Nat} {s u : State} {a x : Word} {v : Byte} (h : s.inbox.head? = some (.bufRead a))
    (hr : Host.Core.run core n s = .next u) (hv : v ∈ u.blockWriteNow x) : s.cfg.wf = true := by
  cases n with
  | zero =>
    rw [run_zero] at hr
    cases hr
    obtain ⟨-, hb, -⟩ := (s.mem_blockWriteNow x v).1 hv
    rcases s.blockIsNext_iff.1 hb with hi | hi <;> simp [hi] at h
  | succ n =>
    obtain ⟨t, hs, -⟩ := run_succ_next hr
    exact (step_move hs).1

/-- Settles O43: the look-ahead is the run itself; BLOCK's stores are its steps with a MemWrite, HOST's writes its turns. -/
theorem laterValuesAreThoseWrittenLater : Obligations.LaterValuesAreThoseWrittenLater := by
  intro s a v _
  refine ⟨fun hi => (State.mem_later_of_bufRead v hi).trans ⟨?_, ?_⟩, fun hq ha hb => ?_⟩
  · rintro ⟨n, u, hn, hr, hbusy, hv⟩
    have hw : u.cfg.wf = true := run_cfg hr ▸ wf_of_run_to_store hi hr hv
    obtain ⟨u', hs, ht⟩ := step_of_mem_blockWriteNow hw hv
    exact ⟨n, u, u', hn, hr, hbusy, hs, ht⟩
  · rintro ⟨n, u, u', hn, hr, hbusy, hs, ht⟩
    exact ⟨n, u, hn, hr, hbusy, mem_blockWriteNow_of_step hs ht⟩
  · subst ha
    exact (State.mem_later_of_txRead v hq hb).trans (exists_congr fun n => exists_congr fun u =>
      and_congr_right fun _ => and_congr_right fun _ => and_congr_right fun _ => State.mem_hostWriteNow u _ v)

end Sys2Proof.Machine
end

section
/-! SUPPORT. The encodings (R71 to R75): the decoder on the words that the encoder builds from their fields, the encoder on what the
decoder makes of the fields of a word, and so the round trips; which port events are instructions (R74). -/

namespace Sys2Proof

/-! ### The decoder on a word built from its fields -/

theorem decodeHostAccess_haOf (we : Bool) (sel : BitVec 3) (low : BitVec 2) (v : Word) :
    decodeHostAccess (haOf we sel low) v = decodeAccess we sel low (if we then v else 0) := by
  obtain ⟨hwe, hsel, hlow⟩ := haOf_fields we sel low
  unfold decodeHostAccess
  dsimp only
  rw [hwe, hsel, hlow]

/-- A data word that fits is not changed by the decoder, which drops that of a read (R71). -/
theorem data_of_dataFits {we : Bool} {v : Word} (h : dataFits we v = true) : (if we then v else 0) = v := by
  cases we with
  | true => rfl
  | false => exact (beq_iff_eq.1 h).symm

theorem decodeHostAccess_of_dataFits {we : Bool} {v : Word} (sel : BitVec 3) (low : BitVec 2) (h : dataFits we v = true) :
    decodeHostAccess (haOf we sel low) v = decodeAccess we sel low v := by
  rw [decodeHostAccess_haOf, data_of_dataFits h]

/-- OP = 4 to 7 are the values with the top bit set (R73). -/
theorem op_high_iff : ∀ op : BitVec 3,
    (op ≠ 0 ∧ op ≠ 1 ∧ op ≠ 2 ∧ op ≠ 3) ↔ 1#1 ++ op.extractLsb' 0 2 = op := by decide

theorem decodeCmd_cmdWord_high (low : BitVec 2) (hi : BitVec 29) :
    decodeCmd (cmdWord (1#1 ++ low) hi) = .reservedCmd4to7 low hi := by
  have hlow : (1#1 ++ low : BitVec 3).extractLsb' 0 2 = low := extract_append_low 1#1 low
  obtain ⟨h0, h1, h2, h3⟩ := (op_high_iff (1#1 ++ low)).2 (by rw [hlow])
  simp only [decodeCmd, cmdWord_op, cmdWord_hi, if_neg h0, if_neg h1, if_neg h2, if_neg h3, hlow]

/-- Settles O1: format by format the decoder reads back the fields that the encoder put together. -/
theorem decodeEncodeRoundTrip : Obligations.DecodeEncodeRoundTrip := by
  intro i hwf
  cases i with
  | illformedOff1 | illformedOff2 | illformedOff3 => exact congrArg Except.ok (decodeHostAccess_of_dataFits _ _ hwf)
  | init | send | recv | reservedCmd0 => simp [decode, encode, decodeCmd]
  | reservedCmd4to7 low hi => exact congrArg Except.ok (decodeCmd_cmdWord_high low hi)
  | pwDiv | pwData | prFlag | prStatus | prData =>
    simp only [decode, encode, decodePortEvent, portWord_write, portWord_reg, portWord_val]
    rfl
  | _ => rfl

/-! ### The encoder on what was decoded -/

/-- The eight registers. -/
theorem sel_cases : ∀ sel : BitVec 3,
    sel = 0 ∨ sel = 1 ∨ sel = 2 ∨ sel = 3 ∨ sel = 4 ∨ sel = 5 ∨ sel = 6 ∨ sel = 7 := by decide

theorem encode_decodeRegister_write (sel : BitVec 3) (v : Word) :
    encode (decodeRegister true sel v) = .hostAccess (haOf true sel 0) v := by
  rcases sel_cases sel with rfl | rfl | rfl | rfl | rfl | rfl | rfl | rfl <;> rfl

theorem encode_decodeRegister_read : ∀ sel : BitVec 3,
    encode (decodeRegister false sel 0) = .hostAccess (haOf false sel 0) 0 := by decide

/-- An access with fitting data is the word of what its fields decode to. -/
theorem encode_decodeAccess {we : Bool} {v : Word} (sel : BitVec 3) (low : BitVec 2) (h : dataFits we v = true) :
    encode (decodeAccess we sel low v) = .hostAccess (haOf we sel low) v := by
  have hlast : ∀ low : BitVec 2, low ≠ 0 → low ≠ 1 → low ≠ 2 → low = 3 := by decide
  unfold decodeAccess
  split_ifs with h0 h1 h2
  · subst h0
    cases we with
    | true => exact encode_decodeRegister_write sel v
    | false =>
      obtain rfl : 0 = v := data_of_dataFits h
      exact encode_decodeRegister_read sel
  · subst h1; rfl
  · subst h2; rfl
  · rw [hlast low h0 h1 h2]; rfl

theorem encode_decodeHostAccess {ha : BitVec 6} {d : Word} (h : dataFits (ha.getLsbD 5) d = true) :
    encode (decodeHostAccess ha d) = .hostAccess ha d := by
  unfold decodeHostAccess
  dsimp only
  rw [data_of_dataFits h, encode_decodeAccess _ _ h, haOf_of_fields]

/-- A command word is the word of what its OP decodes to. -/
theorem encode_decodeCmd (w : Word) : encode (decodeCmd w) = .cmd w := by
  have hw : ∀ op, w.extractLsb' 0 3 = op → CodeWord.cmd (cmdWord op (w.extractLsb' 3 29)) = .cmd w := by
    rintro _ rfl
    rw [cmdWord_of_fields]
  unfold decodeCmd
  dsimp only
  split_ifs with h1 h2 h3 h0
  · exact hw _ h1
  · exact hw _ h2
  · exact hw _ h3
  · exact hw _ h0
  · exact hw _ ((op_high_iff _).1 ⟨h0, h1, h2, h3⟩).symm

/-- A port event that decodes is the word of the operation it decodes to. -/
theorem encode_of_decodePortEvent {pe : BitVec 12} {i : Instr} (h : decodePortEvent pe = .ok i) : encode i = .portEvent pe := by
  have word : ∀ {w reg v}, pe.getLsbD 11 = w → pe.extractLsb' 8 3 = reg → pe.extractLsb' 0 8 = v →
      CodeWord.portEvent (portWord w reg v) = .portEvent pe := by
    rintro _ _ _ rfl rfl rfl
    rw [portWord_of_fields]
  unfold decodePortEvent at h
  dsimp only at h
  split at h
  · next hW =>
    split_ifs at h with hdivr hpsr hcode hdr hcr hstart hcont hack hstop <;> cases h
    · exact word hW hdivr rfl
    · exact word hW hpsr hcode
    · exact word hW hdr rfl
    · exact word hW hcr hstart
    · exact word hW hcr hcont
    · exact word hW hcr hack
    · exact word hW hcr hstop
  · next hR =>
    have hR := Bool.eq_false_iff.2 hR
    split_ifs at h with hdivr hpsr hdr hcr <;> cases h
    · exact word hR hpsr rfl
    · exact word hR hdr rfl
    · exact word hR hcr rfl

theorem decodeCmd_wf (w : Word) : (decodeCmd w).wf = true := by
  unfold decodeCmd
  dsimp only
  split_ifs <;> rfl

/-- A port operation has no operand that could be ill formed. -/
theorem wf_of_encode_portEvent {i : Instr} {pe : BitVec 12} (h : encode i = .portEvent pe) : i.wf = true := by
  cases i with
  | illformedOff1 | illformedOff2 | illformedOff3 => cases h
  | _ => rfl

/-- Settles O2: format by format the fields of the word are those that the encoder puts together again. -/
theorem encodeDecodeRoundTrip : Obligations.EncodeDecodeRoundTrip := by
  intro w i hwf h
  cases w with
  | hostAccess ha d =>
    cases h
    exact ⟨Machine.decodeHostAccess_wf ha d, encode_decodeHostAccess hwf⟩
  | cmd w =>
    cases h
    exact ⟨decodeCmd_wf w, encode_decodeCmd w⟩
  | portEvent pe =>
    have hi := encode_of_decodePortEvent h
    exact ⟨wf_of_encode_portEvent hi, hi⟩

/-! ### The port events that are instructions (R74) -/

/-- A port event is an instruction exactly when it is the word of one. -/
theorem decodes_iff_encodes (pe : BitVec 12) :
    (∃ i, decode (.portEvent pe) = .ok i) ↔ ∃ i, encode i = .portEvent pe := by
  constructor
  · rintro ⟨i, h⟩
    exact ⟨i, encode_of_decodePortEvent h⟩
  · rintro ⟨i, h⟩
    exact ⟨i, h ▸ decodeEncodeRoundTrip i (wf_of_encode_portEvent h)⟩

/-- The fields of a word that is made of them. -/
theorem portEvent_fields {pe : BitVec 12} {w : Bool} {reg : BitVec 3} {v : Byte}
    (h : CodeWord.portEvent pe = .portEvent (portWord w reg v)) :
    w = pe.getLsbD 11 ∧ reg = pe.extractLsb' 8 3 ∧ v = pe.extractLsb' 0 8 := by
  cases h
  exact ⟨(portWord_write _ _ _).symm, (portWord_reg _ _ _).symm, (portWord_val _ _ _).symm⟩

/-- Settles O3: the words in the list are those that the encoder gives the ten port operations. -/
theorem portEventFormsAreThoseOfR74 : Obligations.PortEventFormsAreThoseOfR74 := by
  intro write reg val
  rw [decodes_iff_encodes]
  constructor
  · rintro ⟨i, h⟩
    cases i with
    | pwPresc | pwCtlStart | pwCtlCont | pwCtlContAck | pwCtlStop =>
      obtain ⟨rfl, rfl, rfl⟩ := portEvent_fields h
      decide
    | pwDiv v | pwData v | prFlag v | prStatus v | prData v =>
      obtain ⟨rfl, rfl, rfl⟩ := portEvent_fields h
      simp only [portWord_write, portWord_reg]
      simp
    | _ => cases h
  · rintro (⟨rfl, rfl | ⟨rfl, rfl⟩ | rfl | ⟨rfl, rfl | rfl | rfl | rfl⟩⟩ | ⟨rfl, rfl | rfl | rfl⟩)
    · exact ⟨.pwDiv val, rfl⟩
    · exact ⟨.pwPresc, rfl⟩
    · exact ⟨.pwData val, rfl⟩
    · exact ⟨.pwCtlStart, rfl⟩
    · exact ⟨.pwCtlCont, rfl⟩
    · exact ⟨.pwCtlContAck, rfl⟩
    · exact ⟨.pwCtlStop, rfl⟩
    · exact ⟨.prStatus val, rfl⟩
    · exact ⟨.prData val, rfl⟩
    · exact ⟨.prFlag val, rfl⟩

/-- Settles O4: each word is decoded by its fields. -/
theorem specWordsDecode : Obligations.SpecWordsDecode := ⟨rfl, rfl, rfl, rfl, rfl, rfl, rfl, rfl⟩

end Sys2Proof
end

section
/-! SUPPORT. Instructions as words at the machine (R71 to R80, R150 to R159): what a command word does, the event of a port operation
and its word, an instruction placed where the next step fetches it, and the events a step can perform (R74, R178). -/

namespace Sys2Proof.Machine

/-! ### The address byte and the command words (R73, R78, R80, R90, R91) -/

/-- Settles O24: the direction bit is below the shifted address, so the concatenation is their sum. -/
theorem addressByteIsShiftedAddress : Obligations.AddressByteIsShiftedAddress := by
  intro a d
  have hd : d.toNat < 2 ^ 1 := by cases d <;> decide
  rw [slaByte, BitVec.toNat_append, BitVec.toNat_ofBool, ← Nat.shiftLeft_add_eq_or_of_lt hd, Nat.shiftLeft_eq]
  omega

theorem State.gated_of_idle {s : State} (h : s.busy = false) (f : State → State) : s.gated f = f s := by
  simp [State.gated, h]

theorem State.gated_of_busy {s : State} (h : s.busy = true) (f : State → State) : s.gated f = s := by
  simp [State.gated, h]

/-- Settles O15: each of the three commands is its acceptance behind the busy gate; the reserved forms are empty. -/
theorem commandsAreAccepted : Obligations.CommandsAreAccepted := by
  intro s hi low
  refine ⟨fun hb => ?_, fun hb => ?_, rfl, rfl⟩
  · simp only [exec, execInit, execSend, execRecv, State.gated_of_idle hb]
    exact ⟨rfl, rfl, rfl⟩
  · simp only [exec, execInit, execSend, execRecv, State.gated_of_busy hb, and_self]

/-! ### The event of a port operation (R74, R75, R150 to R159) -/

/-- The control words and the prescaler code are those that the decoder reads. -/
theorem tableWords_iff (p : Params) : p.tableWords = true ↔
    p.prescCode = Config.prescCode ∧ p.ctlStart = Config.ctlStart ∧ p.ctlCont = Config.ctlCont ∧
      p.ctlContAck = Config.ctlContAck ∧ p.ctlStop = Config.ctlStop := by
  simp [Params.tableWords, and_assoc]

/-- The event that a port operation performs on a block with the parameters `p`; the other instructions perform none. -/
def portOpEvent (p : Params) : Instr → Option Event
  | .pwDiv d => some (.portWrite .divr d)
  | .pwPresc => some (.portWrite .psr p.prescCode)
  | .pwData b => some (.portWrite .dr b)
  | .pwCtlStart => some (.portWrite .cr p.ctlStart)
  | .pwCtlCont => some (.portWrite .cr p.ctlCont)
  | .pwCtlContAck => some (.portWrite .cr p.ctlContAck)
  | .pwCtlStop => some (.portWrite .cr p.ctlStop)
  | .prFlag v => some (.portRead .cr v)
  | .prStatus v => some (.portRead .psr v)
  | .prData v => some (.portRead .dr v)
  | _ => none

/-- Wherever BLOCK stands, a port operation performs its event and no other. -/
theorem exec_portOpEvent {i : Instr} {s : State} {e : Event} (h : portOpEvent s.cfg i = some e) :
    ∃ t, exec i s = .next t ∧ t.trace = s.trace ++ [e] := by
  cases i with
  | pwDiv | pwPresc | pwData | pwCtlStop | prData =>
    cases h
    exact ⟨_, rfl, rfl⟩
  | pwCtlStart | pwCtlCont | pwCtlContAck =>
    cases h
    refine ⟨_, rfl, ?_⟩
    split <;> rfl
  | prFlag | prStatus =>
    cases h
    refine ⟨_, rfl, ?_⟩
    split
    · split <;> rfl
    · rfl
  | _ => cases h

/-- With the control words of the opcode table the word of that event is the word of the operation. -/
theorem portOpEvent_portWord {p : Params} {i : Instr} {w : BitVec 12} (hp : p.tableWords = true) (h : encode i = .portEvent w) :
    ∃ e, portOpEvent p i = some e ∧ e.portWord = some w := by
  obtain ⟨hpresc, hstart, hcont, hack, hstop⟩ := (tableWords_iff p).1 hp
  cases i with
  | pwDiv | pwData | prFlag | prStatus | prData => cases h; exact ⟨_, rfl, rfl⟩
  | pwPresc => cases h; exact ⟨_, rfl, by rw [hpresc]; rfl⟩
  | pwCtlStart => cases h; exact ⟨_, rfl, by rw [hstart]; rfl⟩
  | pwCtlCont => cases h; exact ⟨_, rfl, by rw [hcont]; rfl⟩
  | pwCtlContAck => cases h; exact ⟨_, rfl, by rw [hack]; rfl⟩
  | pwCtlStop => cases h; exact ⟨_, rfl, by rw [hstop]; rfl⟩
  | _ => cases h

/-- Settles O18: the operation performs its event, whose word is that of the operation. -/
theorem portOperationsPerformTheirWord : Obligations.PortOperationsPerformTheirWord := by
  intro s i w hp h
  obtain ⟨e, he, hw⟩ := portOpEvent_portWord hp h
  obtain ⟨t, ht, htrace⟩ := exec_portOpEvent he
  exact ⟨t, e, ht, htrace, hw⟩

/-! ### The events of a step (R15, R74, R178) -/

/-- A move of BLOCK performs at most one event, a memory event or a port event of R74. -/
theorem BlockMove.trace_shape {s t : State} {later : List Byte} (m : BlockMove s later t) :
    t.trace = s.trace ∨ ∃ e, e.isPortShape s.cfg = true ∧ t.trace = s.trace ++ [e] := by
  cases m with
  | initDiv | addrData | txPut | txRead | rxStore => exact .inr ⟨_, rfl, rfl⟩
  | flagSet | flagClear | statusMatch | statusOther | rxRead => exact .inr ⟨_, rfl, rfl⟩
  | initPresc | startCtl | addrCtl | txCtl | rxLast | rxMore | stopCtl => exact .inr ⟨_, by simp [Event.isPortShape], rfl⟩
  | _ => exact .inl rfl

/-- So does every turn, for the turns of HOST perform none. -/
theorem TurnMove.trace_shape {s t : State} {later : List Byte} (m : TurnMove s later t) :
    t.trace = s.trace ∨ ∃ e, e.isPortShape s.cfg = true ∧ t.trace = s.trace ++ [e] := by
  cases m with
  | block t _ hm => exact hm.trace_shape
  | blockTurn t _ hm => exact hm.trace_shape
  | access a t _ _ hm => exact .inl hm.trace
  | bufRead a => exact .inl (by simp)
  | bufWrite a b => exact .inl (by simp)
  | blockStuck | pollDone | pollAgain | reset => exact .inl rfl

/-- Every event that a step adds is a memory event or a port event of R74. -/
theorem isPortShape_of_mem_newEvents {s t : State} {e : Event} (hs : step s = .next t) (he : e ∈ newEvents s t) :
    e.isPortShape s.cfg = true := by
  rcases (step_move hs).2.trace_shape with h | ⟨e', hshape, h⟩
  · simp [newEvents, h] at he
  · obtain rfl : e = e' := by simpa [newEvents, h] using he
    exact hshape

/-- With the control words of the opcode table a port event of R74 is the word of an instruction. -/
theorem decodes_of_isPortShape {p : Params} {e : Event} {w : BitVec 12} (hp : p.tableWords = true) (hs : e.isPortShape p = true)
    (hw : e.portWord = some w) : ∃ i, decode (.portEvent w) = .ok i := by
  obtain ⟨hpresc, hstart, hcont, hack, hstop⟩ := (tableWords_iff p).1 hp
  cases e with
  | memRead | memWrite => cases hw
  | portWrite r v =>
    cases hw
    refine (portEventFormsAreThoseOfR74 _ _ _).2 (.inl ⟨rfl, ?_⟩)
    cases r with
    | divr => exact .inl rfl
    | psr =>
      have hv : v = Config.prescCode := by simpa [Event.isPortShape, hpresc] using hs
      exact .inr (.inl ⟨rfl, hv⟩)
    | dr => exact .inr (.inr (.inl rfl))
    | cr =>
      have hv : v = Config.ctlStart ∨ v = Config.ctlCont ∨ v = Config.ctlContAck ∨ v = Config.ctlStop := by
        simpa [Event.isPortShape, hstart, hcont, hack, hstop, or_assoc] using hs
      exact .inr (.inr (.inr ⟨rfl, hv⟩))
  | portRead r v =>
    cases hw
    refine (portEventFormsAreThoseOfR74 _ _ _).2 (.inr ⟨rfl, ?_⟩)
    cases r with
    | divr => cases hs
    | psr => exact .inl rfl
    | dr => exact .inr (.inl rfl)
    | cr => exact .inr (.inr rfl)

/-- None of the control words of the opcode table has TWIE set (R178). -/
theorem twie_clear_of_isPortShape {p : Params} {v : Byte} (hp : p.tableWords = true)
    (hs : (Event.portWrite .cr v).isPortShape p = true) : v.getLsbD 0 = false := by
  obtain ⟨-, hstart, hcont, hack, hstop⟩ := (tableWords_iff p).1 hp
  have hv : ((v = Config.ctlStart ∨ v = Config.ctlCont) ∨ v = Config.ctlContAck) ∨ v = Config.ctlStop := by
    simpa [Event.isPortShape, hstart, hcont, hack, hstop] using hs
  rcases hv with ((rfl | rfl) | rfl) | rfl <;> rfl

/-- Settles O51: BLOCK's moves alone perform events, each of a shape of R74; the opcode table has a word for each shape. -/
theorem portEventsHaveTheirShapes : Obligations.PortEventsHaveTheirShapes := by
  intro s t hs e he
  have hshape := isPortShape_of_mem_newEvents hs he
  exact ⟨hshape, fun hp => ⟨fun _ => decodes_of_isPortShape hp hshape, fun v hv => twie_clear_of_isPortShape hp (hv ▸ hshape)⟩⟩

/-! ### An instruction placed where the next step fetches it (assumptions 10 and 11) -/

theorem decodeTableWord_eq_some {nbits w : Nat} {i : Instr} (h : decodeTableWord nbits w = some i) :
    ∃ c, CodeWord.ofTable nbits w = some c ∧ decode c = .ok i := by
  unfold decodeTableWord at h
  split at h
  · next c hc =>
    split at h
    · next j hj =>
      cases h
      exact ⟨c, hc, hj⟩
    · cases h
  · cases h

/-- Of the table's words those of 16 bits alone are port events. -/
theorem ofTable_portEvent {nbits w : Nat} {pe : BitVec 12} (h : CodeWord.ofTable nbits w = some (.portEvent pe)) : nbits = 16 := by
  unfold CodeWord.ofTable at h
  by_contra hn
  rw [if_neg hn] at h
  split_ifs at h <;> cases h

/-- A port operation stands at the position at which it is placed, with a sample left to take. -/
theorem portOp_withPortOp (s : State) {i : Instr} {pe : BitVec 12} (h : encode i = .portEvent pe) :
    (s.withPortOp i).portOp = some i := by
  cases i with
  | pwDiv | pwPresc | pwData | pwCtlStart | pwCtlCont | pwCtlContAck | pwCtlStop => rfl
  | prFlag | prStatus | prData => rfl
  | _ => cases h

/-- What placing a port operation and taking the answer of a read sets. -/
theorem State.placedPortOp_eq (s : State) (i : Instr) :
    let t := ({ s.withPortOp i with inbox := s.inbox } : State).forPortOp i
    t = { s with
      busy := true, op := t.op, dir := t.dir, seq := t.seq, cnt := 0, timeout := 1, answers := t.answers, draws := t.draws } := by
  dsimp only [State.forPortOp]
  split
  · rw [State.answered_eq]
    rfl
  · rfl

/-- The step from a placed port operation runs it. -/
theorem step_withPortOp {s : State} {i : Instr} {pe : BitVec 12} (hw : s.cfg.wf = true) (h : encode i = .portEvent pe) :
    step (s.withPortOp i) = exec i (({ s.withPortOp i with inbox := s.inbox } : State).forPortOp i) :=
  (blockStepRunsItsPortOperation (s.withPortOp i) i hw (portOp_withPortOp s h)).2 s.inbox rfl

/-- The step from a placed access is that access, in the state it was placed in. -/
theorem step_placedAccess {s : State} (hw : s.cfg.wf = true) (a : HostAccess) :
    step { s with inbox := .access a :: s.inbox } = s.accessTurn a :=
  step_turn (s := { s with inbox := .access a :: s.inbox }) hw rfl

/-- A 32-bit write of a register offset runs what its descriptor decodes to (R71). -/
theorem State.accessTurn_writeAccess (s : State) (off : BitVec 5) (v : Word) :
    s.accessTurn (writeAccess off v) = exec (decodeHostAccess (1#1 ++ off) v) s := s.accessTurn_word _ v

/-- The write of a word to CMD runs the command that the word decodes to. -/
theorem State.accessTurn_writeCmd (s : State) (v : Word) : s.accessTurn (writeAccess 0x00 v) = exec (decodeCmd v) s :=
  (s.accessTurn_writeAccess 0x00 v).trans (exec_wrCmd s v)

/-- Settles O49: a placed access is HOST's next turn, a placed command word is the write of it to CMD, and a placed port operation is
the one at BLOCK's position. -/
theorem placedWordRunsNext : Obligations.PlacedWordRunsNext := by
  intro s nbits w i hw h
  obtain ⟨c, hc, hd⟩ := decodeTableWord_eq_some h
  have hplace : s.withFetchWord nbits w = s.withCodeWord c := by simp only [State.withFetchWord, hc]
  rw [hplace]
  cases c with
  | hostAccess ha d =>
    cases hd
    exact ⟨s, step_placedAccess hw _, rfl, rfl, rfl, rfl, rfl, rfl, rfl, rfl, fun _ => rfl⟩
  | cmd v =>
    cases hd
    exact ⟨s, (step_placedAccess hw _).trans (s.accessTurn_writeCmd v), rfl, rfl, rfl, rfl, rfl, rfl, rfl, rfl, fun _ => rfl⟩
  | portEvent pe =>
    have hd : decodePortEvent pe = .ok i := hd
    simp only [State.withCodeWord, hd]
    refine ⟨_, step_withPortOp hw (encode_of_decodePortEvent hd), ?_⟩
    rw [State.placedPortOp_eq]
    exact ⟨rfl, rfl, rfl, rfl, rfl, rfl, rfl, rfl, fun hn => absurd (ofTable_portEvent hc) hn⟩

end Sys2Proof.Machine
end

section
/-! SUPPORT. HOST's scripts (R84, R85): a poll of STATUS, the wait for the end of a command, and the pseudo-instruction `init f`. -/

namespace Sys2Proof.Machine

/-! ### STATUS under the masks of the scripts (R84, R85, R93) -/

/-- What the masks of `idle` and of the wait for the end of a command see of STATUS. -/
theorem statusWord_masks (s : State) :
    (s.statusWord &&& 0x1 = 0x0 ↔ s.busy = false) ∧ (s.statusWord &&& 0x5 = 0x4 ↔ s.busy = false ∧ s.done = true) := by
  have h : ∀ (x : BitVec 3) (r : BitVec 2) (d i b : Bool),
      let w : Word := (x ++ 0#2 ++ r ++ 0#1 ++ BitVec.ofBool d ++ BitVec.ofBool i ++ BitVec.ofBool b).zeroExtend 32
      (w &&& 0x1 = 0x0 ↔ b = false) ∧ (w &&& 0x5 = 0x4 ↔ b = false ∧ d = true) := by decide
  exact h s.txState.code s.result.code s.done s.initialized s.busy

theorem statusWord_idle_iff (s : State) : s.statusWord &&& 0x1 = 0x0 ↔ s.busy = false := (statusWord_masks s).1

theorem statusWord_ended_iff (s : State) : s.statusWord &&& 0x5 = 0x4 ↔ s.busy = false ∧ s.done = true :=
  (statusWord_masks s).2

/-! ### The turns of a script -/

/-- A poll of STATUS reads it once; unless it has the wanted value BLOCK has the next turn and the poll comes again (R84). -/
theorem step_pollStatus {s : State} {mask value : Word} {rest : List Turn} (hw : s.cfg.wf = true)
    (hi : s.inbox = Script.poll .status mask value :: rest) :
    step s = .next (if s.statusWord &&& mask = value then { s.returns s.statusWord with inbox := rest }
      else { s.returns s.statusWord with inbox := .block :: s.inbox }) := by
  have hread : ({ s with inbox := rest } : State).accessTurn (readAccess Script.Reg.status.off) =
      .next { s.returns s.statusWord with inbox := rest } := rfl
  rw [step_turn hw hi, hi]
  simp only [State.takeTurn, Script.poll, State.pollTurn, hread, State.returns_ret]
  split <;> rfl

theorem step_wrFreq {s : State} {f : Word} {rest : List Turn} (hw : s.cfg.wf = true) (hb : s.busy = false)
    (hi : s.inbox = Script.wr .freq f :: rest) : step s = .next { s with inbox := rest, freq := f } := by
  have hx : step s = exec (.wrFreq f) { s with inbox := rest } :=
    (step_turn hw hi).trans (State.accessTurn_writeAccess _ Script.Reg.freq.off f)
  rw [hx]
  exact congrArg Host.Outcome.next (State.gated_of_idle (s := { s with inbox := rest }) hb _)

theorem step_wrCmd_init {s : State} {rest : List Turn} (hw : s.cfg.wf = true) (hb : s.busy = false)
    (hi : s.inbox = Script.wr .cmd 1 :: rest) : step s = .next (({ s with inbox := rest } : State).accept .init) := by
  have hx : step s = exec (.init 0) { s with inbox := rest } := (step_turn hw hi).trans (State.accessTurn_writeCmd _ 1)
  rw [hx]
  exact congrArg Host.Outcome.next (State.gated_of_idle (s := { s with inbox := rest }) hb _)

/-! ### The wait for the end of a command (R85) -/

/-- A command is in progress, and HOST waits for its end. -/
structure Awaiting (s : State) : Prop where
  wf    : s.cfg.wf = true
  inbox : s.inbox = [Script.awaitDone]
  busy  : s.busy = true

/-- From `s` the wait ends, with the STATUS word of a completion with the result `r` read last. -/
def AwaitEnds (s : State) (r : ResultCode) : Prop :=
  ∃ t, Reaches s t ∧ t.inbox = [] ∧ t.busy = false ∧ t.freq = s.freq ∧ t.ret = t.statusWord ∧ t.result = r ∧ t.done = true

/-- Between two polls BLOCK has one move. -/
theorem Awaiting.reaches {s t : State} (h : Awaiting s) (m : ∀ later, BlockMove (s.returns s.statusWord) later t) :
    Reaches s t := by
  have hne : ¬ s.statusWord &&& 0x5 = 0x4 := fun hmask => by
    have hb := ((statusWord_ended_iff s).1 hmask).1
    rw [h.busy] at hb
    cases hb
  have hpoll := step_pollStatus h.wf h.inbox
  rw [if_neg hne, h.inbox] at hpoll
  have hsame : ({ s.returns s.statusWord with inbox := [Script.awaitDone] } : State) = s.returns s.statusWord := by
    rw [← h.inbox]
    rfl
  exact .head hpoll (.head (BlockMove.stepTurn h.wf rfl (hsame ▸ m _)) (.refl t))

/-- A move of BLOCK within the command leaves the rest of the wait to come. -/
theorem Awaiting.move {s t : State} {r : ResultCode} (h : Awaiting s) (m : ∀ later, BlockMove (s.returns s.statusWord) later t)
    (hb : t.busy = true) (rest : Awaiting t → AwaitEnds t r) : AwaitEnds s r := by
  have hcfg : t.cfg = s.cfg := (m []).cfg
  obtain ⟨hfreq, -⟩ := (m []).sameArguments
  obtain ⟨u, hu, hi, hbu, hfu, hend⟩ := rest ⟨hcfg ▸ h.wf, (m []).inbox.trans h.inbox, hb⟩
  exact ⟨u, (h.reaches m).trans hu, hi, hbu, hfu.trans hfreq, hend⟩

/-- A completion ends the wait at its next poll. -/
theorem Awaiting.complete {s : State} {r : ResultCode} (h : Awaiting s)
    (m : ∀ later, BlockMove (s.returns s.statusWord) later ((s.returns s.statusWord).complete r)) : AwaitEnds s r := by
  have hpoll := step_pollStatus (s := (s.returns s.statusWord).complete r) h.wf h.inbox
  rw [if_pos ((statusWord_ended_iff _).2 ⟨rfl, rfl⟩)] at hpoll
  exact ⟨_, (h.reaches m).trans (.head hpoll (.refl _)), rfl, rfl, rfl, rfl, rfl, rfl⟩

/-! ### `init f` (R85, R110) -/

theorem awaitEnds_initDone {s : State} (h : Awaiting s) (hq : s.seq = .initDone) : AwaitEnds s .ok :=
  h.complete fun _ => .initDone hq

theorem awaitEnds_initFlag {s : State} (h : Awaiting s) (hq : s.seq = .initFlag) : AwaitEnds s .ok :=
  h.move (fun _ => .initFlag hq) h.busy fun h' => awaitEnds_initDone h' rfl

theorem awaitEnds_initPresc {s : State} (h : Awaiting s) (hq : s.seq = .initPresc) : AwaitEnds s .ok :=
  h.move (fun _ => .initPresc hq) h.busy fun h' => awaitEnds_initFlag h' rfl

theorem awaitEnds_initDiv {s : State} {d : Byte} (h : Awaiting s) (hq : s.seq = .initDiv d) : AwaitEnds s .ok :=
  h.move (fun _ => .initDiv d hq) h.busy fun h' => awaitEnds_initPresc h' rfl

/-- An accepted INIT ends with OK exactly for a frequency of the set (R110). -/
theorem awaitEnds_initCheck {s : State} (h : Awaiting s) (hq : s.seq = .initCheck) :
    AwaitEnds s (if s.cfg.supportedFreqs.contains s.freq then .ok else .notInitialized) := by
  cases hf : s.cfg.supportedFreqs.contains s.freq with
  | true => exact h.move (fun _ => .initCheckIn hq hf) h.busy fun h' => awaitEnds_initDiv h' rfl
  | false => exact h.complete fun _ => .initCheckOut hq hf

/-- On an idle block the script passes its first poll, writes FREQ and has its INIT accepted. -/
theorem reaches_init_accepted {s : State} {f : Word} (hw : s.cfg.wf = true) (hb : s.busy = false)
    (hi : s.inbox = Script.init f) :
    ∃ a, Reaches s a ∧ Awaiting a ∧ a.seq = .initCheck ∧ a.freq = f ∧ a.cfg = s.cfg := by
  have hidle := step_pollStatus hw hi
  rw [if_pos ((statusWord_idle_iff s).2 hb)] at hidle
  exact ⟨_, .head hidle (.head (step_wrFreq hw hb rfl) (.head (step_wrCmd_init hw hb rfl) (.refl _))),
    ⟨hw, rfl, rfl⟩, rfl, rfl, rfl⟩

/-- Settles O60: the script has its INIT accepted, and its wait ends with the completion of that INIT. -/
theorem initScriptReturnsItsResult : Obligations.InitScriptReturnsItsResult := by
  intro s f _ hw hb hi
  obtain ⟨a, haccepted, hawait, hq, rfl, hcfg⟩ := reaches_init_accepted hw hb hi
  obtain ⟨t, hended, hinbox, hbusy, hfreq, hret, hresult, hdone⟩ := awaitEnds_initCheck hawait hq
  obtain ⟨n, hn⟩ := haccepted.trans hended
  exact ⟨n, t, hn, hinbox, hbusy, hfreq, hret, hcfg ▸ hresult, hdone⟩

end Sys2Proof.Machine
end

section
/-! SUPPORT. HOST's side of HOSTREG (R90 to R108): the ill-formed accesses, what each read returns and each write stores, the busy
gate, the acceptance of a command by a write to CMD, and the completion that HOST then reads. -/

namespace Sys2Proof.Machine

/-! ### Ill-formed accesses (R56, R71, R108) -/

/-- OFF[1:0] is the remainder of the offset by 4. -/
theorem low_ne_zero_of_misaligned {ha : BitVec 6} (h : ha.toNat % 4 ≠ 0) : ha.extractLsb' 0 2 ≠ 0 :=
  fun h0 => h (by simpa using congrArg BitVec.toNat h0)

/-- Each of the three misaligned forms looks at WE alone. -/
theorem exec_decodeAccess_misaligned (s : State) (we : Bool) (sel : BitVec 3) {low : BitVec 2} (v : Word) (h : low ≠ 0) :
    exec (decodeAccess we sel low v) s = .next (s.illformedAccess we) := by
  unfold decodeAccess
  rw [if_neg h]
  split_ifs <;> rfl

/-- An access is ill formed by its width, whatever its offset, or by its offset; both ways WE alone decides what it does. -/
theorem State.accessTurn_illFormed (s : State) {a : HostAccess} (h : a.width ≠ 32 ∨ a.ha.toNat % 4 ≠ 0) :
    s.accessTurn a = .next (s.illformedAccess (a.ha.getLsbD 5)) := by
  by_cases hw : a.width = 32
  · have hmis : a.ha.toNat % 4 ≠ 0 := h.resolve_left (not_not_intro hw)
    exact (if_pos hw).trans (exec_decodeAccess_misaligned s _ _ _ (low_ne_zero_of_misaligned hmis))
  · exact if_neg hw

/-- Settles O12: the step takes the turn, and the turn is an ill-formed access. -/
theorem illFormedAccessesHaveNoEffect : Obligations.IllFormedAccessesHaveNoEffect :=
  fun _ _ _ hw hi h => (step_turn hw hi).trans (State.accessTurn_illFormed _ h)

/-! ### Reads (R92 to R105) -/

/-- Settles O6: each read returns its register, and ADDR, the one narrower than a word, zero-extended. -/
theorem hostReadsReturnTheirRegister : Obligations.HostReadsReturnTheirRegister := by
  intro s
  have haddr : exec .rdAddr s = .next { s with ret := BitVec.ofNat 32 s.addr.toNat } := by
    rw [BitVec.ofNat_toNat]
    rfl
  exact ⟨rfl, rfl, haddr, rfl, rfl, rfl, rfl⟩

/-- A concatenation is a sum: its low part is below the shifted high part. -/
theorem toNat_append_eq_add {m n : Nat} (x : BitVec m) (y : BitVec n) : (x ++ y).toNat = x.toNat * 2 ^ n + y.toNat := by
  rw [BitVec.toNat_append, ← Nat.shiftLeft_add_eq_or_of_lt y.isLt, Nat.shiftLeft_eq]

/-- STATUS as the sum of its fields at their bit places (R23, R93). -/
theorem State.statusWord_toNat (s : State) : s.statusWord.toNat =
    s.txState.code.toNat * 256 + s.result.code.toNat * 16 + s.done.toNat * 4 + s.initialized.toNat * 2 + s.busy.toNat := by
  rw [State.statusWord, BitVec.zeroExtend, BitVec.toNat_setWidth_of_le (by decide)]
  simp only [toNat_append_eq_add, BitVec.toNat_ofBool, BitVec.toNat_ofNat]
  omega

/-- Settles O7: the fields of STATUS stand at their bit places, with the codes of R33 and R34. -/
theorem statusReadsAsItsFields : Obligations.StatusReadsAsItsFields := by
  intro s
  refine ⟨s.statusWord, rfl, s.statusWord_toNat.trans ?_⟩
  congr 5
  · cases s.txState <;> rfl
  · cases s.result <;> rfl

/-! ### Writes and the busy gate (R90, R94 to R106) -/

/-- Settles O8: each write is the busy gate on the storing of the bits that its register keeps. -/
theorem hostWritesStoreWhenIdle : Obligations.HostWritesStoreWhenIdle :=
  fun _ _ => ⟨rfl, rfl, rfl, rfl, rfl⟩

/-- Settles O9: the two writes without effect have no gate, for there is nothing behind it. -/
theorem readOnlyWritesChangeNothing : Obligations.ReadOnlyWritesChangeNothing :=
  fun _ _ => ⟨rfl, rfl⟩

/-- Settles O10: the gate shuts the six writes that have one; the other writes have no effect, and no read has a gate. -/
theorem writesWhileBusyAreIgnored : Obligations.WritesWhileBusyAreIgnored := by
  intro s v sel hb
  have gate : ∀ f, (.next (s.gated f) : Result) = .next s := fun f => congrArg Host.Outcome.next (State.gated_of_busy hb f)
  obtain ⟨hstatus, hrsvd⟩ := readOnlyWritesChangeNothing s v
  obtain ⟨hoff1, -, hoff2, -, hoff3, -⟩ := misalignedAccessesHaveNoEffect s sel v
  obtain ⟨rcmd, rfreq, raddr, rbuf, rlen, rtimeout, rrsvd⟩ := hostReadsReturnTheirRegister s
  exact ⟨⟨gate _, hstatus, gate _, gate _, gate _, gate _, gate _, hrsvd, hoff1, hoff2, hoff3⟩,
    rcmd, rfl, rfreq, raddr, rbuf, rlen, rtimeout, rrsvd⟩

/-! ### Acceptance and completion (R80, R91, R107) -/

/-- OP of a command word is its remainder by 8. -/
theorem op_eq_iff (v : Word) (op : BitVec 3) : v.extractLsb' 0 3 = op ↔ v.toNat % 8 = op.toNat := by
  rw [← BitVec.toNat_inj]
  simp

/-- Dispatch by the number of the opcode. -/
theorem State.dispatch_eq (s : State) (v : Word) : s.dispatch v =
    if v.toNat % 8 = 1 then s.accept .init else if v.toNat % 8 = 2 then s.accept .send
    else if v.toNat % 8 = 3 then s.accept .recv else s := by
  simp only [State.dispatch, op_eq_iff]
  rfl

/-- Settles O13: behind the busy gate the number of the opcode selects the command that is accepted, or none. -/
theorem commandWriteAccepts : Obligations.CommandWriteAccepts := by
  intro s v
  refine ⟨fun hb => congrArg Host.Outcome.next (State.gated_of_busy hb _), fun hb => ?_⟩
  have hx : exec (.wrCmd v) s = .next (s.dispatch v) := congrArg Host.Outcome.next (State.gated_of_idle hb _)
  rw [hx, s.dispatch_eq]
  refine ⟨fun hinit => ?_, fun hsend => ?_, fun hrecv => ?_, fun hres => ?_⟩
  · rw [hinit]; rfl
  · rw [hsend]; rfl
  · rw [hrecv]; rfl
  · rw [if_neg (by omega), if_neg (by omega), if_neg (by omega)]

/-- Settles O32: the last move of a transaction is its completion, with the first error or OK. -/
theorem completionIsOneStep : Obligations.CompletionIsOneStep :=
  fun _ hw hi hq => BlockMove.step hw hi (.finish hq)

end Sys2Proof.Machine
end

section
/-! SUPPORT. INIT (R110 to R115) and the port writes: what each port write does at its own position, the divisor of a frequency, and
the runs of an accepted and of a rejected INIT. -/

namespace Sys2Proof.Machine

/-! ### Port writes at their positions (R110, R144 to R149) -/

/-- A move of BLOCK at a port write is the meaning of that port write. -/
theorem BlockMove.exec_portWrite {s t : State} {i : Instr} (m : BlockMove s [] t) (hop : s.portOp = some i)
    (hwrite : i.isPortRead = false) : exec i s = .next t := by
  have hturn := State.blockTurn_of_portOp hop []
  rw [hwrite] at hturn
  exact hturn.symm.trans m.blockTurn

/-- Before event 1 of INIT any byte written to DIVR leads to event 2 (R110). -/
theorem exec_pwDiv_at_initDiv {s : State} {d : Byte} (hq : s.seq = .initDiv d) (v : Byte) :
    exec (.pwDiv v) s = .next { s.portWrite .divr v with seq := .initPresc } := by
  simp only [exec, execPwDiv, hq]

/-- After the address byte, whichever it is, the control word of the ADDRESS phase is next (R145). -/
theorem exec_pwData_at_addrData {s : State} (hq : s.seq = .addrData) (v : Byte) :
    exec (.pwData v) s = .next { s.portWrite .dr v with seq := .addrCtl } := by
  simp only [exec, execPwData, hq]

/-- After a byte of a SEND, whichever it is, the control word of its data phase is next (R147). -/
theorem exec_pwData_at_txPut {s : State} {b : Byte} (hq : s.seq = .txPut b) (v : Byte) :
    exec (.pwData v) s = .next { s.portWrite .dr v with seq := .txCtl } := by
  simp only [exec, execPwData, hq]

/-- Settles O19: a write of a control word or of the prescaler code is BLOCK's move at its position, and the three writes with an
operand move on whatever byte they write. -/
theorem portWritesMoveOn : Obligations.PortWritesMoveOn := by
  rintro s v w _ rfl
  exact ⟨fun hq => exec_pwDiv_at_initDiv hq v,
    fun hq => (BlockMove.initPresc hq).exec_portWrite (by simp [State.portOp, hq]) rfl,
    fun hq => exec_pwData_at_addrData hq v,
    fun hq => exec_pwData_at_txPut hq v,
    fun hq => (BlockMove.startCtl hq).exec_portWrite (by simp [State.portOp, hq]) rfl,
    fun hq => (BlockMove.addrCtl hq).exec_portWrite (by simp [State.portOp, hq]) rfl,
    fun hq => (BlockMove.txCtl hq).exec_portWrite (by simp [State.portOp, hq]) rfl,
    fun hq => (BlockMove.rxLast hq).exec_portWrite (by simp [State.portOp, hq]) rfl,
    fun hq => (BlockMove.rxMore hq).exec_portWrite (by simp [State.portOp, hq]) rfl,
    fun hq => (BlockMove.stopCtl hq).exec_portWrite (by simp [State.portOp, hq]) rfl⟩

/-! ### The divisor (R111, R113) -/

/-- The subtraction of 16 from the quotient wraps at 32 bits below 16. -/
theorem toNat_udiv_sub_16 (c f : Word) : (c / f - 16).toNat =
    if 16 ≤ c.toNat / f.toNat then c.toNat / f.toNat - 16 else 4294967296 + c.toNat / f.toNat - 16 := by
  have hlt : (c / f).toNat < 4294967296 := (c / f).isLt
  have hsixteen : (16 : Word).toNat = 16 := rfl
  rw [BitVec.toNat_sub, hsixteen, ← BitVec.toNat_udiv]
  split_ifs <;> omega

/-- The divisor of a frequency, in Nat. -/
theorem divisor_toNat (p : Params) (f : Word) : (divisor p f).toNat =
    (if 16 ≤ p.coreClockHz.toNat / f.toNat then p.coreClockHz.toNat / f.toNat - 16
      else 4294967296 + p.coreClockHz.toNat / f.toNat - 16) / (2 * p.prescaler.toNat) % 2 ^ p.divW % 256 := by
  rw [← toNat_udiv_sub_16]
  exact BitVec.toNat_ofNat _ _

/-- Settles O26: the two branches are those of the wrap, a frequency above the clock has quotient 0, and the table is computed. -/
theorem divisorFormula : Obligations.DivisorFormula := by
  refine ⟨fun p f _ => ⟨fun hge => ?_, fun hlt => ?_, fun hpresc hdivW habove => ?_⟩, by decide⟩
  · rw [divisor_toNat, if_pos hge]
  · rw [divisor_toNat, if_neg (Nat.not_le.mpr hlt)]
  · have hquot : p.coreClockHz.toNat / f.toNat = 0 := Nat.div_eq_of_lt habove
    apply BitVec.eq_of_toNat_eq
    rw [divisor_toNat, hquot, hpresc, hdivW]
    rfl

/-! ### The runs of INIT (R110, R112, R114, R115) -/

/-- On an idle machine INIT is accepted, and nothing else happens. -/
theorem eq_accept_of_exec_init {s s' : State} {hi : BitVec 29} (hb : s.busy = false) (h : exec (.init hi) s = .next s') :
    s' = s.accept .init := by
  obtain ⟨hinit, -, -⟩ := (commandsAreAccepted s hi 0).1 hb
  exact Host.Outcome.next.inj (h.symm.trans hinit)

/-- After its two events INIT takes two steps: the flag and the completion (R110, R115). -/
theorem init_run_of_initFlag (s : State) (hw : s.cfg.wf = true) (hin : s.inbox = []) (hq : s.seq = .initFlag) :
    Host.Core.run core 2 s = .next { s with
      initialized := true, result := .ok, done := true, busy := false, op := .none, seq := .idle
      hostRaced := [], blockRaced := [] } :=
  run_step (BlockMove.step hw hin (.initFlag hq)) <| run_step (BlockMove.step hw hin (.initDone rfl)) (run_zero _)

/-- From its first event on INIT takes four steps: the two events and the end. -/
theorem init_run_of_initDiv (s : State) (d : Byte) (hw : s.cfg.wf = true) (hin : s.inbox = []) (hq : s.seq = .initDiv d) :
    Host.Core.run core 4 s = .next { s with
      trace := s.trace ++ [.portWrite .divr d, .portWrite .psr s.cfg.prescCode]
      initialized := true, result := .ok, done := true, busy := false, op := .none, seq := .idle
      hostRaced := [], blockRaced := [] } := by
  rw [List.append_cons]
  exact run_step (BlockMove.step hw hin (.initDiv d hq)) <| run_step (BlockMove.step hw hin (.initPresc rfl)) <|
    init_run_of_initFlag _ hw hin rfl

/-- Settles O27: the accepted INIT stands at its membership test, which leads a frequency of the set to the first event. -/
theorem initAcceptedRuns : Obligations.InitAcceptedRuns := by
  intro s s' hi hw hb hin hf h
  obtain rfl := eq_accept_of_exec_init hb h
  exact run_step (BlockMove.step (s := s.accept .init) hw hin (.initCheckIn rfl hf)) (init_run_of_initDiv _ _ hw hin rfl)

/-- Settles O28: the one step of a rejected INIT is its completion at the membership test. -/
theorem initRejectedChangesNothing : Obligations.InitRejectedChangesNothing := by
  intro s s' hi hw hb hin hf h
  obtain rfl := eq_accept_of_exec_init hb h
  exact run_step (BlockMove.step (s := s.accept .init) hw hin (.initCheckOut rfl hf)) (run_zero _)

end Sys2Proof.Machine
end

section
/-! SUPPORT. A SEND or RECV as a whole against its pseudocode (R121 to R124): the phases of BLOCK alone up to the STOP phase, the
completion, and the same command with HOST's turns in between. -/

namespace Sys2Proof.Machine

/-! ### A phase and what follows it -/

/-- BLOCK, with no turn of HOST left, stands within a transaction on the operands `o`, without an error so far, before answer `k` of
PERIPH. -/
structure InTxn (s : State) (o : TxnOperands) (ans : Nat → Byte) (k : Nat) : Prop where
  operands : HoldsOperands s o
  valid    : s.bufferValid
  wf       : s.cfg.wf = true
  alone    : s.inbox = []
  answers  : AnswersFrom s ans k
  noErr    : s.err = none
  unraced  : s.hostRaced = []

/-- So it does after what the moves of a phase change. -/
theorem InTxn.of_move {s t : State} {o : TxnOperands} {ans : Nat → Byte} {k k' : Nat} (h : InTxn s o ans k)
    (ht : t = { s with
      seq := t.seq, trace := t.trace, cnt := t.cnt, idx := t.idx, txState := t.txState, err := t.err, answers := t.answers
      draws := t.draws })
    (ha : AnswersFrom t ans k') (he : t.err = none) : InTxn t o ans k' := by
  rw [ht] at ha he ⊢
  exact ⟨{ h.operands with }, h.valid, h.wf, h.alone, ha, he, h.unraced⟩

/-- A phase `p` that performs `es` and then waits: the failure of the wait leads to the STOP phase, its success to what follows the
phase. -/
theorem phase_run {s : State} {o : TxnOperands} {ans : Nat → Byte} {k : Nat} {p : Phase} {w : Bool × List Event × Nat}
    {es : List Event} {rest : TxnResult} (h : InTxn s o ans k)
    (hrun : Reaches s { s with trace := s.trace ++ es, cnt := 0, seq := .flag p })
    (hwait : refWait o.cfg o.budget ans (expected o.cfg p o.dir) k = w)
    (hrest : ∀ u, InTxn u o ans w.2.2 → u.seq = afterMatch p o.dir → u.mem = s.mem → u.len = s.len → ∃ t, StopsWith u rest t) :
    ∃ t, StopsWith s (if w.1 then { rest with events := es ++ w.2.1 ++ rest.events }
      else { ok := false, events := es ++ w.2.1, next := w.2.2, mem := s.mem }) t := by
  obtain ⟨c, as, d, hans, hreach⟩ := hrun.wait ans p k o { h.operands with } h.wf h.alone rfl rfl h.noErr
    (h.answers.of_same rfl rfl) w hwait
  cases hw : w.1 with
  | true =>
    simp only [hw, if_true] at hreach ⊢
    obtain ⟨u, hu, hue⟩ : ∃ u, Reaches s u ∧ u = _ := ⟨_, hreach, rfl⟩
    have hin : InTxn u o ans w.2.2 := h.of_move (by rw [hue]) (hans.of_same (by rw [hue]) (by rw [hue])) (by rw [hue])
    obtain ⟨t, ht⟩ := hrest u hin (by rw [hue, ← h.operands.dir]) (by rw [hue]) (by rw [hue])
    exact ⟨t, ht.after (es ++ w.2.1) rest.next hu (by simp [hue]) (by rw [hue]) (by rw [hue]; exact ⟨rfl, rfl, rfl, rfl, rfl⟩)
      (by rw [hue])⟩
  | false =>
    simp only [hw, Bool.false_eq_true, if_false] at hreach ⊢
    exact ⟨_, hreach, rfl, by simp, rfl, rfl, ⟨rfl, rfl, rfl, rfl, rfl⟩, rfl, h.alone, rfl⟩

/-- The ADDRESS phase and what follows it, as a run of BLOCK alone (R124, R145). -/
theorem address_run {s : State} {o : TxnOperands} {ans : Nat → Byte} {k n : Nat} {m : Memory} (h : InTxn s o ans k)
    (hq : s.seq = .addrData) (hn : s.len.toNat = n) (hm : s.mem = m) : ∃ t, StopsWith s (refFromAddress o ans n k m) t := by
  subst hn hm
  have hrun : Reaches s { s with
      trace := s.trace ++ [.portWrite .dr (slaByte o.addr o.dir), .portWrite .cr o.cfg.ctlCont]
      cnt := 0, seq := .flag .address } := by
    rw [← h.operands.addr, ← h.operands.dir, ← h.operands.cfg, List.append_cons]
    exact .head (BlockMove.step h.wf h.alone (.addrData hq)) (.head (BlockMove.step h.wf h.alone (.addrCtl rfl)) (.refl _))
  refine phase_run (rest := refBytes o ans s.len.toNat 0 _ s.mem) h hrun rfl fun u hu huq hmem hlen => ?_
  obtain ⟨t, ht⟩ := bytes_run ans o s.len.toNat 0 _ s.mem { u.setTxState .addressSent with idx := 0, seq := .dataHead }
    { hu.operands with } hu.valid hu.wf hu.alone rfl rfl (by simp [hlen]) hmem (hu.answers.of_same rfl rfl) hu.noErr hu.unraced
  exact ⟨t, ht.after [] _ (.head (BlockMove.step hu.wf hu.alone (.addressOk huq)) (.refl _)) (by simp) rfl
    ⟨rfl, rfl, rfl, rfl, rfl⟩ rfl⟩

/-- `Transaction(dirv)` of R124 up to its STOP phase. -/
def refUntilStop (o : TxnOperands) (ans : Nat → Byte) (n : Nat) (m : Memory) : TxnResult :=
  let w := refWait o.cfg o.budget ans (expected o.cfg .start o.dir) 0
  let rest := refFromAddress o ans n w.2.2 m
  if w.1 then { rest with events := [.portWrite .cr o.cfg.ctlStart] ++ w.2.1 ++ rest.events }
  else { ok := false, events := [.portWrite .cr o.cfg.ctlStart] ++ w.2.1, next := w.2.2, mem := m }

/-- The STOP phase comes whatever happened before it (R124, R149). -/
theorem refTransaction_eq (o : TxnOperands) (ans : Nat → Byte) (n : Nat) (m : Memory) :
    refTransaction o ans n m =
      { refUntilStop o ans n m with events := (refUntilStop o ans n m).events ++ [.portWrite .cr o.cfg.ctlStop] } := rfl

/-- The START phase and what follows it, as a run of BLOCK alone (R124, R144). -/
theorem start_run {s : State} {o : TxnOperands} {ans : Nat → Byte} {n : Nat} {m : Memory} (h : InTxn s o ans 0)
    (hq : s.seq = .startCtl) (hn : s.len.toNat = n) (hm : s.mem = m) : ∃ t, StopsWith s (refUntilStop o ans n m) t := by
  subst hn hm
  have hrun : Reaches s { s with trace := s.trace ++ [.portWrite .cr o.cfg.ctlStart], cnt := 0, seq := .flag .start } := by
    rw [← h.operands.cfg]
    exact .head (BlockMove.step h.wf h.alone (.startCtl hq)) (.refl _)
  refine phase_run (rest := refFromAddress o ans s.len.toNat _ s.mem) h hrun rfl fun u hu huq hmem hlen => ?_
  obtain ⟨t, ht⟩ := address_run (s := { u.setTxState .started with seq := .addrData })
    (hu.of_move rfl (hu.answers.of_same rfl rfl) hu.noErr) rfl (congrArg BitVec.toNat hlen) hmem
  exact ⟨t, ht.after [] _ (.head (BlockMove.step hu.wf hu.alone (.startOk huq)) (.refl _)) (by simp) rfl
    ⟨rfl, rfl, rfl, rfl, rfl⟩ rfl⟩

/-! ### The whole transaction, BLOCK alone -/

/-- The operation of a direction (R121, R122). -/
def opOf (d : Bool) : Op := if d then .recv else .send

/-- On an idle machine SEND and RECV are accepted, and nothing else happens. -/
theorem eq_accept_of_exec_transfer {s s' : State} {hi : BitVec 29} {d : Bool} (hb : s.busy = false)
    (h : exec (if d then .recv hi else .send hi) s = .next s') : s' = s.accept (opOf d) := by
  obtain ⟨-, hsend, hrecv⟩ := (commandsAreAccepted s hi 0).1 hb
  cases d
  · exact Host.Outcome.next.inj (h.symm.trans hsend)
  · exact Host.Outcome.next.inj (h.symm.trans hrecv)

/-- A command accepted in `s` has completed in `t`, having done what `r` says. -/
structure CompletesWith (s : State) (r : TxnResult) (t : State) : Prop where
  busy    : t.busy = false
  done    : t.done = true
  result  : t.result = r.code
  txState : t.txState = .stopped
  trace   : t.trace = s.trace ++ r.events
  init    : t.initialized = s.initialized
  args    : sameArguments s t
  seq     : t.seq = .idle
  cfg     : t.cfg = s.cfg

/-- The result of a transaction is its error, if it has one (R129). -/
theorem TxnResult.code_eq (r : TxnResult) :
    (if r.ok then none else some .timeout : Option ResultCode).getD .ok = r.code := by
  unfold TxnResult.code
  split <;> rfl

theorem prechecksPass_iff (s : State) : s.prechecksPass = true ↔ s.initialized = true ∧ s.buf ≠ 0 ∧ s.len ≠ 0 := by
  simp [State.prechecksPass, and_assoc]

/-- From its acceptance on, BLOCK alone performs the transaction of the pseudocode. -/
theorem transaction_run_alone {s : State} {d : Bool} (hw : s.cfg.wf = true) (hp : s.prechecksPass = true)
    (hv : s.bufferValid) (hr : s.hostRaced = []) :
    let r := refTransaction (s.operands d) s.answerAt s.len.toNat s.mem
    ∃ n t, Host.Core.run core n { s.accept (opOf d) with inbox := [] } = .next t ∧ CompletesWith s r t ∧ t.mem = r.mem := by
  intro r
  obtain ⟨hinit, hbuf, hlen⟩ := (prechecksPass_iff s).1 hp
  let v : State := { ({ s.accept (opOf d) with inbox := [] } : State).setTxState .idle with
    dir := opOf d == .recv, err := none, seq := .startCtl }
  have hbegin : Reaches { s.accept (opOf d) with inbox := [] } v :=
    .head (BlockMove.step hw rfl (.precheckPass (by cases d <;> rfl) hinit hbuf hlen))
      (.head (BlockMove.step hw rfl (.txnBegin rfl)) (.refl v))
  have hv : InTxn v (s.operands d) s.answerAt 0 := {
    operands := ⟨rfl, rfl, rfl, rfl, by cases d <;> rfl⟩
    valid    := hv
    wf       := hw
    alone    := rfl
    answers  := fun j => by rw [Nat.zero_add]; rfl
    noErr    := rfl
    unraced  := hr }
  obtain ⟨t, ht⟩ := start_run hv rfl rfl rfl
  obtain ⟨n, hn⟩ := hbegin.trans ht.run
  have hcfg : t.cfg = s.cfg := ht.cfg
  have hstop := stop_run t (hcfg ▸ hw) ht.inbox ht.seq
  refine ⟨n + 3, _, run_add hn hstop, ⟨rfl, rfl, ?_, rfl, ?_, ht.init, ht.args, rfl, hcfg⟩, ht.mem⟩
  · exact (congrArg (Option.getD · .ok) ht.err).trans (TxnResult.code_eq _)
  · show t.trace ++ [.portWrite .cr t.cfg.ctlStop] = s.trace ++ r.events
    rw [ht.trace, hcfg, List.append_assoc]
    rfl

/-! ### With HOST's turns in between (R202) -/

/-- What completes alone completes alike between HOST's turns, for neither HOST's turns nor the bytes of BUFMEM lead BLOCK. -/
theorem CompletesWith.of_follows {s t u : State} {r : TxnResult} (h : CompletesWith s r u) (hf : Follows t u) (hk : Quiet t u) :
    CompletesWith s r t := by
  rw [hf.alike.same]
  exact { h with trace := hk.trace.trans h.trace, seq := hk.position.trans h.seq }

/-- Settles O33: BLOCK alone performs the transaction of the pseudocode, and HOST's turns in between change nothing of that. -/
theorem transactionFollowsThePseudocode : Obligations.TransactionFollowsThePseudocode := by
  intro s s' hi d hinv hw hb hturns hp hv hexec r
  obtain rfl := eq_accept_of_exec_transfer hb hexec
  obtain ⟨hraced, -⟩ := hinv.raceFree hb
  obtain ⟨n, u, hrun, hend, hmem⟩ := transaction_run_alone (d := d) hw hp hv hraced
  have hfollows : Follows (s.accept (opOf d)) { s.accept (opOf d) with inbox := [] } :=
    ⟨⟨rfl, .inl rfl, rfl⟩, rfl, fun hreset => (hturns _ hreset).1 rfl⟩
  obtain ⟨m, t, hrun', hbusy, hf, hquiet, hstill⟩ := follows_run n _ _ u hfollows hw rfl hrun hend.busy
  have hk : Quiet t u := hquiet ⟨rfl, rfl, fun _ _ => by simp [hraced], hraced, fun _ _ => rfl,
    fun i b hi hwrite => (hturns _ hwrite).2 b i hi rfl, fun hdata => by cases d <;> cases hdata⟩
  have hc := hend.of_follows hf hk
  obtain ⟨hinit, -, -⟩ := (prechecksPass_iff s).1 hp
  obtain ⟨-, -, hbuf, hlen, -⟩ := hend.args
  refine ⟨m, t, hrun', hbusy, hc.busy, hc.done, hc.result, hc.txState, hc.trace, hc.init.trans hinit, hc.args, hc.seq,
    fun i hi => ?_, fun hno => ?_⟩
  · have hea : u.ea i = s.ea i := by simp only [State.ea, hend.cfg, hbuf]
    rw [← hea, hk.mem i (hlen ▸ hi), hmem]
  · exact (hstill ⟨hraced, hraced, rfl, hno⟩).mem.trans hmem

end Sys2Proof.Machine
end

section
/-! SUPPORT. What a step can do to a transaction (R120, R123, R125, R147, R148): the prechecks, the bytes BLOCK stores, the moves of
STATE, and the STOP control word. -/

namespace Sys2Proof.Machine

/-! ### The prechecks (R123, R171, R172, R175) -/

/-- Settles O30: each of the three outcomes of the prechecks is one move of BLOCK. -/
theorem precheckFailuresTouchNothing : Obligations.PrecheckFailuresTouchNothing :=
  fun _ hw hi hq => ⟨fun hinit => BlockMove.step hw hi (.notInitialized hq hinit),
    fun hinit hb => BlockMove.step hw hi (.invalidBuffer hq hinit hb),
    fun hinit hb hl => BlockMove.step hw hi (.precheckPass hq hinit hb hl)⟩

/-! ### The bytes BLOCK stores (R147, R148) -/

/-- A move of BLOCK changes BUFMEM at the MemWrite of a byte alone, and there the current byte alone. -/
theorem BlockMove.mem {s t : State} {later : List Byte} (m : BlockMove s later t) :
    t.mem = s.mem ∨ ∃ d left, s.seq = .rxStore d ∧ t.mem = s.mem.setByte (s.ea s.idx) left := by
  cases m with
  | rxStore d hq => exact .inr ⟨d, _, hq, rfl⟩
  | _ => exact .inl rfl

/-- The MemWrite of a byte is a position of RECV. -/
theorem Inv.op_of_rxStore {s : State} {d : Byte} (h : Inv s) (hq : s.seq = .rxStore d) : s.op = .recv := by
  have hdir : s.dir = true := by simpa [hq, dirFits] using h.dirPosition
  have hop := h.dirOk (by rw [hq]; rfl)
  simpa [hdir] using hop.symm

/-- Settles O38: a step of BLOCK is one of its moves or passes, and its one move that stores stores the current byte. -/
theorem blockStoresOnlyTheCurrentByte : Obligations.BlockStoresOnlyTheCurrentByte := by
  intro s t h hin hs
  have hmem : t.mem = s.mem ∨ ∃ d left, s.seq = .rxStore d ∧ t.mem = s.mem.setByte (s.ea s.idx) left := by
    cases (step_move hs).2 with
    | block t _ hm => exact hm.mem
    | blockTurn t _ hm => exact hm.mem
    | blockStuck => exact .inl rfl
    | access _ _ hi | pollDone _ _ _ _ hi | pollAgain _ _ _ _ hi | bufRead _ hi | bufWrite _ _ hi | reset hi =>
      simp [hi] at hin
  rcases hmem with hmem | ⟨d, left, hq, hmem⟩
  · exact ⟨fun _ => hmem, fun _ => hmem, fun a _ => by rw [hmem]⟩
  · exact ⟨fun hop => absurd (h.op_of_rxStore hq) hop, fun hne => absurd hq (hne d),
      fun a ha => by rw [hmem, s.mem.byteAt_setByte_other left ha]⟩

/-! ### The moves of STATE (R120, R127) -/

/-- An access to HOSTREG leaves STATE (R39). -/
theorem HostMove.txState {s t : State} (m : HostMove s t) : t.txState = s.txState := by
  cases m <;> rfl

theorem txMove_idle (x : TxState) : txMove x .idle = true := by
  cases x <;> rfl

theorem txMove_stopped (x : TxState) : txMove x .stopped = (x != .stopped) := by
  cases x <;> rfl

/-- A move of BLOCK changes STATE at the begin of a transaction, after a phase and after STOP alone, each along the table. -/
theorem BlockMove.txState {s t : State} {later : List Byte} (m : BlockMove s later t) (h : Inv s) :
    t.txState = s.txState ∨ (inTransaction s.seq = true ∧ txMove s.txState t.txState = true) := by
  have hfits := h.txStateOk
  cases m with
  | txnBegin hq => exact .inr ⟨by rw [hq]; rfl, txMove_idle _⟩
  | startOk hq =>
    have hx : s.txState = .idle := by simpa [hq, txStateFits] using hfits
    exact .inr ⟨by rw [hq]; rfl, by rw [hx]; rfl⟩
  | addressOk hq =>
    have hx : s.txState = .started := by simpa [hq, txStateFits] using hfits
    exact .inr ⟨by rw [hq]; rfl, by rw [hx]; rfl⟩
  | dataOk l hq =>
    have hx : s.txState = .addressSent ∨ s.txState = .dataByte := by simpa [hq, txStateFits, inDataPhase] using hfits
    exact .inr ⟨by rw [hq]; rfl, by rcases hx with hx | hx <;> rw [hx] <;> rfl⟩
  | stopped hq =>
    have hx : (s.txState != .stopped) = true := by simpa [hq, txStateFits] using hfits
    exact .inr ⟨by rw [hq]; rfl, (txMove_stopped _).trans hx⟩
  | _ => exact .inl rfl

/-- Within a transaction a command is in progress, and it is no INIT. -/
theorem Inv.busy_of_inTransaction {s : State} (h : Inv s) (hq : inTransaction s.seq = true) : s.busy = true ∧ s.op ≠ .init := by
  refine ⟨h.busyIff.2 fun hidle => ?_, fun hop => ?_⟩
  · simp [hidle, inTransaction] at hq
  · have hfits := h.opOk
    rw [hop] at hfits
    cases hs : s.seq <;> simp_all [opFits, inTransaction]

/-- Settles O37: HOST's accesses leave STATE, and BLOCK's moves change it within a transaction alone. -/
theorem transactionStateMovesAsR120Says : Obligations.TransactionStateMovesAsR120Says := by
  intro s t h hs hne
  rcases (step_move hs).2.registers with ⟨i, hm⟩ | ⟨_, _, _, hm⟩ | ⟨-, -, -, -, -, hx⟩ | ⟨hi, _⟩
  · obtain ⟨hq, hmove⟩ := (hm.txState (h.inputs s.ret s.retByte i s.raceDraws)).resolve_left hne
    obtain ⟨hbusy, hop⟩ := h.busy_of_inTransaction hq
    exact .inr ⟨hbusy, hop, hmove⟩
  · exact absurd hm.txState hne
  · exact absurd hx hne
  · exact .inl hi

/-! ### The STOP control word (R125, R149) -/

/-- The positions of a transaction at which STOP is still to be written (R124). -/
def beforeStop : Seq → Bool
  | .stopped | .finish => false
  | q => inTransaction q

/-- The positions from the STOP control word on (R124, R203). -/
def afterStop : Seq → Bool
  | .stopped | .finish | .idle => true
  | _ => false

theorem stopIsOwn_iff (p : Params) :
    p.stopIsOwn = true ↔ p.ctlStart ≠ p.ctlStop ∧ p.ctlCont ≠ p.ctlStop ∧ p.ctlContAck ≠ p.ctlStop := by
  simp [Params.stopIsOwn, and_assoc, @eq_comm _ p.ctlStop]

theorem stopCount_append (p : Params) (es es' : List Event) : stopCount p (es ++ es') = stopCount p es + stopCount p es' :=
  List.countP_append

/-- While STOP is still to be written, a move of BLOCK writes it and leaves these positions, or stays among them and writes another
event or none. -/
theorem BlockMove.stop {s t : State} {later : List Byte} (m : BlockMove s later t) (hown : s.cfg.stopIsOwn = true)
    (hq : beforeStop s.seq = true) :
    (beforeStop t.seq = true ∧ ∃ es, t.trace = s.trace ++ es ∧ stopCount s.cfg es = 0) ∨
    (t.seq = .stopped ∧ t.trace = s.trace ++ [.portWrite .cr s.cfg.ctlStop]) := by
  obtain ⟨hstart, hcont, hack⟩ := (stopIsOwn_iff _).1 hown
  cases m with
  | stopCtl => exact .inr ⟨rfl, rfl⟩
  | startCtl | addrCtl | txCtl | rxLast | rxMore =>
    exact .inl ⟨rfl, [_], rfl, by simp [stopCount, Event.isStop, hstart, hcont, hack]⟩
  | addrData | txPut | flagSet | flagClear | statusOther | txRead | rxRead | rxStore => exact .inl ⟨rfl, [_], rfl, rfl⟩
  | statusMatch p => exact .inl ⟨by cases p <;> cases s.dir <;> rfl, [_], rfl, rfl⟩
  | txnBegin | flagSpent | statusSpent | startOk | addressOk | dataOk | nextTx | nextRx | dataEnd =>
    exact .inl ⟨rfl, [], (List.append_nil _).symm, rfl⟩
  | idle hp | initCheckIn hp | initCheckOut hp | initDiv _ hp | initPresc hp | initFlag hp | initDone hp | notInitialized hp
  | invalidBuffer hp | precheckPass hp | stopped hp | finish hp => simp [hp, beforeStop, inTransaction] at hq

/-- Once STOP is written, BLOCK performs no event. -/
theorem BlockMove.quiet_afterStop {s t : State} {later : List Byte} (m : BlockMove s later t) (hq : afterStop s.seq = true) :
    afterStop t.seq = true ∧ t.trace = s.trace := by
  cases m with
  | idle => exact ⟨hq, rfl⟩
  | stopped | finish => exact ⟨rfl, rfl⟩
  | _ => simp_all [afterStop]

/-- The stages of a SEND or RECV accepted in `s`, with what it has added to the trace in `u`. -/
inductive TxnStage (s u : State) : Prop
  | precheck : u.seq = .precheck → u.prechecksPass = s.prechecksPass → u.trace = s.trace → TxnStage s u
  | failed : s.prechecksPass = false → u.seq = .idle → u.trace = s.trace → TxnStage s u
  | before (es : List Event) : s.prechecksPass = true → beforeStop u.seq = true → u.trace = s.trace ++ es →
      stopCount s.cfg es = 0 → TxnStage s u
  | after (es : List Event) : s.prechecksPass = true → afterStop u.seq = true →
      u.trace = s.trace ++ es ++ [.portWrite .cr s.cfg.ctlStop] → stopCount s.cfg es = 0 → TxnStage s u

/-- What HOST's turns change while BUSY = 1 leaves the stage. -/
theorem TxnStage.of_same {s u v : State} (h : TxnStage s u)
    (hv : v = { u with
      ret := v.ret, retByte := v.retByte, mem := v.mem, hostRaced := v.hostRaced, inbox := v.inbox, raceDraws := v.raceDraws }) :
    TxnStage s v := by
  rw [hv]
  cases h with
  | precheck hq hp ht => exact .precheck hq hp ht
  | failed hp hq ht => exact .failed hp hq ht
  | before es hp hq ht hc => exact .before es hp hq ht hc
  | after es hp hq ht hc => exact .after es hp hq ht hc

/-- The prechecks of R123 decide the next stage. -/
theorem BlockMove.stage_of_precheck {s u v : State} {later : List Byte} (m : BlockMove u later v) (hq : u.seq = .precheck)
    (hp : u.prechecksPass = s.prechecksPass) (ht : u.trace = s.trace) : TxnStage s v := by
  cases m with
  | notInitialized _ hi => exact .failed (by rw [← hp]; simp [State.prechecksPass, hi]) rfl ht
  | invalidBuffer _ _ hb => exact .failed (by rw [← hp]; rcases hb with hb | hb <;> simp [State.prechecksPass, hb]) rfl ht
  | precheckPass _ hi hb hl => exact .before [] (hp ▸ (prechecksPass_iff u).2 ⟨hi, hb, hl⟩) rfl (by simpa using ht) rfl
  | _ => simp_all

/-- A move of BLOCK leads from stage to stage. -/
theorem TxnStage.blockMove {s u v : State} {later : List Byte} (h : TxnStage s u) (hcfg : u.cfg = s.cfg)
    (hown : s.cfg.stopIsOwn = true) (m : BlockMove u later v) : TxnStage s v := by
  cases h with
  | precheck hq hp ht => exact m.stage_of_precheck hq hp ht
  | failed hp hq ht =>
    rcases m.progress with rfl | ⟨hne, -⟩ | ⟨hne, -⟩
    · exact .failed hp hq ht
    · exact absurd hq hne
    · exact absurd hq hne
  | before es hp hq ht hc =>
    rcases m.stop (hcfg ▸ hown) hq with ⟨hq', es', ht', hc'⟩ | ⟨hq', ht'⟩
    · rw [hcfg] at hc'
      exact .before (es ++ es') hp hq' (by rw [ht', ht, List.append_assoc]) (by rw [stopCount_append, hc, hc'])
    · exact .after es hp (by rw [hq']; rfl) (by rw [ht', ht, hcfg]) hc
  | after es hp hq ht hc =>
    obtain ⟨hq', ht'⟩ := m.quiet_afterStop hq
    exact .after es hp hq' (ht'.trans ht) hc

/-- A step during a command, short of a reset, is a move of BLOCK or changes nothing that BLOCK goes by (R90). -/
theorem TurnMove.block_or_pass {s t : State} {later : List Byte} (m : TurnMove s later t) (hb : s.busy = true)
    (hr : .reset ∉ s.inbox) :
    (∃ i, BlockMove { s with inbox := i } later t) ∨
    t = { s with
      ret := t.ret, retByte := t.retByte, mem := t.mem, hostRaced := t.hostRaced, inbox := t.inbox, raceDraws := t.raceDraws } := by
  cases m with
  | block t _ hm => exact .inl ⟨s.inbox, hm⟩
  | blockTurn t _ hm => exact .inl ⟨s.inbox.tail, hm⟩
  | access a t _ hx =>
    have e : t = { s.popped with ret := t.ret } := State.accessTurn_busy hb hx
    exact .inr (by rw [e]; rfl)
  | bufRead a =>
    obtain ⟨_, _, e⟩ := s.popped.hostBufRead_eq later a
    exact .inr (by rw [e]; rfl)
  | bufWrite a b =>
    obtain ⟨_, _, _, e, -, -⟩ := s.popped.hostBufWrite_eq a b
    exact .inr (by rw [e]; rfl)
  | blockStuck | pollDone | pollAgain => exact .inr rfl
  | reset hi => exact absurd (List.mem_of_mem_head? hi) hr

/-- A SEND or RECV accepted in `s` is in progress in `u` or has ended, with no reset among HOST's turns to come. -/
structure TxnProgress (s u : State) : Prop where
  cfg     : u.cfg = s.cfg
  noReset : .reset ∉ u.inbox
  stage   : TxnStage s u

/-- Every step of the command keeps that. -/
theorem TxnProgress.step {s u v : State} (hown : s.cfg.stopIsOwn = true) (h : TxnProgress s u) (hb : u.busy = true)
    (hs : step u = .next v) : TxnProgress s v := by
  have m := (step_move hs).2
  refine ⟨m.cfg.trans h.cfg, fun hr => ?_, ?_⟩
  · rcases m.mem_inbox hr with hr | hr
    · exact h.noReset hr
    · cases hr
  · rcases m.block_or_pass hb h.noReset with ⟨i, hm⟩ | hsame
    · exact (h.stage.of_same (v := { u with inbox := i }) rfl).blockMove h.cfg hown hm
    · exact h.stage.of_same hsame

/-- What was written last is what the register last got. -/
theorem lastWritten_append (es : List Event) (r : PortReg) (v : Byte) : lastWritten (es ++ [.portWrite r v]) r = some v := by
  simp [lastWritten]

/-- Settles O35: every step of the command leads from stage to stage, and at the idle point it has failed its prechecks or written
STOP. -/
theorem stopIsWrittenExactlyOnce : Obligations.StopIsWrittenExactlyOnce := by
  rintro s _ t o n hinv hb hr hown ho rfl hrun hbusy htb
  have hentry : o.entry = .precheck ∧ o ≠ .none := by rcases ho with rfl | rfl <;> exact ⟨rfl, by decide⟩
  have hstart : TxnProgress s (s.accept o) := ⟨rfl, hr, .precheck hentry.1 rfl rfl⟩
  have hend := (run_busy (TxnProgress s) (fun _ _ => TxnProgress.step hown) n _ t hstart hbusy hrun).stage
  have hidle : t.seq = .idle := (run_keeps Inv stepKeepsInvariant n _ t (hinv.accept hentry.2) hrun).seq_idle htb
  cases hend with
  | precheck hq => rw [hidle] at hq; cases hq
  | before _ _ hq => rw [hidle] at hq; cases hq
  | failed hp _ ht => exact ⟨fun hp' => absurd (hp.symm.trans hp') Bool.false_ne_true, fun _ => ht⟩
  | after es hp _ ht hc =>
    exact ⟨fun _ => ⟨⟨es, ht, hc⟩, by rw [ht, lastWritten_append]⟩, fun hp' => absurd (hp'.symm.trans hp) Bool.false_ne_true⟩

end Sys2Proof.Machine
end

section
/-! SUPPORT. The bus phases (R140 to R160): what a port operation changes, a wait whose budget is spent, and the bound on the events
of a command (R162), whose end BLOCK reaches alone and so between HOST's turns. -/

namespace Sys2Proof.Machine

/-! ### Port operations (R150 to R159) -/

/-- Wherever BLOCK stands, a port operation performs its event, moves BLOCK, may set the sample counter, and changes nothing else. -/
theorem exec_portOp_frame {i : Instr} {s : State} {e : Event} (h : portOpEvent s.cfg i = some e) :
    ∃ t, exec i s = .next t ∧ t = { s with trace := s.trace ++ [e], seq := t.seq, cnt := t.cnt } := by
  cases i with
  | pwDiv | pwPresc | pwData | pwCtlStop | prData =>
    cases h
    exact ⟨_, rfl, rfl⟩
  | pwCtlStart | pwCtlCont | pwCtlContAck =>
    cases h
    refine ⟨_, rfl, ?_⟩
    split <;> rfl
  | prFlag | prStatus =>
    cases h
    refine ⟨_, rfl, ?_⟩
    split
    · split <;> rfl
    · rfl
  | _ => cases h

/-- Settles O16: a control word may begin a wait, which sets the counter, and the four other writes move BLOCK alone. -/
theorem portWritesPerformTheirEvent : Obligations.PortWritesPerformTheirEvent :=
  fun _ _ => ⟨⟨_, rfl, rfl⟩, ⟨_, rfl, rfl⟩, ⟨_, rfl, rfl⟩, exec_portOp_frame rfl, exec_portOp_frame rfl, exec_portOp_frame rfl,
    ⟨_, rfl, rfl⟩⟩

/-- Settles O17: a sample is counted, and the data read moves BLOCK alone. -/
theorem portReadsPerformTheirEvent : Obligations.PortReadsPerformTheirEvent :=
  fun _ _ => ⟨exec_portOp_frame rfl, exec_portOp_frame rfl, ⟨_, rfl, rfl⟩⟩

/-- Settles O22: at the data read the byte goes into the next position. -/
theorem dataReadCarriesItsByte : Obligations.DataReadCarriesItsByte := by
  intro s v hq
  simp only [exec, execPrData, hq]
  rfl

/-! ### A spent budget (R143, R176) -/

/-- Settles O31: either wait step has, with its budget spent, the failure entry as its one move. -/
theorem spentBudgetEntersTheFailure : Obligations.SpentBudgetEntersTheFailure := by
  intro s p hw hi hq hspent
  rw [← s.raiseFail_code_timeout]
  rcases hq with hq | hq
  · exact BlockMove.step hw hi (.flagSpent p hq (BitVec.not_lt.2 hspent))
  · exact BlockMove.step hw hi (.statusSpent p hq (BitVec.not_lt.2 hspent))

/-- A wait with its budget spent takes four steps to the end of the command: the failure entry, STOP and the completion. -/
theorem spentBudget_run (s : State) (p : Phase) (hw : s.cfg.wf = true) (hin : s.inbox = []) (hq : s.seq = .flag p)
    (hspent : s.timeout ≤ s.cnt) (he : s.err = none) :
    Host.Core.run core 4 s = .next { s with
      trace := s.trace ++ [.portWrite .cr s.cfg.ctlStop], err := some .timeout, txState := .stopped, result := .timeout
      done := true, busy := false, op := .none, seq := .idle, hostRaced := [], blockRaced := [] } := by
  have hfail := spentBudgetEntersTheFailure s p hw hin (.inl hq) hspent
  rw [he] at hfail
  exact run_step hfail (stop_run _ hw hin rfl)

/-- Without a budget that wait is the one START begins. -/
theorem zeroBudget_run_of_startCtl (s : State) (hw : s.cfg.wf = true) (hin : s.inbox = []) (hq : s.seq = .startCtl)
    (hzero : s.timeout = 0) (he : s.err = none) :
    Host.Core.run core 5 s = .next { s with
      trace := s.trace ++ [.portWrite .cr s.cfg.ctlStart, .portWrite .cr s.cfg.ctlStop], cnt := 0, err := some .timeout
      txState := .stopped, result := .timeout, done := true, busy := false, op := .none, seq := .idle
      hostRaced := [], blockRaced := [] } := by
  have hspent : s.timeout ≤ 0 := BitVec.le_of_eq hzero
  rw [List.append_cons]
  exact run_step (BlockMove.step hw hin (.startCtl hq)) (spentBudget_run _ .start hw hin rfl hspent he)

/-- Settles O36: prechecks and begin lead to START, whose wait fails at once without a budget. -/
theorem zeroBudgetIsStartThenStop : Obligations.ZeroBudgetIsStartThenStop := by
  intro s s' hi d hw hb hin hp hzero h
  obtain rfl := eq_accept_of_exec_transfer hb h
  obtain ⟨hinit, hbuf, hlen⟩ := (prechecksPass_iff s).1 hp
  exact ⟨_, run_step (BlockMove.step (s := s.accept (opOf d)) hw hin (.precheckPass (by cases d <;> rfl) hinit hbuf hlen)) <|
    run_step (BlockMove.step hw hin (.txnBegin rfl)) <| zeroBudget_run_of_startCtl _ hw hin rfl hzero rfl,
    rfl, rfl, rfl, rfl, rfl, rfl, rfl, rfl, rfl, rfl, rfl⟩

/-! ### The events of a transaction (R162) -/

theorem refSamples_length (r : PortReg) (ans : Nat → Byte) (k k' : Nat) : (refSamples r ans k k').length = k' - k := by
  simp [refSamples]

/-- Each of the two steps of a wait samples at most as often as the budget says. -/
theorem refWait_length_le (p : Params) (budget : Nat) (ans : Nat → Byte) (e : Byte) (k : Nat) :
    (refWait p budget ans e k).2.1.length ≤ 2 * budget := by
  have hflag := (refSample_ge ans completionFlag budget k).2
  have hstatus := (refSample_ge ans (fun v => matchesCode p v e) budget (refSample ans completionFlag budget k).2).2
  simp only [refWait]
  split
  · simp only [List.length_append, refSamples_length]
    omega
  · simp only [refSamples_length]
    omega

/-- A data phase has three events beside its wait, in either direction. -/
theorem refBytes_length_le (o : TxnOperands) (ans : Nat → Byte) : ∀ (n idx k : Nat) (m : Memory),
    (refBytes o ans n idx k m).events.length ≤ n * (3 + 2 * o.budget) := by
  intro n
  induction n with
  | zero => exact fun _ _ _ => Nat.zero_le _
  | succ n ih =>
    intro idx k m
    have hwait := refWait_length_le o.cfg o.budget ans (expected o.cfg (.data (n == 0)) o.dir) k
    rw [Nat.succ_mul]
    simp only [refBytes]
    generalize refWait o.cfg o.budget ans (expected o.cfg (.data (n == 0)) o.dir) k = w at hwait ⊢
    split
    · split
      · have hrest := ih (idx + 1) (w.2.2 + 1)
          (m.setByte (keepBits o.cfg.addrW (o.buf + BitVec.ofNat 32 idx)) (ans w.2.2))
        simp only [List.length_append, List.length_cons, List.length_nil]
        omega
      · simp only [List.length_cons]
        omega
    · split
      · have hrest := ih (idx + 1) w.2.2 m
        simp only [List.length_append, List.length_cons]
        omega
      · simp only [List.length_cons]
        omega

/-- The ADDRESS phase has two events beside its wait. -/
theorem refFromAddress_length_le (o : TxnOperands) (ans : Nat → Byte) (n k : Nat) (m : Memory) :
    (refFromAddress o ans n k m).events.length ≤ 2 + 2 * o.budget + n * (3 + 2 * o.budget) := by
  have hwait := refWait_length_le o.cfg o.budget ans (expected o.cfg .address o.dir) k
  have hrest := refBytes_length_le o ans n 0 (refWait o.cfg o.budget ans (expected o.cfg .address o.dir) k).2.2 m
  simp only [refFromAddress]
  split
  · simp only [List.length_append, List.length_cons]
    omega
  · simp only [List.length_cons]
    omega

/-- The START phase has one event beside its wait, and the STOP phase is one event. -/
theorem refTransaction_length_le (o : TxnOperands) (ans : Nat → Byte) (n : Nat) (m : Memory) :
    (refTransaction o ans n m).events.length ≤ 4 + 4 * o.budget + n * (3 + 2 * o.budget) := by
  have hwait := refWait_length_le o.cfg o.budget ans (expected o.cfg .start o.dir) 0
  have hrest := refFromAddress_length_le o ans n (refWait o.cfg o.budget ans (expected o.cfg .start o.dir) 0).2.2 m
  rw [refTransaction_eq]
  simp only [refUntilStop, List.length_append, List.length_singleton]
  split
  all_goals
    simp only [List.length_append, List.length_singleton]
    omega

/-! ### Every command ends (R162, R200, R203) -/

/-- BLOCK alone ends the command `o` accepted in `s`, with at most `bound` events. -/
def EndsAlone (s : State) (o : Op) (bound : Nat) : Prop :=
  ∃ n u, Host.Core.run core n (({ s with inbox := [] } : State).accept o) = .next u ∧ u.busy = false ∧ u.done = true ∧
    u.trace.length ≤ s.trace.length + bound

/-- INIT ends after its two events, or at its membership test (R110, R112). -/
theorem init_endsAlone {s : State} (hw : s.cfg.wf = true) (hb : s.busy = false) : EndsAlone s .init 2 := by
  obtain ⟨haccept, -, -⟩ := (commandsAreAccepted { s with inbox := [] } 0 0).1 hb
  cases hf : s.cfg.supportedFreqs.contains s.freq with
  | true => exact ⟨5, _, initAcceptedRuns { s with inbox := [] } _ 0 hw hb rfl hf haccept, rfl, rfl, by simp⟩
  | false => exact ⟨1, _, initRejectedChangesNothing { s with inbox := [] } _ 0 hw hb rfl hf haccept, rfl, rfl, by simp⟩

/-- A SEND or RECV that fails a precheck ends there (R123). -/
theorem precheckFailure_endsAlone {s : State} {o : Op} (hw : s.cfg.wf = true) (ho : o.entry = .precheck)
    (hp : s.prechecksPass = false) : EndsAlone s o 0 := by
  obtain ⟨hnot, hinvalid, -⟩ := precheckFailuresTouchNothing (({ s with inbox := [] } : State).accept o) hw rfl ho
  cases hi : s.initialized with
  | false => exact ⟨1, _, run_step (hnot hi) (run_zero _), rfl, rfl, Nat.le_refl _⟩
  | true =>
    have hempty : s.buf = 0 ∨ s.len = 0 := by
      by_contra hno
      rw [not_or] at hno
      exact absurd ((prechecksPass_iff s).2 ⟨hi, hno⟩) (by simp [hp])
    exact ⟨1, _, run_step (hinvalid hi hempty) (run_zero _), rfl, rfl, Nat.le_refl _⟩

/-- A SEND or RECV that passes its prechecks ends with the transaction of the pseudocode (R124). -/
theorem transaction_endsAlone {s : State} (d : Bool) (hw : s.cfg.wf = true) (hp : s.prechecksPass = true) (hv : s.bufferValid)
    (hr : s.hostRaced = []) : EndsAlone s (opOf d) (4 + 4 * s.timeout.toNat + s.len.toNat * (3 + 2 * s.timeout.toNat)) := by
  obtain ⟨n, u, hrun, hend, -⟩ := transaction_run_alone (d := d) hw hp hv hr
  refine ⟨n, u, hrun, hend.busy, hend.done, ?_⟩
  rw [hend.trace, List.length_append]
  exact Nat.add_le_add_left (refTransaction_length_le (s.operands d) s.answerAt s.len.toNat s.mem) _

/-- The bound of R162 for a SEND or RECV, whether it passes its prechecks or not. -/
theorem transfer_endsAlone {s : State} (d : Bool) (h : Inv s) (hw : s.cfg.wf = true) (hb : s.busy = false)
    (hv : s.prechecksPass = true → s.bufferValid) : EndsAlone s (opOf d) (s.eventBound (opOf d)) := by
  have hbound : s.eventBound (opOf d) =
      if s.prechecksPass then 4 + 4 * s.timeout.toNat + s.len.toNat * (3 + 2 * s.timeout.toNat) else 0 := by
    cases d <;> rfl
  rw [hbound]
  cases hp : s.prechecksPass with
  | true => exact transaction_endsAlone d hw hp (hv hp) (h.raceFree hb).1
  | false => exact precheckFailure_endsAlone hw (by cases d <;> rfl) hp

/-- A command that BLOCK ends alone it ends between HOST's turns too, with as many events. -/
theorem EndsAlone.ends {s : State} {o : Op} {bound : Nat} (h : EndsAlone s o bound) (hw : s.cfg.wf = true)
    (hr : .reset ∉ s.inbox) :
    ∃ n t, Host.Core.run core n (s.accept o) = .next t ∧ busyUntil (s.accept o) n ∧ t.busy = false ∧ t.done = true ∧
      t.trace.length ≤ s.trace.length + bound := by
  obtain ⟨n, u, hrun, hbusy, hdone, hlen⟩ := h
  have hfollows : Follows (s.accept o) (({ s with inbox := [] } : State).accept o) := ⟨⟨rfl, .inl rfl, rfl⟩, rfl, hr⟩
  obtain ⟨m, t, hrun', huntil, hf, -, -⟩ := follows_run n _ _ u hfollows hw rfl hrun hbusy
  have hdone' : t.done = u.done := by rw [hf.alike.same]
  exact ⟨m, t, hrun', huntil, hf.alike.busy.trans hbusy, hdone'.trans hdone, hf.alike.length ▸ hlen⟩

/-- Settles O34: BLOCK alone ends each of the three commands within its bound, and HOST's turns short of a reset do not lead it. -/
theorem everyCommandEndsWithinItsBound : Obligations.EveryCommandEndsWithinItsBound := by
  rintro s _ o hinv hw hb hr ho hv rfl
  have halone : EndsAlone s o (s.eventBound o) := by
    cases o with
    | none => exact absurd rfl ho
    | init => exact init_endsAlone hw hb
    | send => exact transfer_endsAlone false hinv hw hb (hv (.inl rfl))
    | recv => exact transfer_endsAlone true hinv hw hb (hv (.inr rfl))
  exact halone.ends hw hr

end Sys2Proof.Machine
end

section
/-! SUPPORT. Reset and rest (R184, R190 to R192, R203): the state after reset, the reset input, and the machine with nothing left to
do. -/

namespace Sys2Proof.Machine

/-- A run from a state that its step repeats stays there. -/
theorem run_of_step_self {s : State} (h : step s = .next s) (n : Nat) : Host.Core.run core n s = .next s := by
  induction n with
  | zero => exact run_zero s
  | succ n ih => exact run_step h ih

/-- Settles O59: with BUSY = 0 the invariant has BLOCK at the idle point, whose move repeats the state. -/
theorem idleMachineStaysAsItIs : Obligations.IdleMachineStaysAsItIs := by
  intro s n hinv hw hb hi
  have hidle : s.seq = .idle := hinv.seq_idle hb
  exact run_of_step_self (BlockMove.step hw hi (.idle hidle)) n

/-- Settles O46: reset is at the idle point, and the open TIMEOUT fits its 32 bits whatever it is. -/
theorem resetHasInvariant : Obligations.ResetHasInvariant := by
  have hwidths : State.reset.buf.toNat < 2 ^ State.reset.cfg.addrW ∧ State.reset.len.toNat < 2 ^ State.reset.cfg.lenW ∧
      State.reset.timeout.toNat < 2 ^ State.reset.cfg.timeoutW :=
    ⟨Nat.two_pow_pos _, Nat.two_pow_pos _, Config.timeoutCountDefault.isLt⟩
  exact inv_of_idle rfl rfl rfl rfl hwidths (.inl rfl) ⟨rfl, rfl⟩

/-- Settles O55: the fields are those that `State.reset` is written with, and BUSY = 0 among them opens the gate of INIT. -/
theorem resetValues : Obligations.ResetValues := by
  have haccept : ∀ hi, ∃ t, exec (.init hi) State.reset = .next t ∧ t.busy = true := by
    intro hi
    obtain ⟨hidle, -⟩ := commandsAreAccepted State.reset hi 0
    obtain ⟨hinit, -⟩ := hidle rfl
    exact ⟨_, hinit, rfl⟩
  exact ⟨rfl, rfl, rfl, rfl, rfl, rfl, rfl, rfl, rfl, rfl, rfl, rfl, rfl, rfl, rfl, rfl, rfl, haccept⟩

/-- Settles O56: the step takes the turn, and that turn is `State.resetBlock`. -/
theorem resetInputAbandonsTheCommand : Obligations.ResetInputAbandonsTheCommand := by
  intro s rest hw hi
  have htake : ({ s with inbox := rest } : State).takeTurn s.later .reset = .next ({ s with inbox := rest } : State).resetBlock :=
    rfl
  exact (step_turn hw hi).trans htake

end Sys2Proof.Machine
end
